-- ==== Sys2Proof/Word.lean ====
section
/-! DEFINITION. The word types of the block (00_scope R14): every value is an unsigned integer of a stated width. -/

namespace Sys2Proof

/-- An 8-bit byte, u8; also a symbol of the 256-symbol alphabet (R8). -/
abbrev Byte := BitVec 8

/-- A 32-bit count operand, u32 (R11). -/
abbrev U32 := BitVec 32

/-- A 64-bit counter or size operand, u64 (R11). -/
abbrev U64 := BitVec 64

end Sys2Proof
end

