-- ==== Sys2Proof/Syntax.lean ====
section
/-! DEFINITION. The commands of the block, one constructor per row of spec/opcode_table.json (30_encoding R76). -/

namespace Sys2Proof

/-- A command with its operands (R72, R73).  A code operand (format F3) is its bit sequence in root-to-leaf order, and its
operand `len` is the length of that sequence (R74, R83); the data operand of WR_BYTES (format F5) is its byte list, and
its operand `n` is the length of that list. -/
inductive Instr where
  /-- 0x01 GET_STATUS (R200). -/
  | getStatus
  /-- 0x10 RD_BIT (R103). -/
  | rdBit
  /-- 0x11 RD_BYTES n (R104). -/
  | rdBytes (n : U32)
  /-- 0x12 RD_ALIGN (R105). -/
  | rdAlign
  /-- 0x20 WR_BIT b; b above 1 is an illegal operand value that the command itself answers (R78, R125). -/
  | wrBit (b : Byte)
  /-- 0x21 WR_BYTES [d0, …] (R126). -/
  | wrBytes (data : List Byte)
  /-- 0x22 WR_ALIGN (R127). -/
  | wrAlign
  /-- 0x23 WR_CLOSE (R128). -/
  | wrClose
  /-- 0x30 CT_CLEAR (R140). -/
  | ctClear
  /-- 0x31 CT_LOAD s, code (R141). -/
  | ctLoad (sym : Byte) (code : List Bool)
  /-- 0x40 TR_CLEAR (R144). -/
  | trClear
  /-- 0x41 TR_INSERT_STREAM s, len (R145). -/
  | trInsertStream (sym : Byte) (len : Byte)
  /-- 0x42 TR_INSERT_CODE s, code (R147). -/
  | trInsertCode (sym : Byte) (code : List Bool)
  /-- 0x50 ENC_SYM s (R172). -/
  | encSym (sym : Byte)
  /-- 0x51 COMPRESS (R173). -/
  | compress
  /-- 0x60 DEC_SYM (R175). -/
  | decSym
  /-- 0x61 DECOMPRESS size (R176). -/
  | decompress (size : U64)
  deriving DecidableEq, Repr

end Sys2Proof
end

