-- ==== Sys2Proof/WellFormed.lean ====
section
/-! DEFINITION. Which commands have an encoding: the lengths their u8 and u32 length operands can carry (R9, R11, R72). -/

namespace Sys2Proof

/-- A code sequence has a u8 length operand, so at most `MAX_CODE_LEN = 255` bits (R9, R72 format F3). -/
def codeFits (code : List Bool) : Bool := code.length ≤ 255

/-- A data operand has a u32 length operand (R11, R72 format F5). -/
def dataFits (data : List Byte) : Bool := data.length < 2 ^ 32

/-- The command can be encoded.  Every operand value of a fixed width is encodable, an illegal WR_BIT operand included
(R78: its operand byte is still consumed). -/
def Instr.wf : Instr → Bool
  | .getStatus => true
  | .rdBit => true
  | .rdBytes _ => true
  | .rdAlign => true
  | .wrBit _ => true
  | .wrBytes data => dataFits data
  | .wrAlign => true
  | .wrClose => true
  | .ctClear => true
  | .ctLoad _ code => codeFits code
  | .trClear => true
  | .trInsertStream _ _ => true
  | .trInsertCode _ code => codeFits code
  | .encSym _ => true
  | .compress => true
  | .decSym => true
  | .decompress _ => true

end Sys2Proof
end

