-- ==== Sys2Proof/Decode.lean ====
section
/-! DEFINITION. The command decoder and encoder (30_encoding R70 to R78) and the pseudo-instructions (R84). -/

namespace Sys2Proof

/-! ### Byte order and bit order -/

/-- The integer of a big-endian byte list (R73). -/
def ofBigEndian (bs : List Byte) : Nat := bs.foldl (fun acc b => acc * 256 + b.toNat) 0

/-- The `k` bytes of an integer, most significant first (R14, R73, R81). -/
def toBigEndian : Nat → Nat → List Byte
  | 0, _ => []
  | k + 1, v => BitVec.ofNat 8 (v / 256 ^ k) :: toBigEndian k v

/-- The eight bits of a byte, LSB-first (R54). -/
def bitsOfByte (b : Byte) : List Bool := (List.range 8).map fun i => b.getLsbD i

/-- The byte whose bit `i` is the `i`-th of the given bits; missing bits are 0 (R54, R74). -/
def byteOfBits : List Bool → Byte
  | [] => 0#8
  | b :: bs => (byteOfBits bs <<< 1) ||| (if b then 1#8 else 0#8)

/-- The number of code bytes of a code of `len` bits, `ceil(len / 8)` (R42, R72). -/
def codeBytes (len : Nat) : Nat := (len + 7) / 8

/-- Code bit `c(i)`: bit `i mod 8` of code byte `i div 8` (R74). -/
def codeBit (bytes : List Byte) (i : Nat) : Bool := (bytes.getD (i / 8) 0#8).getLsbD (i % 8)

/-- The code operand `c(0) … c(len-1)` of format F3; padding bits are not looked at (R74). -/
def unpackCode (len : Nat) (bytes : List Byte) : List Bool := (List.range len).map (codeBit bytes)

/-- The code bytes of a code operand, with zero padding bits (R74). -/
def packCode (code : List Bool) : List Byte :=
  (List.range (codeBytes code.length)).map fun j => byteOfBits ((code.drop (8 * j)).take 8)

/-! ### Formats and lengths -/

/-- The formats of R72. -/
inductive Format where
  | f0 | f1 | f2 | f3 | f4 | f5 | f6
  deriving DecidableEq, Repr

/-- The format of each assigned opcode (R76); a byte with none is reserved (R77). -/
def formatOf (op : Byte) : Option Format :=
  match op.toNat with
  | 0x01 => some .f0
  | 0x10 => some .f0
  | 0x11 => some .f4
  | 0x12 => some .f0
  | 0x20 => some .f1
  | 0x21 => some .f5
  | 0x22 => some .f0
  | 0x23 => some .f0
  | 0x30 => some .f0
  | 0x31 => some .f3
  | 0x40 => some .f0
  | 0x41 => some .f2
  | 0x42 => some .f3
  | 0x50 => some .f1
  | 0x51 => some .f0
  | 0x60 => some .f0
  | 0x61 => some .f6
  | _ => none

/-- The length in bytes of the command at the front of the channel, as a decoder finds it from its first five bytes at
most (R75); `none` while too few bytes have arrived to tell. -/
def commandLength : List Byte → Option Nat
  | [] => none
  | op :: rest =>
    match formatOf op with
    | none => some 1
    | some .f0 => some 1
    | some .f1 => some 2
    | some .f2 => some 3
    | some .f3 =>
      match rest with
      | _ :: len :: _ => some (3 + codeBytes len.toNat)
      | _ => none
    | some .f4 => some 5
    | some .f5 =>
      match rest with
      | b1 :: b2 :: b3 :: b4 :: _ => some (5 + ofBigEndian [b1, b2, b3, b4])
      | _ => none
    | some .f6 => some 9

/-! ### Decoding -/

/-- What the decoder finds at the front of the command channel. -/
inductive Decoded where
  /-- A complete command and the bytes after it. -/
  | command (i : Instr) (rest : List Byte)
  /-- A reserved opcode, a 1-byte command, and the bytes after it (R77). -/
  | reserved (op : Byte) (rest : List Byte)
  /-- Fewer bytes than the command needs (R82). -/
  | incomplete
  deriving DecidableEq, Repr

/-- Format F1: one operand byte. -/
def decodeF1 (mk : Byte → Instr) : List Byte → Decoded
  | imm :: rest => .command (mk imm) rest
  | _ => .incomplete

/-- Format F2: symbol and length. -/
def decodeF2 (mk : Byte → Byte → Instr) : List Byte → Decoded
  | s :: len :: rest => .command (mk s len) rest
  | _ => .incomplete

/-- Format F3: symbol, length and `ceil(len / 8)` code bytes. -/
def decodeF3 (mk : Byte → List Bool → Instr) : List Byte → Decoded
  | s :: len :: rest =>
    if rest.length < codeBytes len.toNat then .incomplete
    else .command (mk s (unpackCode len.toNat (rest.take (codeBytes len.toNat)))) (rest.drop (codeBytes len.toNat))
  | _ => .incomplete

/-- Format F4: a u32 count, big-endian. -/
def decodeF4 (mk : U32 → Instr) : List Byte → Decoded
  | b1 :: b2 :: b3 :: b4 :: rest => .command (mk (BitVec.ofNat 32 (ofBigEndian [b1, b2, b3, b4]))) rest
  | _ => .incomplete

/-- Format F5: a u32 count and that many data bytes. -/
def decodeF5 (mk : List Byte → Instr) : List Byte → Decoded
  | b1 :: b2 :: b3 :: b4 :: rest =>
    if rest.length < ofBigEndian [b1, b2, b3, b4] then .incomplete
    else .command (mk (rest.take (ofBigEndian [b1, b2, b3, b4]))) (rest.drop (ofBigEndian [b1, b2, b3, b4]))
  | _ => .incomplete

/-- Format F6: a u64 size, big-endian. -/
def decodeF6 (mk : U64 → Instr) : List Byte → Decoded
  | b1 :: b2 :: b3 :: b4 :: b5 :: b6 :: b7 :: b8 :: rest =>
    .command (mk (BitVec.ofNat 64 (ofBigEndian [b1, b2, b3, b4, b5, b6, b7, b8]))) rest
  | _ => .incomplete

/-- The command decoder: the full opcode byte selects the command (R70, R71, R76), its format the operands (R72); any
other byte is reserved (R77). -/
def decode : List Byte → Decoded
  | [] => .incomplete
  | op :: rest =>
    match op.toNat with
    | 0x01 => .command .getStatus rest
    | 0x10 => .command .rdBit rest
    | 0x11 => decodeF4 .rdBytes rest
    | 0x12 => .command .rdAlign rest
    | 0x20 => decodeF1 .wrBit rest
    | 0x21 => decodeF5 .wrBytes rest
    | 0x22 => .command .wrAlign rest
    | 0x23 => .command .wrClose rest
    | 0x30 => .command .ctClear rest
    | 0x31 => decodeF3 .ctLoad rest
    | 0x40 => .command .trClear rest
    | 0x41 => decodeF2 .trInsertStream rest
    | 0x42 => decodeF3 .trInsertCode rest
    | 0x50 => decodeF1 .encSym rest
    | 0x51 => .command .compress rest
    | 0x60 => .command .decSym rest
    | 0x61 => decodeF6 .decompress rest
    | _ => .reserved op rest

/-! ### Encoding -/

/-- The operand bytes of format F3 (R72, R74). -/
def encodeF3 (sym : Byte) (code : List Bool) : List Byte := sym :: BitVec.ofNat 8 code.length :: packCode code

/-- The operand bytes of format F5 (R72). -/
def encodeF5 (data : List Byte) : List Byte := toBigEndian 4 data.length ++ data

/-- The bytes of a well-formed command (R70, R72, R76). -/
def encode : Instr → List Byte
  | .getStatus => [0x01]
  | .rdBit => [0x10]
  | .rdBytes n => 0x11 :: toBigEndian 4 n.toNat
  | .rdAlign => [0x12]
  | .wrBit b => [0x20, b]
  | .wrBytes data => 0x21 :: encodeF5 data
  | .wrAlign => [0x22]
  | .wrClose => [0x23]
  | .ctClear => [0x30]
  | .ctLoad sym code => 0x31 :: encodeF3 sym code
  | .trClear => [0x40]
  | .trInsertStream sym len => [0x41, sym, len]
  | .trInsertCode sym code => 0x42 :: encodeF3 sym code
  | .encSym sym => [0x50, sym]
  | .compress => [0x51]
  | .decSym => [0x60]
  | .decompress size => 0x61 :: toBigEndian 8 size.toNat

/-! ### Words numbered as the opcode table numbers them -/

/-- The `k` bytes of a word, least significant first: the opcode byte is bits 7 to 0. -/
def tableBytes : Nat → Nat → List Byte
  | 0, _ => []
  | k + 1, w => BitVec.ofNat 8 w :: tableBytes k (w / 256)

/-- The bytes, in channel order, of the command whose bits are `w` with `nbits` of them given and every later bit 0: at
least the given bytes, and as many zero bytes as the command's length asks for (R75). -/
def tableCommand (nbits w : Nat) : List Byte :=
  match commandLength (tableBytes ((nbits + 7) / 8) w ++ List.replicate 4 0#8) with
  | some n => tableBytes ((nbits + 7) / 8) w ++ List.replicate (n - (nbits + 7) / 8) 0#8
  | none => tableBytes ((nbits + 7) / 8) w

/-- The command the decoder reads from a word numbered as spec/opcode_table.json numbers it. -/
def decodeTableWord (nbits w : Nat) : Option Instr :=
  match decode (tableCommand nbits w) with
  | .command i _ => some i
  | _ => none

/-! ### Pseudo-instructions (R84): each is one real command -/

/-- `WR_U8 v`. -/
def pseudoWrU8 (v : Byte) : Instr := .wrBytes [v]
/-- `WR_U16 v`. -/
def pseudoWrU16 (v : BitVec 16) : Instr := .wrBytes (toBigEndian 2 v.toNat)
/-- `WR_U32 v`. -/
def pseudoWrU32 (v : U32) : Instr := .wrBytes (toBigEndian 4 v.toNat)
/-- `WR_U64 v`. -/
def pseudoWrU64 (v : U64) : Instr := .wrBytes (toBigEndian 8 v.toNat)
/-- `RD_U8`. -/
def pseudoRdU8 : Instr := .rdBytes 1
/-- `RD_U16`. -/
def pseudoRdU16 : Instr := .rdBytes 2
/-- `RD_U32`. -/
def pseudoRdU32 : Instr := .rdBytes 4
/-- `RD_U64`. -/
def pseudoRdU64 : Instr := .rdBytes 8

end Sys2Proof
end

