-- ==== Sys2Proof/Config.lean ====
section
/-! DEFINITION. What a run of the block takes as arguments (00_scope R13: NODE_CAP, IN, SINK_OK), as plain data that State
carries and no step writes, and the model's free values, opaque constants with no body. -/

namespace Sys2Proof

/-- What IN answers once its bytes are exhausted, for ever (R52). -/
inductive Terminal where
  /-- End: the source is exhausted. -/
  | endOfSource
  /-- Error: hard failure. -/
  | error
  deriving DecidableEq, Repr

/-- The sink's answer to one emit or flush event (R16, R53). -/
inductive SinkAnswer where
  | ok
  | fail
  deriving DecidableEq, Repr

/-- The parameters of a run (R13, R20). -/
structure Params where
  /-- NODE_CAP, the number of nodes the trie store holds, the root included (R10). -/
  nodeCap : Nat
  /-- IN.bytes (R52). -/
  inBytes : List Byte
  /-- IN.term (R52). -/
  inTerm : Terminal
  /-- SINK_OK(k) for k = 0, 1, 2, … as far as the list goes (R53).  DESIGN CHOICE of form, log entry 2. -/
  sinkAnswers : List SinkAnswer
  /-- SINK_OK(k) for every later k. -/
  sinkRest : SinkAnswer
  deriving DecidableEq, Repr

/-- The default parameters: `NODE_CAP = 511` is the spec's default (R10); the source and the sink are the model's own
(DESIGN CHOICE, unsafe, log entries 1 and 2): an empty source that ends normally and a sink that always answers Ok. -/
def Params.default : Params :=
  { nodeCap := 511, inBytes := [], inTerm := .endOfSource, sinkAnswers := [], sinkRest := .ok }

/-- FREE VALUE, safe, log entry 6: whether the byte of the k-th sink event, an emit answered Fail, reached OUT.bytes
(R53, U15: both outcomes are admitted). -/
opaque Config.failedEmitDelivers : Nat → Bool

/-- The children of an unallocated node, free (see `Config.unallocatedSym`). -/
opaque Config.unallocatedChild : Nat → Bool → Option Nat

/-- The leaf flag of an unallocated node, free (see `Config.unallocatedSym`). -/
opaque Config.unallocatedLeaf : Nat → Bool

/-- FREE VALUE, safe, log entry 5: the symbol field of an unallocated node, whose contents are unspecified and which no
rule reads (R32, U12). -/
opaque Config.unallocatedSym : Nat → Byte

/-- FREE VALUE, safe, log entry 15: a bit read from CT_BITS[s] past the sequence the store holds, which happens in no state
that a run reaches (R30). -/
opaque Config.codeBitOutside : Nat → Bool

end Sys2Proof
end

