-- ==== Sys2Proof/Machine/State.lean ====
section
/-! DEFINITION. The state of the block (10_state), its ports and its channels (20_memory R50), as plain data; and the
reasons the machine's step can stop. -/

namespace Sys2Proof.Machine

/-- A trie node (R31).  The index of a child is a node index; `none` is an absent child. -/
structure Node where
  /-- zero_child, the child reached by bit 0. -/
  z : Option Nat
  /-- one_child, the child reached by bit 1. -/
  o : Option Nat
  /-- The leaf mark of v2 reconstruction. -/
  leaf : Bool
  /-- The symbol, meaningful only when `leaf` holds. -/
  sym : Byte
  deriving DecidableEq, Repr

/-- A node as TrieInsert, TR_CLEAR and reset make it: {z: none, o: none, leaf: 0, sym: 0x00} (R39, R143, R144). -/
def Node.fresh : Node := { z := none, o := none, leaf := false, sym := 0x00#8 }

/-- An entry of the sink's event log (R53). -/
inductive SinkEvent where
  | emit (b : Byte)
  | flush
  deriving DecidableEq, Repr

/-- The fault kinds of the block (R250).  Raising one is an exception that the block TAKES (R252), not a stop of the
machine; see `takeFault` in Machine/Ops.lean. -/
inductive FaultKind where
  /-- 0x01 -/
  | ioError
  /-- 0x02 -/
  | endOfInput
  /-- 0x03 -/
  | corruptDictionary
  /-- 0x04 -/
  | symbolNotInTable
  /-- 0x05 -/
  | writerUnusable
  /-- 0x06 -/
  | nodeOverflow
  /-- 0x07 -/
  | illegalCommand
  deriving DecidableEq, Repr

/-- Everything the spec gives the block, its two ports and its two channels. -/
structure State where
  /-- The parameters of the run (R13, R20); no step writes them. -/
  par : Params
  /-- RD_CACHE (R23). -/
  rdCache : Byte
  /-- RD_REM, 0 to 8 (R24). -/
  rdRem : Fin 9
  /-- WR_CACHE (R26). -/
  wrCache : Byte
  /-- WR_CNT, 0 to 7 (R27). -/
  wrCnt : Fin 8
  /-- WR_CLOSED (R29). -/
  wrClosed : Bool
  /-- CT_LEN[0..255] (R30). -/
  ctLen : Vector Byte 256
  /-- CT_BITS[0..255], root-to-leaf (R30). -/
  ctBits : Vector (List Bool) 256
  /-- NODE[0..NODE_COUNT-1], the allocated nodes in index order; NODE_COUNT is their number (R31, R32, log entry 5). -/
  nodes : List Node
  /-- DEC_COUNT (R34). -/
  decCount : U64
  /-- ENC_COUNT (R35). -/
  encCount : U64
  /-- FAULT, 0x00 or the code of the epoch's first fault (R36). -/
  fault : Byte
  /-- CMDSEQ, the commands completed in the epoch (R21). -/
  cmdSeq : Nat
  /-- IN.pos (R52). -/
  inPos : Nat
  /-- OUT.bytes (R53). -/
  outBytes : List Byte
  /-- OUT.events (R53). -/
  outEvents : List SinkEvent
  /-- The command channel: the bytes sent and not yet read, next byte first (R50, R70). -/
  cmd : List Byte
  /-- The response channel: the epoch's responses, oldest first (R50, R80). -/
  resp : List (List Byte)
  deriving DecidableEq, Repr

/-- The state after the reset input, a fresh IN and OUT and empty channels, for any parameters (R39, R40, R280, R282). -/
def State.resetWith (p : Params) : State :=
  { par := p
    rdCache := 0x00#8
    rdRem := 0
    wrCache := 0x00#8
    wrCnt := 0
    wrClosed := false
    ctLen := Vector.replicate 256 0#8
    ctBits := Vector.replicate 256 []
    nodes := [Node.fresh]
    decCount := 0#64
    encCount := 0#64
    fault := 0x00#8
    cmdSeq := 0
    inPos := 0
    outBytes := []
    outEvents := []
    cmd := []
    resp := [] }

/-- The state after reset with the default parameters. -/
def State.reset : State := State.resetWith Params.default

/-- The reasons the machine's step stops. -/
inductive Fault where
  /-- Raised by `step` when the command channel holds fewer bytes than the command needs: the block waits and has no step
  until the host supplies the rest (R82, U17 'stuck').  Safe: nothing is claimed of the wait. -/
  | commandIncomplete
  deriving DecidableEq, Repr

/-- The reasons a command has no meaning. -/
inductive Refusal where
  /-- Answered only by an arm of `exec` whose instruction has no meaning yet.  Safe: nothing is claimed of it. -/
  | notModelled (mnemonic : String)
  deriving DecidableEq, Repr

end Sys2Proof.Machine
end

