-- ==== Sys2Proof/Machine/Ops.lean ====
section
/-! DEFINITION. The named operations over the state: register writes, the ports (20_memory R52, R53), the trie store, the
response and taking a fault (60_exceptions R250 to R257), and the host's moves (R267, R280). -/

namespace Sys2Proof.Machine

/-! ### Register writes -/

/-- RD_CACHE and RD_REM. -/
def State.setReader (s : State) (cache : Byte) (rem : Fin 9) : State := { s with rdCache := cache, rdRem := rem }

/-- WR_CACHE and WR_CNT. -/
def State.setWriter (s : State) (cache : Byte) (cnt : Fin 8) : State := { s with wrCache := cache, wrCnt := cnt }

/-- WR_CLOSED <- 1 (R29). -/
def State.close (s : State) : State := { s with wrClosed := true }

/-- CT_LEN[sym] and CT_BITS[sym] (R141). -/
def State.setCode (s : State) (sym : Byte) (len : Byte) (bits : List Bool) : State :=
  { s with ctLen := s.ctLen.set sym.toNat len sym.isLt, ctBits := s.ctBits.set sym.toNat bits sym.isLt }

/-- CT_LEN of every symbol <- 0; CT_BITS is left as it is (R140). -/
def State.clearCodes (s : State) : State := { s with ctLen := Vector.replicate 256 0#8 }

/-- The trie store. -/
def State.setNodes (s : State) (nodes : List Node) : State := { s with nodes := nodes }

/-- DEC_COUNT. -/
def State.setDecCount (s : State) (v : U64) : State := { s with decCount := v }

/-- ENC_COUNT. -/
def State.setEncCount (s : State) (v : U64) : State := { s with encCount := v }

/-- FAULT. -/
def State.setFault (s : State) (v : Byte) : State := { s with fault := v }

/-- IN.pos. -/
def State.setInPos (s : State) (v : Nat) : State := { s with inPos := v }

/-- OUT.bytes and OUT.events. -/
def State.setOut (s : State) (bytes : List Byte) (events : List SinkEvent) : State :=
  { s with outBytes := bytes, outEvents := events }

/-- The unread bytes of the command channel. -/
def State.setCmd (s : State) (bytes : List Byte) : State := { s with cmd := bytes }

/-- A response is produced, and CMDSEQ goes up by 1 (R21, R80). -/
def State.answer (s : State) (response : List Byte) : State :=
  { s with resp := s.resp ++ [response], cmdSeq := s.cmdSeq + 1 }

/-! ### Table reads -/

/-- CT_LEN[sym] (R30). -/
def State.codeLen (s : State) (sym : Byte) : Byte := s.ctLen[sym.toNat]'(sym.isLt)

/-- CT_BITS[sym](0 .. CT_LEN[sym]-1) (R30); a bit past the stored sequence is a free value (log entry 15). -/
def State.codeOf (s : State) (sym : Byte) : List Bool :=
  (List.range (s.codeLen sym).toNat).map fun i => (s.ctBits[sym.toNat]'(sym.isLt)).getD i (Config.codeBitOutside i)

/-- NODE_COUNT (R32). -/
def State.nodeCount (s : State) : Nat := s.nodes.length

/-- NODE[i] (R31); an unallocated node is a free value (R32, log entry 5). -/
def State.node (s : State) (i : Nat) : Node :=
  s.nodes.getD i
    { z := Config.unallocatedChild i false, o := Config.unallocatedChild i true,
      leaf := Config.unallocatedLeaf i, sym := Config.unallocatedSym i }

/-- The child that a bit selects: z for 0, o for 1 (R18, R143, R170). -/
def Node.child (n : Node) (bit : Bool) : Option Nat := if bit then n.o else n.z

/-- The node with the child that a bit selects set. -/
def Node.setChild (n : Node) (bit : Bool) (c : Nat) : Node :=
  if bit then { n with o := some c } else { n with z := some c }

/-- No children: the structural leaf test (R170, C4). -/
def Node.childless (n : Node) : Bool := n.z.isNone && n.o.isNone

/-! ### Results of a helper, and `raise` -/

/-- What a helper of a command's pseudocode does: it returns a value, or it raises a fault and its command stops there; in
both cases the effects so far are in the state (R16, R17, R256). -/
inductive Res (α : Type) where
  | ok (a : α) (s : State)
  | raise (f : FaultKind) (s : State)

/-- Sequencing: a helper that raises aborts the command that called it (R17). -/
def Res.andThen {α β : Type} (r : Res α) (k : α → State → Res β) : Res β :=
  match r with
  | .ok a s => k a s
  | .raise f s => .raise f s

/-- The code of a fault kind (R250). -/
def FaultKind.code : FaultKind → Byte
  | .ioError => 0x01
  | .endOfInput => 0x02
  | .corruptDictionary => 0x03
  | .symbolNotInTable => 0x04
  | .writerUnusable => 0x05
  | .nodeOverflow => 0x06
  | .illegalCommand => 0x07

/-! ### Taking a fault, and the command template -/

/-- Taking a fault (R252): FAULT holds the first fault's code, the response is the code alone, CMDSEQ goes up by 1.  There
is no handler, vector or mode to enter (R255); the state holds the effects before the faulting step (R256). -/
def takeFault (f : FaultKind) (s : State) : State :=
  (s.setFault (if s.fault = 0x00#8 then f.code else s.fault)).answer [f.code]

/-- The end of a command: `respond(p)` answers status 0x00 and the payload (R16, R80), `raise F` takes the fault. -/
def finish (r : Res (List Byte)) : Host.Outcome State Fault Refusal :=
  match r with
  | .ok p s => .next (s.answer (0x00#8 :: p))
  | .raise f s => .next (takeFault f s)

/-- The entry check of every command but GET_STATUS (R253): while FAULT is not 0 the response is FAULT and nothing else
happens; otherwise the command's pseudocode runs. -/
def command (body : State → Res (List Byte)) (s : State) : Host.Outcome State Fault Refusal :=
  if s.fault = 0x00#8 then finish (body s) else .next (s.answer [s.fault])

/-! ### The input port -/

/-- What `InFetch()` returns (R16): a byte, End or Error. -/
inductive InItem where
  | byte (b : Byte)
  | term (t : Terminal)
  deriving DecidableEq, Repr

/-- `InFetch()` (R52): the next byte, or the terminal for ever. -/
def inFetch (s : State) : InItem × State :=
  match s.par.inBytes[s.inPos]? with
  | some b => (.byte b, s.setInPos (s.inPos + 1))
  | none => (.term s.par.inTerm, s)

/-- The fault of a read that needs data and finds the terminal: End is END_OF_INPUT, Error is IO_ERROR (R100, C3). -/
def terminalFault : Terminal → FaultKind
  | .endOfSource => .endOfInput
  | .error => .ioError

/-- The bytes IN still holds. -/
def State.inLeft (s : State) : Nat := s.par.inBytes.length - s.inPos

/-- The bits the reader can still deliver: the cached ones and eight for each byte IN still holds. -/
def State.bitsLeft (s : State) : Nat := s.rdRem.val + 8 * s.inLeft

/-! ### The output port -/

/-- `SINK_OK(k)` (R53). -/
def State.sinkOk (s : State) (k : Nat) : SinkAnswer := s.par.sinkAnswers.getD k s.par.sinkRest

/-- `OutEmit(b)` (R53): the event is logged; on Ok the byte joins OUT.bytes, on Fail whether it does is a free value (U15,
log entry 6). -/
def outEmit (b : Byte) (s : State) : SinkAnswer × State :=
  match s.sinkOk s.outEvents.length with
  | .ok => (.ok, s.setOut (s.outBytes ++ [b]) (s.outEvents ++ [.emit b]))
  | .fail =>
    (.fail,
      s.setOut (if Config.failedEmitDelivers s.outEvents.length then s.outBytes ++ [b] else s.outBytes)
        (s.outEvents ++ [.emit b]))

/-- `OutFlush()` (R53): the event is logged, and OUT.bytes is as it was (R59). -/
def outFlush (s : State) : SinkAnswer × State :=
  (s.sinkOk s.outEvents.length, s.setOut s.outBytes (s.outEvents ++ [.flush]))

/-- A sink event whose Fail raises IO_ERROR in the same command (R129). -/
def sinkStep (r : SinkAnswer × State) : Res Unit :=
  match r with
  | (.ok, s) => .ok () s
  | (.fail, s) => .raise .ioError s

/-! ### The trie store -/

/-- TR_CLEAR's effect on the store (R144). -/
def State.clearTrie (s : State) : State := s.setNodes [Node.fresh]

/-- A new node at index NODE_COUNT, made the child of node `i` that the bit selects (R32, R143). -/
def State.allocChild (s : State) (i : Nat) (bit : Bool) : State :=
  s.setNodes ((s.nodes ++ [Node.fresh]).modify i fun n => n.setChild bit s.nodeCount)

/-- Node `i` marked as the leaf of a symbol (R143). -/
def State.markLeaf (s : State) (i : Nat) (sym : Byte) : State :=
  s.setNodes (s.nodes.modify i fun n => { n with leaf := true, sym := sym })

/-! ### The host's moves (R267) -/

/-- The host sends bytes on the command channel. -/
def hostSend (bytes : List Byte) (s : State) : State := s.setCmd (s.cmd ++ bytes)

/-- A byte sequence is whole commands, reserved opcodes included: it does not end in a half-sent one (R75, R77, R82).  The
first argument bounds the number of commands, each of which has at least one byte. -/
def wholeCommands : Nat → List Byte → Bool
  | _, [] => true
  | 0, _ :: _ => false
  | n + 1, b :: bs =>
    match decode (b :: bs) with
    | .command _ rest => wholeCommands n rest
    | .reserved _ rest => wholeCommands n rest
    | .incomplete => false

/-- A command boundary (R280): no command is half sent.  None is partly read or executing in any state, since a step
takes a whole command. -/
def State.atBoundary (s : State) : Bool := wholeCommands s.cmd.length s.cmd

/-- The host asserts the reset input and attaches a fresh IN and OUT: every register at its reset value, the sticky fault
cleared, the writer reopened, a new epoch with empty channels (R39, R40, R280, R282).  The host has this move at a command
boundary only: with a command half sent there is none (R267, R281, U18).  NODE_CAP is the device's own and stays; the
source and the sink are the new ones in `p`; whole commands not yet read are dropped (log entry 9). -/
def hostReset (p : Params) (s : State) : Option State :=
  if s.atBoundary then some (State.resetWith { p with nodeCap := s.par.nodeCap }) else none

end Sys2Proof.Machine
end

