-- ==== Sys2Proof/Machine/Operands.lean ====
section
/-! DEFINITION. The operand and payload forms: one-byte payload fields, big-endian payload integers (30_encoding R81), the
length of a code operand (R74, R83) and the GET_STATUS payload (44_control R200). -/

namespace Sys2Proof.Machine

/-- A bit as a payload byte, `zext_8` (R14). -/
def bitByte (b : Bool) : Byte := if b then 0x01#8 else 0x00#8

/-- A small count as a payload byte, `zext_8` (R14). -/
def countByte (n : Nat) : Byte := BitVec.ofNat 8 n

/-- `u16be(NODE_COUNT)` (R81, R200). -/
def u16Payload (n : Nat) : List Byte := toBigEndian 2 n

/-- `u64be` of a counter (R81, R200). -/
def u64Payload (v : U64) : List Byte := toBigEndian 8 v.toNat

/-- The `len` operand of a code operand (R74, R83). -/
def codeOperandLen (code : List Bool) : Byte := BitVec.ofNat 8 code.length

/-- The 24-byte payload of GET_STATUS (R200). -/
def statusPayload (s : State) : List Byte :=
  [s.fault, countByte s.rdRem.val, s.rdCache, countByte s.wrCnt.val, s.wrCache, bitByte s.wrClosed]
    ++ u16Payload s.nodeCount ++ u64Payload s.decCount ++ u64Payload s.encCount

end Sys2Proof.Machine
end

