-- ==== Sys2Proof/Machine/Flags.lean ====
section
/-! DEFINITION. The block's status conditions (10_state R37): it has no condition codes, no carry or zero flag; its flags
are WR_CLOSED, checked here, and the condition FAULT ≠ 0, checked by `command` in Machine/Ops.lean. -/

namespace Sys2Proof.Machine

/-- `CheckWriter()` (R124): a writer-using command on a closed writer raises WRITER_UNUSABLE. -/
def checkWriter (s : State) : Res Unit := if s.wrClosed then .raise .writerUnusable s else .ok () s

end Sys2Proof.Machine
end

