-- ==== Sys2Proof/Machine/Reader.lean ====
section
/-! DEFINITION. The bit reader BR (40_bit_reader): its helpers and the commands RD_BIT, RD_BYTES, RD_ALIGN. -/

namespace Sys2Proof.Machine

/-- The second half of `ReadBit()` (R100): the least significant cached bit is consumed. -/
def takeBit (s : State) : Res Bool :=
  .ok (s.rdCache.getLsbD 0) (s.setReader (s.rdCache >>> 1) ⟨s.rdRem.val - 1, by omega⟩)

/-- `ReadBit()` (R100). -/
def readBit (s : State) : Res Bool :=
  if s.rdRem = 0 then
    match inFetch s with
    | (.byte b, s1) => takeBit (s1.setReader b 8)
    | (.term t, s1) => .raise (terminalFault t) s1
  else takeBit s

/-- `TryReadByte()` (R101): a byte, directly when aligned and reassembled across the boundary otherwise, or the terminal
with the reader unchanged. -/
def tryReadByte (s : State) : InItem × State :=
  match inFetch s with
  | (.term t, s1) => (.term t, s1)
  | (.byte b, s1) =>
    if s.rdRem = 0 then (.byte b, s1)
    else (.byte (s.rdCache ||| (b <<< s.rdRem.val)), s1.setReader (b >>> (8 - s.rdRem.val)) s.rdRem)

/-- `ReadByte()` (R101). -/
def readByte (s : State) : Res Byte :=
  match tryReadByte s with
  | (.byte v, s1) => .ok v s1
  | (.term t, s1) => .raise (terminalFault t) s1

/-- `repeat n times: p <- p ++ [ReadByte()]` (R104). -/
def readBytes : Nat → State → Res (List Byte)
  | 0, s => .ok [] s
  | n + 1, s => (readByte s).andThen fun b s1 => (readBytes n s1).andThen fun p s2 => .ok (b :: p) s2

/-- RD_BIT (R103). -/
def execRdBit (s : State) : Host.Outcome State Fault Refusal :=
  command (fun s => (readBit s).andThen fun bit s1 => .ok [bitByte bit] s1) s

/-- RD_BYTES n (R104). -/
def execRdBytes (n : U32) (s : State) : Host.Outcome State Fault Refusal := command (readBytes n.toNat) s

/-- RD_ALIGN (R105): the partial bits are discarded unexamined; IN is not touched. -/
def execRdAlign (s : State) : Host.Outcome State Fault Refusal :=
  command (fun s => .ok [countByte s.rdRem.val] (s.setReader 0x00#8 0)) s

end Sys2Proof.Machine
end

