-- ==== Sys2Proof/Machine/Tables.lean ====
section
/-! DEFINITION. The code table and the trie (42_tables): TrieInsert and the commands CT_CLEAR, CT_LOAD, TR_CLEAR,
TR_INSERT_STREAM, TR_INSERT_CODE. -/

namespace Sys2Proof.Machine

/-- The walk of `TrieInsert` (R143): `n` bits to go, the next of them bit `j` of the code, from node `i`.  It answers the
node it ends at. -/
def trieWalk (nextBit : Nat → State → Res Bool) : Nat → Nat → Nat → State → Res Nat
  | 0, _, i, s => .ok i s
  | n + 1, j, i, s =>
    (nextBit j s).andThen fun bit s1 =>
      if (s1.node i).leaf then .raise .corruptDictionary s1
      else
        match (s1.node i).child bit with
        | some c => trieWalk nextBit n (j + 1) c s1
        | none =>
          if s1.nodeCount = s1.par.nodeCap then .raise .nodeOverflow s1
          else trieWalk nextBit n (j + 1) s1.nodeCount (s1.allocChild i bit)

/-- The end of `TrieInsert` (R143): the node becomes the symbol's leaf, unless the code is a prefix of, or equal to, an
earlier one. -/
def trieMark (sym : Byte) (i : Nat) (s : State) : Res Unit :=
  if (s.node i).leaf || !(s.node i).childless then .raise .corruptDictionary s else .ok () (s.markLeaf i sym)

/-- `TrieInsert(s, len, NextBit)` (R143): a code of length 0 is skipped; the walk starts at the root. -/
def trieInsert (sym : Byte) (len : Nat) (nextBit : Nat → State → Res Bool) (s : State) : Res Unit :=
  if len = 0 then .ok () s else (trieWalk nextBit len 0 0 s).andThen fun i s1 => trieMark sym i s1

/-- NextBit of TR_INSERT_STREAM (R145). -/
def nextStreamBit (_ : Nat) (s : State) : Res Bool := readBit s

/-- NextBit of TR_INSERT_CODE (R147): `c(j)`; the walk asks for bits of the code only. -/
def nextCodeBit (code : List Bool) (j : Nat) (s : State) : Res Bool := .ok (code.getD j false) s

/-- CT_CLEAR (R140). -/
def execCtClear (s : State) : Host.Outcome State Fault Refusal := command (fun s => .ok [] s.clearCodes) s

/-- CT_LOAD s, code (R141). -/
def execCtLoad (sym : Byte) (code : List Bool) (s : State) : Host.Outcome State Fault Refusal :=
  command (fun s => .ok [] (s.setCode sym (codeOperandLen code) code)) s

/-- TR_CLEAR (R144). -/
def execTrClear (s : State) : Host.Outcome State Fault Refusal := command (fun s => .ok [] s.clearTrie) s

/-- TR_INSERT_STREAM s, len (R145). -/
def execTrInsertStream (sym : Byte) (len : Byte) (s : State) : Host.Outcome State Fault Refusal :=
  command (fun s => (trieInsert sym len.toNat nextStreamBit s).andThen fun _ s1 => .ok [] s1) s

/-- TR_INSERT_CODE s, code (R147). -/
def execTrInsertCode (sym : Byte) (code : List Bool) (s : State) : Host.Outcome State Fault Refusal :=
  command (fun s => (trieInsert sym code.length (nextCodeBit code) s).andThen fun _ s1 => .ok [] s1) s

end Sys2Proof.Machine
end

