-- ==== Sys2Proof/Machine/Writer.lean ====
section
/-! DEFINITION. The bit writer BW (41_bit_writer): its helpers and the commands WR_BIT, WR_BYTES, WR_ALIGN, WR_CLOSE. -/

namespace Sys2Proof.Machine

/-- The cache with bit `WR_CNT` set where the written bit is 1 (R120). -/
def cacheWithBit (s : State) (b : Bool) : Byte := if b then s.wrCache ||| (1#8 <<< s.wrCnt.val) else s.wrCache

/-- `WriteBit(b)` (R120).  When the count reaches 8 the cache is reset before the emit's answer is known. -/
def writeBit (b : Bool) (s : State) : Res Unit :=
  if s.wrCnt.val + 1 = 8 then sinkStep (outEmit (cacheWithBit s b) (s.setWriter 0x00#8 0))
  else .ok () (s.setWriter (cacheWithBit s b) (Fin.ofNat 8 (s.wrCnt.val + 1)))

/-- WriteBit of each bit in order. -/
def writeBits : List Bool → State → Res Unit
  | [], s => .ok () s
  | b :: bs, s => (writeBit b s).andThen fun _ s1 => writeBits bs s1

/-- `WriteByte(d)` (R121): directly when aligned, otherwise bit by bit, bit 0 first. -/
def writeByte (d : Byte) (s : State) : Res Unit :=
  if s.wrCnt = 0 then sinkStep (outEmit d s) else writeBits (bitsOfByte d) s

/-- WriteByte of each byte in order. -/
def writeBytes : List Byte → State → Res Unit
  | [], s => .ok () s
  | d :: ds, s => (writeByte d s).andThen fun _ s1 => writeBytes ds s1

/-- `AlignW()` (R122): the partial byte is emitted with zero high bits, the sink is flushed in either case, and the padding
count is returned. -/
def alignW (s : State) : Res Nat :=
  if s.wrCnt = 0 then (sinkStep (outFlush s)).andThen fun _ s1 => .ok 0 s1
  else
    (sinkStep (outEmit s.wrCache (s.setWriter 0x00#8 0))).andThen fun _ s1 =>
      (sinkStep (outFlush s1)).andThen fun _ s2 => .ok (8 - s.wrCnt.val) s2

/-- WR_BIT b (R125): an operand above 1 is illegal, and that is found before the writer is checked (R78, R254). -/
def execWrBit (b : Byte) (s : State) : Host.Outcome State Fault Refusal :=
  command
    (fun s =>
      if 1 < b.toNat then .raise .illegalCommand s
      else (checkWriter s).andThen fun _ s1 => (writeBit (b.getLsbD 0) s1).andThen fun _ s2 => .ok [] s2)
    s

/-- WR_BYTES [d0, …] (R126). -/
def execWrBytes (data : List Byte) (s : State) : Host.Outcome State Fault Refusal :=
  command (fun s => (checkWriter s).andThen fun _ s1 => (writeBytes data s1).andThen fun _ s2 => .ok [] s2) s

/-- WR_ALIGN (R127). -/
def execWrAlign (s : State) : Host.Outcome State Fault Refusal :=
  command (fun s => (checkWriter s).andThen fun _ s1 => (alignW s1).andThen fun pad s2 => .ok [countByte pad] s2) s

/-- WR_CLOSE (R128): as WR_ALIGN, and then the writer is closed; the sink is not (R66). -/
def execWrClose (s : State) : Host.Outcome State Fault Refusal :=
  command (fun s => (checkWriter s).andThen fun _ s1 => (alignW s1).andThen fun pad s2 => .ok [countByte pad] s2.close) s

end Sys2Proof.Machine
end

