-- ==== Sys2Proof/Machine/Codec.lean ====
section
/-! DEFINITION. The codec (43_codec): DecodeOne and the commands ENC_SYM, COMPRESS, DEC_SYM, DECOMPRESS. -/

namespace Sys2Proof.Machine

/-- The loop of `DecodeOne()` (R170) from node `i`.  The first argument bounds the number of bits; every iteration consumes
one, so a bound above the bits the reader can deliver is never reached (log entry 11). -/
def decodeWalk : Nat → Nat → State → Res Byte
  | 0, _, s => .raise (terminalFault s.par.inTerm) s
  | fuel + 1, i, s =>
    (readBit s).andThen fun bit s1 =>
      match (s1.node i).child bit with
      | none => .raise .corruptDictionary s1
      | some c =>
        if (s1.node c).childless then
          if (s1.node c).leaf then .ok (s1.node c).sym s1 else .raise .corruptDictionary s1
        else decodeWalk fuel c s1

/-- `DecodeOne()` (R170): a walk from the root to a leaf. -/
def decodeOne (s : State) : Res Byte := decodeWalk (s.bitsLeft + 1) 0 s

/-- `for i in 0..CT_LEN[s]-1: WriteBit(CT_BITS[s](i))`, after the check that the symbol has a code (R172, R173). -/
def encodeOne (sym : Byte) (s : State) : Res Unit :=
  if s.codeLen sym = 0#8 then .raise .symbolNotInTable s else writeBits (s.codeOf sym) s

/-- The loop of COMPRESS (R173, R174).  The first argument bounds the number of bytes; every iteration consumes one, so a
bound above the bytes IN still holds is never reached (log entry 11). -/
def compressLoop : Nat → State → Res Unit
  | 0, s => .ok () s
  | fuel + 1, s =>
    match tryReadByte s with
    | (.term .endOfSource, s1) => .ok () s1
    | (.term .error, s1) => .raise .ioError s1
    | (.byte sym, s1) =>
      (encodeOne sym s1).andThen fun _ s2 => compressLoop fuel (s2.setEncCount (s2.encCount + 1#64))

/-- The loop of DECOMPRESS (R176) with `n` bytes to go: DEC_COUNT goes up by 1 after each byte is written. -/
def decompressLoop : Nat → State → Res Unit
  | 0, s => .ok () s
  | n + 1, s =>
    (decodeOne s).andThen fun sym s1 =>
      (writeByte sym s1).andThen fun _ s2 => decompressLoop n (s2.setDecCount (s2.decCount + 1#64))

/-- ENC_SYM s (R172). -/
def execEncSym (sym : Byte) (s : State) : Host.Outcome State Fault Refusal :=
  command (fun s => (checkWriter s).andThen fun _ s1 => (encodeOne sym s1).andThen fun _ s2 => .ok [] s2) s

/-- COMPRESS (R173): the whole input, then align, flush and close. -/
def execCompress (s : State) : Host.Outcome State Fault Refusal :=
  command
    (fun s =>
      (checkWriter s).andThen fun _ s1 =>
        (compressLoop (s1.inLeft + 1) (s1.setEncCount 0#64)).andThen fun _ s2 =>
          (alignW s2).andThen fun pad s3 => .ok (u64Payload s3.encCount ++ [countByte pad]) s3.close)
    s

/-- DEC_SYM (R175). -/
def execDecSym (s : State) : Host.Outcome State Fault Refusal :=
  command (fun s => (decodeOne s).andThen fun sym s1 => .ok [sym] s1) s

/-- DECOMPRESS size (R176): DEC_COUNT starts at 0 and the loop stops when it reaches the size. -/
def execDecompress (size : U64) (s : State) : Host.Outcome State Fault Refusal :=
  command
    (fun s =>
      (checkWriter s).andThen fun _ s1 =>
        (decompressLoop size.toNat (s1.setDecCount 0#64)).andThen fun _ s2 => .ok (u64Payload s2.decCount) s2)
    s

end Sys2Proof.Machine
end

