-- ==== Sys2Proof/Machine/Control.lean ====
section
/-! DEFINITION. The control command GET_STATUS (44_control), the reserved opcodes (30_encoding R77) and the fetch of a
command from the channel (R70). -/

namespace Sys2Proof.Machine

/-- GET_STATUS (R200): it skips the entry check, always runs, and has no side effect. -/
def execGetStatus (s : State) : Host.Outcome State Fault Refusal := finish (.ok (statusPayload s) s)

/-- A reserved opcode: a 1-byte command that raises ILLEGAL_COMMAND and has no other effect (R77). -/
def execReserved (s : State) : Host.Outcome State Fault Refusal := command (fun s => .raise .illegalCommand s) s

/-- What stands at the front of the command channel. -/
def fetch (s : State) : Decoded := decode s.cmd

/-- The channel with the command of a table word at its front (the host's send of that command). -/
def fetchWordChannel (s : State) (nbits w : Nat) : State := s.setCmd (tableCommand nbits w ++ s.cmd)

end Sys2Proof.Machine
end

