-- ==== Sys2Proof/Machine/Dispatch.lean ====
section
/-! DEFINITION. One arm per command: its meaning. -/

namespace Sys2Proof.Machine

def exec (i : Instr) (s : State) : Host.Outcome State Fault Refusal :=
  match i with
  | .getStatus => Sys2Proof.Machine.execGetStatus s
  | .rdBit => Sys2Proof.Machine.execRdBit s
  | .rdBytes n => Sys2Proof.Machine.execRdBytes n s
  | .rdAlign => Sys2Proof.Machine.execRdAlign s
  | .wrBit b => Sys2Proof.Machine.execWrBit b s
  | .wrBytes data => Sys2Proof.Machine.execWrBytes data s
  | .wrAlign => Sys2Proof.Machine.execWrAlign s
  | .wrClose => Sys2Proof.Machine.execWrClose s
  | .ctClear => Sys2Proof.Machine.execCtClear s
  | .ctLoad sym code => Sys2Proof.Machine.execCtLoad sym code s
  | .trClear => Sys2Proof.Machine.execTrClear s
  | .trInsertStream sym len => Sys2Proof.Machine.execTrInsertStream sym len s
  | .trInsertCode sym code => Sys2Proof.Machine.execTrInsertCode sym code s
  | .encSym sym => Sys2Proof.Machine.execEncSym sym s
  | .compress => Sys2Proof.Machine.execCompress s
  | .decSym => Sys2Proof.Machine.execDecSym s
  | .decompress size => Sys2Proof.Machine.execDecompress size s

end Sys2Proof.Machine
end

