-- ==== Sys2Proof/Machine/Step.lean ====
section
/-! DEFINITION. One step of the block: the command at the front of the channel is read and executed (20_memory R62,
30_encoding R70). -/

namespace Sys2Proof.Machine

/-- One step: the command's bytes are consumed and it runs to completion; a reserved opcode is a 1-byte command (R77); with
fewer bytes than the command needs the block waits (R82). -/
def step (s : State) : Host.Outcome State Fault Refusal :=
  match fetch s with
  | .command i rest => exec i (s.setCmd rest)
  | .reserved _ rest => execReserved (s.setCmd rest)
  | .incomplete => .fault .commandIncomplete

/-- `s` with the command of a table word at the front of its command channel, as if the host had sent it first; nothing
else changes. -/
def State.withFetchWord (s : State) (nbits w : Nat) : State := fetchWordChannel s nbits w

end Sys2Proof.Machine
end

