-- ==== Sys2Proof/Machine/Run.lean ====
section
/-! DEFINITION. Runs of a host program (60_exceptions R267, R268): which states an epoch passes through, when a run of a
program ends, when it succeeds, and what its outcome is. -/

namespace Sys2Proof.Machine

/-- A command as a host sends it: one of the opcode table, or a reserved opcode (R77, R267). -/
inductive HostCommand where
  | known (i : Instr)
  | reserved (op : Byte)
  deriving DecidableEq, Repr

/-- The bytes the host sends for a command (R70, R77). -/
def hostBytes : HostCommand → List Byte
  | .known i => encode i
  | .reserved op => [op]

/-- The command has an encoding, and a reserved opcode is one (R76, R77). -/
def sendable : HostCommand → Bool
  | .known i => i.wf
  | .reserved op => (formatOf op).isNone

/-- The bytes of a host program, a finite command sequence, with nothing between the commands (R70, R268). -/
def programBytes (program : List HostCommand) : List Byte := program.flatMap hostBytes

/-- The states an epoch that starts with reset passes through, with the bytes the host has sent so far: the host sends
bytes at any time, and the block steps when it can (R62, R82, R267, R282). -/
inductive Epoch (p : Params) : List Byte → State → Prop where
  | start : Epoch p [] (State.resetWith p)
  | send {sent : List Byte} {s : State} (bytes : List Byte) (h : Epoch p sent s) : Epoch p (sent ++ bytes) (hostSend bytes s)
  | step {sent : List Byte} {s t : State} (h : Epoch p sent s) (ht : step s = .next t) : Epoch p sent t

/-- Every response status so far is 0x00. -/
def State.responsesOk (s : State) : Prop := ∀ r ∈ s.resp, r.head? = some 0x00#8

/-- `t` is a state of a run of the program: the host has sent the program's bytes, or the first of them, and no others. -/
def RunReaches (p : Params) (program : List HostCommand) (t : State) : Prop :=
  ∃ sent, Epoch p sent t ∧ sent <+: programBytes program

/-- The run ends in `t`: the block has produced the response to the program's last command (R268). -/
def RunEnds (p : Params) (program : List HostCommand) (t : State) : Prop :=
  RunReaches p program t ∧ t.resp.length = program.length

/-- The run succeeds: it ends with every response status 0x00 (R268).  A run that waits for bytes has a response missing,
and a run that stops at a fault has a response with another status, so neither succeeds. -/
def RunSucceeds (p : Params) (program : List HostCommand) (t : State) : Prop := RunEnds p program t ∧ t.responsesOk

/-- The registers of 10_state (R21, R22). -/
structure Registers where
  rdCache : Byte
  rdRem : Fin 9
  wrCache : Byte
  wrCnt : Fin 8
  wrClosed : Bool
  ctLen : Vector Byte 256
  ctBits : Vector (List Bool) 256
  nodes : List Node
  decCount : U64
  encCount : U64
  fault : Byte
  cmdSeq : Nat
  deriving DecidableEq, Repr

/-- The outcome of a run (R268). -/
structure RunOutcome where
  responses : List (List Byte)
  outBytes : List Byte
  outEvents : List SinkEvent
  inPos : Nat
  registers : Registers
  deriving DecidableEq, Repr

/-- The outcome of a run that ends in a state (R268). -/
def outcomeOf (t : State) : RunOutcome :=
  { responses := t.resp
    outBytes := t.outBytes
    outEvents := t.outEvents
    inPos := t.inPos
    registers :=
      { rdCache := t.rdCache
        rdRem := t.rdRem
        wrCache := t.wrCache
        wrCnt := t.wrCnt
        wrClosed := t.wrClosed
        ctLen := t.ctLen
        ctBits := t.ctBits
        nodes := t.nodes
        decCount := t.decCount
        encCount := t.encCount
        fault := t.fault
        cmdSeq := t.cmdSeq } }

/-- `n` steps in a row, if the block has them. -/
def steps : Nat → State → Option State
  | 0, s => some s
  | n + 1, s =>
    match step s with
    | .next t => steps n t
    | .fault _ => none
    | .refused _ => none

/-- The run of a program whose bytes the host sends all at once: one step a command. -/
def runProgram (p : Params) (program : List HostCommand) : Option State :=
  steps program.length (hostSend (programBytes program) (State.resetWith p))

end Sys2Proof.Machine
end

