-- ==== Sys2Proof/Safety.lean ====
section
/-! DEFINITION. The terms claims are stated in: the bit streams of the two ports, the leaves of the trie, the invariants of
the block, and which faults a command can raise (R251).  Runs and their success (R268) are in Machine/Run.lean. -/

namespace Sys2Proof.Machine

/-! ### Bit streams -/

/-- The bit stream of a byte list: bit `j` is bit `j mod 8` of byte `j div 8` (R54). -/
def bitsOf (bs : List Byte) : List Bool := bs.flatMap bitsOfByte

/-- The bits the reader has not yet delivered: the cached ones, then those of the source (R54, R56). -/
def State.unreadBits (s : State) : List Bool :=
  (bitsOfByte s.rdCache).take s.rdRem.val ++ bitsOf (s.par.inBytes.drop s.inPos)

/-- The bits written so far: those in OUT.bytes, then the cached ones (R54, R56). -/
def State.writtenBits (s : State) : List Bool := bitsOf s.outBytes ++ (bitsOfByte s.wrCache).take s.wrCnt.val

/-- The bytes that reading whole bytes to the end of the source delivers, reassembled across the boundary when bits are
cached (R101). -/
def State.unreadBytes (s : State) : List Byte :=
  (List.range s.inLeft).map fun j => byteOfBits ((s.unreadBits.drop (8 * j)).take 8)

/-- The sink answers Ok to the next `n` events (R53). -/
def State.SinkOkFor (s : State) (n : Nat) : Prop := ∀ k < n, s.sinkOk (s.outEvents.length + k) = .ok

/-- `n` ReadBit calls in a row (R102). -/
def readBits : Nat → State → Res (List Bool)
  | 0, s => .ok [] s
  | n + 1, s => (readBit s).andThen fun b s1 => (readBits n s1).andThen fun bs s2 => .ok (b :: bs) s2

/-! ### Commands, reserved bytes and payload integers -/

/-- The reserved opcode bytes, the ranges as R77 lists them. -/
def reservedByte (b : Byte) : Bool :=
  b.toNat = 0x00 || (0x02 ≤ b.toNat && b.toNat ≤ 0x0F) || (0x13 ≤ b.toNat && b.toNat ≤ 0x1F) ||
    (0x24 ≤ b.toNat && b.toNat ≤ 0x2F) || (0x32 ≤ b.toNat && b.toNat ≤ 0x3F) ||
    (0x43 ≤ b.toNat && b.toNat ≤ 0x4F) || (0x52 ≤ b.toNat && b.toNat ≤ 0x5F) || 0x62 ≤ b.toNat

/-- The command channel holds all the bytes of its next command (R75, R82). -/
def State.commandReady (s : State) : Prop := ∃ n, commandLength s.cmd = some n ∧ n ≤ s.cmd.length

/-- `u64be(v)`, most significant byte first (R14, R81). -/
def u64be (v : U64) : List Byte := (List.range 8).map fun i => v.extractLsb' (8 * (7 - i)) 8

/-- The whole code operand as CT_BITS holds it (R30). -/
def State.storedBits (s : State) (sym : Byte) : List Bool := s.ctBits[sym.toNat]'(sym.isLt)

/-! ### What a unit may touch -/

/-- Only the bit reader and IN.pos differ. -/
def ReaderFrame (s t : State) : Prop := t = { s with rdCache := t.rdCache, rdRem := t.rdRem, inPos := t.inPos }

/-- Only the bit writer's cache and OUT differ. -/
def WriterFrame (s t : State) : Prop :=
  t = { s with wrCache := t.wrCache, wrCnt := t.wrCnt, outBytes := t.outBytes, outEvents := t.outEvents }

/-- Only the trie store, the bit reader and IN.pos differ. -/
def InsertFrame (s t : State) : Prop :=
  t = { s with nodes := t.nodes, rdCache := t.rdCache, rdRem := t.rdRem, inPos := t.inPos }

/-- Only the bit reader, IN.pos, the bit writer's cache, OUT and the two byte counters differ. -/
def CodecFrame (s t : State) : Prop :=
  t = { s with rdCache := t.rdCache, rdRem := t.rdRem, inPos := t.inPos, wrCache := t.wrCache, wrCnt := t.wrCnt,
               outBytes := t.outBytes, outEvents := t.outEvents, encCount := t.encCount, decCount := t.decCount }

/-! ### The trie as a set of codes -/

/-- The node reached from node `i` by following bits (R170). -/
def State.follow (s : State) : Nat → List Bool → Option Nat
  | i, [] => some i
  | i, b :: bs =>
    match (s.node i).child b with
    | some c => s.follow c bs
    | none => none

/-- The symbol of the leaf a code names, if it names one (R146). -/
def State.leafAt (s : State) (code : List Bool) : Option Byte :=
  match s.follow 0 code with
  | some i => if (s.node i).leaf then some (s.node i).sym else none
  | none => none

/-- The code runs through no leaf and names no node yet, so that TrieInsert accepts it (R143). -/
def State.codeFree (s : State) (code : List Bool) : Prop :=
  (∀ n < code.length, s.leafAt (code.take n) = none) ∧ s.follow 0 code = none

/-- How many prefixes of a code name no node yet: the nodes TrieInsert allocates for it (R146). -/
def State.newNodes (s : State) (code : List Bool) : Nat :=
  (List.range (code.length + 1)).countP fun n => (s.follow 0 (code.take n)).isNone

/-! ### Invariants -/

/-- R24, R25: between commands RD_REM is 0 to 7 and `RD_CACHE < 2^RD_REM`. -/
def State.ReaderInv (s : State) : Prop := s.rdRem.val ≤ 7 ∧ s.rdCache.toNat < 2 ^ s.rdRem.val

/-- R28: between commands `WR_CACHE < 2^WR_CNT`. -/
def State.WriterInv (s : State) : Prop := s.wrCache.toNat < 2 ^ s.wrCnt.val

/-- R30: the sequence of a present symbol has the length CT_LEN[s]. -/
def State.CodeInv (s : State) : Prop :=
  ∀ i, (h : i < 256) → s.ctLen[i] ≠ 0#8 → s.ctBits[i].length = s.ctLen[i].toNat

/-- The children of a node, zero_child first. -/
def Node.children (n : Node) : List Nat := n.z.toList ++ n.o.toList

/-- R33 on a node list: items 1 to 5. -/
def TrieShape (nodes : List Node) : Prop :=
  (∀ i, (h : i < nodes.length) → ∀ c ∈ nodes[i].children, i < c ∧ c < nodes.length) ∧
  (∀ c, c < nodes.length → 0 < c → (nodes.flatMap Node.children).count c = 1) ∧
  (∀ i, (h : i < nodes.length) → nodes[i].leaf = true → nodes[i].childless = true) ∧
  (∀ i, (h : i < nodes.length) → 0 < i → nodes[i].childless = true → nodes[i].leaf = true) ∧
  (∃ h : 0 < nodes.length, nodes[0].leaf = false)

/-- R33: the trie invariants hold between commands while FAULT = 0. -/
def State.TrieInv (s : State) : Prop := s.fault = 0x00#8 → TrieShape s.nodes

/-- R10, R22, R32: NODE_CAP is at least 1 and fits the u16 NODE_COUNT, and NODE_COUNT is 1 to NODE_CAP. -/
def State.CountInv (s : State) : Prop := s.par.nodeCap < 2 ^ 16 ∧ 1 ≤ s.nodeCount ∧ s.nodeCount ≤ s.par.nodeCap

/-- The bytes of the emit events, in order. -/
def emittedBytes (events : List SinkEvent) : List Byte :=
  events.filterMap fun e =>
    match e with
    | .emit b => some b
    | .flush => none

/-- R52, R62: IN.pos stays within the source; OUT.bytes is the emitted bytes in emission order, minus a byte whose emit
failed, and nothing failed while FAULT = 0. -/
def State.PortInv (s : State) : Prop :=
  s.inPos ≤ s.par.inBytes.length ∧
  (s.fault = 0x00#8 →
    s.outBytes = emittedBytes s.outEvents ∧ ∀ k < s.outEvents.length, s.sinkOk k = .ok) ∧
  (s.outBytes = emittedBytes s.outEvents ∨ s.outBytes = emittedBytes s.outEvents.dropLast)

/-- R21, R80, R250, R268: one response per completed command, none empty; FAULT is 0 or one of the seven codes; and FAULT
is 0 exactly while every response status is 0x00. -/
def State.ResponseInv (s : State) : Prop :=
  s.resp.length = s.cmdSeq ∧ (∀ r ∈ s.resp, r ≠ []) ∧ s.fault.toNat ≤ 7 ∧ (s.responsesOk ↔ s.fault = 0x00#8)

/-- Every invariant of the block between commands. -/
def State.Inv (s : State) : Prop :=
  s.ReaderInv ∧ s.WriterInv ∧ s.CodeInv ∧ s.TrieInv ∧ s.CountInv ∧ s.PortInv ∧ s.ResponseInv

/-! ### Which commands write, and which faults a command can raise -/

/-- The commands that write through BW and so check the writer (R124). -/
def usesWriter : Instr → Bool
  | .wrBit _ => true
  | .wrBytes _ => true
  | .wrAlign => true
  | .wrClose => true
  | .encSym _ => true
  | .compress => true
  | .decompress _ => true
  | .getStatus => false
  | .rdBit => false
  | .rdBytes _ => false
  | .rdAlign => false
  | .ctClear => false
  | .ctLoad _ _ => false
  | .trClear => false
  | .trInsertStream _ _ => false
  | .trInsertCode _ _ => false
  | .decSym => false

/-- The fault kinds a command can raise, the matrix of R251. -/
def canRaise : Instr → List FaultKind
  | .getStatus => []
  | .rdBit => [.ioError, .endOfInput]
  | .rdBytes _ => [.ioError, .endOfInput]
  | .rdAlign => []
  | .wrBit _ => [.ioError, .writerUnusable, .illegalCommand]
  | .wrBytes _ => [.ioError, .writerUnusable]
  | .wrAlign => [.ioError, .writerUnusable]
  | .wrClose => [.ioError, .writerUnusable]
  | .ctClear => []
  | .ctLoad _ _ => []
  | .trClear => []
  | .trInsertStream _ _ => [.ioError, .endOfInput, .corruptDictionary, .nodeOverflow]
  | .trInsertCode _ _ => [.corruptDictionary, .nodeOverflow]
  | .encSym _ => [.ioError, .symbolNotInTable, .writerUnusable]
  | .compress => [.ioError, .symbolNotInTable, .writerUnusable]
  | .decSym => [.ioError, .endOfInput, .corruptDictionary]
  | .decompress _ => [.ioError, .endOfInput, .corruptDictionary, .writerUnusable]

end Sys2Proof.Machine
end

