-- ==== Sys2Proof/Certificates/Slice0/Obligations.lean ====
section
/-! DEFINITION. The statements about the block, one definition each, with the rules of spec/ they formalise.  A statement
holds for every value of the run's parameters, since they are fields of State that no step writes (R13), and for every
value of the model's free values. -/

open Sys2Proof Sys2Proof.Machine

/-! ### Encoding and fetch -/

/-- R70, R72 to R74, R76: decoding the bytes of a well-formed command gives it back, whatever follows them. -/
def Obligations.EncodeThenDecodeIsIdentity : Prop :=
  ∀ (i : Instr) (rest : List Byte), i.wf = true → decode (encode i ++ rest) = .command i rest

/-- R70, R75: a decoded command is well-formed, took exactly the bytes of its length, and does not depend on the bytes after
them; so no command consumes a byte of the next one. -/
def Obligations.DecoderTakesExactlyTheCommandsBytes : Prop :=
  ∀ (bs rest : List Byte) (i : Instr), decode bs = .command i rest →
    i.wf = true ∧ ∃ front, bs = front ++ rest ∧ commandLength bs = some front.length ∧
      ∀ rest', decode (front ++ rest') = .command i rest'

/-- R75, with the formats of R76 and the lengths of R72: the length of a command as a decoder finds it. -/
def Obligations.CommandLengthOfEachFormat : Prop :=
  (∀ (op : Byte) (rest : List Byte),
    (op ∈ [0x01#8, 0x10#8, 0x12#8, 0x22#8, 0x23#8, 0x30#8, 0x40#8, 0x51#8, 0x60#8] →
      commandLength (op :: rest) = some 1) ∧
    (op ∈ [0x20#8, 0x50#8] → commandLength (op :: rest) = some 2) ∧
    (op = 0x41#8 → commandLength (op :: rest) = some 3) ∧
    (op = 0x11#8 → commandLength (op :: rest) = some 5) ∧
    (op = 0x61#8 → commandLength (op :: rest) = some 9) ∧
    (reservedByte op = true → commandLength (op :: rest) = some 1)) ∧
  (∀ (op sym len : Byte) (rest : List Byte), op ∈ [0x31#8, 0x42#8] →
    commandLength (op :: sym :: len :: rest) = some (3 + (len.toNat + 7) / 8)) ∧
  (∀ (b1 b2 b3 b4 : Byte) (rest : List Byte),
    commandLength (0x21#8 :: b1 :: b2 :: b3 :: b4 :: rest) =
      some (5 + (b1.toNat * 2 ^ 24 + b2.toNat * 2 ^ 16 + b3.toNat * 2 ^ 8 + b4.toNat))) ∧
  (∀ bs : List Byte, 5 ≤ bs.length → commandLength bs ≠ none ∧ commandLength bs = commandLength (bs.take 5))

/-- R77: every byte value not in R76 is reserved, in the ranges the rule lists; a reserved opcode is a 1-byte command that
raises ILLEGAL_COMMAND with no other effect, and the byte after it is the next opcode. -/
def Obligations.ReservedOpcodesRaiseIllegalCommand : Prop :=
  (∀ op : Byte, reservedByte op = true ↔
    op ∉ [0x01#8, 0x10#8, 0x11#8, 0x12#8, 0x20#8, 0x21#8, 0x22#8, 0x23#8, 0x30#8, 0x31#8, 0x40#8, 0x41#8, 0x42#8, 0x50#8,
      0x51#8, 0x60#8, 0x61#8]) ∧
  (∀ (op : Byte) (rest : List Byte), reservedByte op = true → decode (op :: rest) = .reserved op rest) ∧
  (∀ (bs rest : List Byte) (op : Byte), decode bs = .reserved op rest → reservedByte op = true ∧ bs = op :: rest) ∧
  ∀ (s : State) (op : Byte) (rest : List Byte), s.cmd = op :: rest → reservedByte op = true → s.fault = 0x00#8 →
    step s = .next { s with cmd := rest, fault := 0x07#8, resp := s.resp ++ [[0x07#8]], cmdSeq := s.cmdSeq + 1 }

/-- R74: code bit c(i) is bit `i mod 8` of code byte `i div 8`, for both commands with a code operand; the padding bits of
the last code byte are not looked at. -/
def Obligations.CodeOperandBits : Prop :=
  (∀ (sym len : Byte) (bytes rest : List Byte), bytes.length = (len.toNat + 7) / 8 →
    ∃ code : List Bool, code.length = len.toNat ∧
      (∀ i < len.toNat, code.getD i false = (bytes.getD (i / 8) 0x00#8).getLsbD (i % 8)) ∧
      decode (0x31#8 :: sym :: len :: bytes ++ rest) = .command (.ctLoad sym code) rest ∧
      decode (0x42#8 :: sym :: len :: bytes ++ rest) = .command (.trInsertCode sym code) rest) ∧
  ∀ (op sym len : Byte) (bytes bytes' : List Byte), op ∈ [0x31#8, 0x42#8] → bytes.length = (len.toNat + 7) / 8 →
    bytes'.length = (len.toNat + 7) / 8 →
    (∀ i < len.toNat, (bytes.getD (i / 8) 0x00#8).getLsbD (i % 8) = (bytes'.getD (i / 8) 0x00#8).getLsbD (i % 8)) →
    decode (op :: sym :: len :: bytes) = decode (op :: sym :: len :: bytes')

/-- R73: how operands are assembled. -/
def Obligations.OperandsAreBigEndian : Prop :=
  (∀ (b : Byte) (rest : List Byte),
    decode (0x20#8 :: b :: rest) = .command (.wrBit b) rest ∧ decode (0x50#8 :: b :: rest) = .command (.encSym b) rest) ∧
  (∀ (sym len : Byte) (rest : List Byte),
    decode (0x41#8 :: sym :: len :: rest) = .command (.trInsertStream sym len) rest) ∧
  (∀ (sym len : Byte) (bytes : List Byte), bytes.length = (len.toNat + 7) / 8 →
    ∃ code : List Bool, code.length = len.toNat ∧
      decode (0x31#8 :: sym :: len :: bytes) = .command (.ctLoad sym code) [] ∧
      decode (0x42#8 :: sym :: len :: bytes) = .command (.trInsertCode sym code) []) ∧
  (∀ (b1 b2 b3 b4 : Byte) (rest : List Byte), ∃ n : U32,
    n.toNat = b1.toNat * 2 ^ 24 + b2.toNat * 2 ^ 16 + b3.toNat * 2 ^ 8 + b4.toNat ∧
      decode (0x11#8 :: b1 :: b2 :: b3 :: b4 :: rest) = .command (.rdBytes n) rest) ∧
  (∀ (b1 b2 b3 b4 : Byte) (data rest : List Byte),
    data.length = b1.toNat * 2 ^ 24 + b2.toNat * 2 ^ 16 + b3.toNat * 2 ^ 8 + b4.toNat →
      decode (0x21#8 :: b1 :: b2 :: b3 :: b4 :: data ++ rest) = .command (.wrBytes data) rest) ∧
  (∀ (b1 b2 b3 b4 b5 b6 b7 b8 : Byte) (rest : List Byte), ∃ size : U64,
    size.toNat = b1.toNat * 2 ^ 56 + b2.toNat * 2 ^ 48 + b3.toNat * 2 ^ 40 + b4.toNat * 2 ^ 32 + b5.toNat * 2 ^ 24 +
        b6.toNat * 2 ^ 16 + b7.toNat * 2 ^ 8 + b8.toNat ∧
      decode (0x61#8 :: b1 :: b2 :: b3 :: b4 :: b5 :: b6 :: b7 :: b8 :: rest) = .command (.decompress size) rest)

/-- R76, with the bytes written out in R83, R141 and R147: words of each family decode to the command they stand for. -/
def Obligations.SpecEncodingsDecode : Prop :=
  decode [0x31, 0x62, 0x03, 0x03] = .command (.ctLoad 0x62 [true, true, false]) [] ∧
  decode [0x42, 0x62, 0x01, 0x00, 0x42, 0x61, 0x01, 0x01] =
    .command (.trInsertCode 0x62 [false]) [0x42, 0x61, 0x01, 0x01] ∧
  decode [0x42, 0x61, 0x01, 0x01] = .command (.trInsertCode 0x61 [true]) [] ∧
  decode [0x11, 0x00, 0x00, 0x01, 0x02] = .command (.rdBytes 258) [] ∧
  decode [0x21, 0x00, 0x00, 0x00, 0x01, 0xDA] = .command (.wrBytes [0xDA]) [] ∧
  decode [0x61, 0x00, 0x00, 0x00, 0x00, 0x00, 0x00, 0x00, 0x0B] = .command (.decompress 11) [] ∧
  decode [0x50, 0x61] = .command (.encSym 0x61) [] ∧
  decode [0x01] = .command .getStatus []

/-- R70, R62: when the bytes at the front of the channel are a command, the step is that command's execution with the channel
past exactly its bytes; a reserved opcode is a 1-byte command; nothing else happens around the execution. -/
def Obligations.StepRunsTheDecodedCommand : Prop :=
  (∀ (s : State) (i : Instr) (rest : List Byte), decode s.cmd = .command i rest →
    step s = exec i { s with cmd := rest }) ∧
  (∀ (s : State) (i : Instr) (rest : List Byte), i.wf = true → s.cmd = encode i ++ rest →
    step s = exec i { s with cmd := rest }) ∧
  ∀ (s : State) (op : Byte) (rest : List Byte), decode s.cmd = .reserved op rest →
    step s = execReserved { s with cmd := rest }

/-- R82: with fewer bytes than the command's length there is no step; with enough the step always answers a next state; and
the hold is lifted by the host sending the missing bytes. -/
def Obligations.IncompleteCommandsWait : Prop :=
  (∀ s : State, ¬ s.commandReady → step s = .fault .commandIncomplete) ∧
  (∀ s : State, s.commandReady → ∃ t, step s = .next t) ∧
  ∀ (s : State) (bytes : List Byte) (i : Instr) (rest : List Byte), i.wf = true → s.cmd ++ bytes = encode i ++ rest →
    step (hostSend bytes s) = exec i { s with cmd := rest }

/-! ### Responses and faults -/

/-- R80 (and R21's count): every command, a reserved opcode and one answered during a sticky fault included, produces exactly
one response: a status of R250 and, only with status 0x00, a payload.  The premise on FAULT is part of `State.Inv`.
R268: so the run of a program whose bytes the host sends comes to its end, the response to its last command, after one step a
command. -/
def Obligations.OneResponsePerCommand : Prop :=
  (∀ s : State, s.fault.toNat ≤ 7 → s.commandReady →
    ∃ (t : State) (status : Byte) (payload : List Byte), step s = .next t ∧ t.resp = s.resp ++ [status :: payload] ∧
      t.cmdSeq = s.cmdSeq + 1 ∧ status.toNat ≤ 7 ∧ (status ≠ 0x00#8 → payload = [])) ∧
  ∀ (p : Params) (program : List HostCommand), (∀ c ∈ program, sendable c = true) →
    ∃ t, runProgram p program = some t ∧ RunEnds p program t ∧ t.cmd = [] ∧ t.cmdSeq = program.length

/-- R253: while FAULT is not 0 every command except GET_STATUS, a reserved opcode included, is answered by FAULT alone, with
its bytes consumed, CMDSEQ counted and no other effect. -/
def Obligations.StickyFaultAnswersEveryCommand : Prop :=
  (∀ (i : Instr) (s : State), i ≠ .getStatus → s.fault ≠ 0x00#8 →
    exec i s = .next { s with resp := s.resp ++ [[s.fault]], cmdSeq := s.cmdSeq + 1 }) ∧
  (∀ (i : Instr) (s : State) (rest : List Byte), i ≠ .getStatus → i.wf = true → s.fault ≠ 0x00#8 →
    s.cmd = encode i ++ rest →
    step s = .next { s with cmd := rest, resp := s.resp ++ [[s.fault]], cmdSeq := s.cmdSeq + 1 }) ∧
  ∀ (op : Byte) (s : State) (rest : List Byte), reservedByte op = true → s.fault ≠ 0x00#8 → s.cmd = op :: rest →
    step s = .next { s with cmd := rest, resp := s.resp ++ [[s.fault]], cmdSeq := s.cmdSeq + 1 }

/-- R36: FAULT is 0 when an epoch starts; while it is 0, a command either succeeds and leaves it 0 or raises, answers the
code alone and stores it; from then on no command overwrites it.  R268: so a run that ends succeeds exactly when FAULT is 0
at its end. -/
def Obligations.FirstFaultIsKept : Prop :=
  (∀ p : Params, (State.resetWith p).fault = 0x00#8) ∧
  (∀ (p : Params) (s t : State), hostReset p s = some t → t.fault = 0x00#8) ∧
  (∀ s t : State, step s = .next t →
    (s.fault ≠ 0x00#8 → t.fault = s.fault) ∧
    (s.fault = 0x00#8 →
      (t.fault = 0x00#8 ∧ ∃ payload, t.resp = s.resp ++ [0x00#8 :: payload]) ∨
      (t.fault ≠ 0x00#8 ∧ t.resp = s.resp ++ [[t.fault]]))) ∧
  ∀ (p : Params) (program : List HostCommand) (t : State), RunEnds p program t →
    (RunSucceeds p program t ↔ t.fault = 0x00#8)

/-- R251: the fault matrix.  A command raises only the faults its row marks, and for every marked fault some command of the
row, in some state, raises it; a reserved opcode raises ILLEGAL_COMMAND and nothing else. -/
def Obligations.FaultMatrix : Prop :=
  (∀ (i : Instr) (s t : State), s.fault = 0x00#8 → exec i s = .next t →
    t.fault = 0x00#8 ∨ ∃ f ∈ canRaise i, t.fault = f.code) ∧
  (∀ (i : Instr) (f : FaultKind), f ∈ canRaise i →
    ∃ (j : Instr) (s t : State), (encode j).head? = (encode i).head? ∧ s.fault = 0x00#8 ∧ exec j s = .next t ∧
      t.fault = f.code) ∧
  ∀ s : State, s.fault = 0x00#8 → ∃ t, execReserved s = .next t ∧ t.fault = FaultKind.illegalCommand.code

/-- R78: WR_BIT with an operand above 1 raises ILLEGAL_COMMAND with its operand byte consumed; no other command with any
operand raises it; padding bits of code bytes are ignored. -/
def Obligations.OnlyIllegalOperandIsWrBit : Prop :=
  (∀ (b : Byte) (s : State), 1 < b.toNat → s.fault = 0x00#8 →
    exec (.wrBit b) s =
      .next { s with fault := 0x07#8, resp := s.resp ++ [[0x07#8]], cmdSeq := s.cmdSeq + 1 }) ∧
  (∀ (b : Byte) (s : State) (rest : List Byte), 1 < b.toNat → s.fault = 0x00#8 → s.cmd = 0x20#8 :: b :: rest →
    step s = .next { s with cmd := rest, fault := 0x07#8, resp := s.resp ++ [[0x07#8]], cmdSeq := s.cmdSeq + 1 }) ∧
  (∀ (i : Instr) (s t : State), s.fault = 0x00#8 → exec i s = .next t → t.fault = 0x07#8 →
    ∃ b : Byte, i = .wrBit b ∧ 1 < b.toNat) ∧
  ∀ (op sym len : Byte) (bytes bytes' : List Byte), op ∈ [0x31#8, 0x42#8] → bytes.length = (len.toNat + 7) / 8 →
    bytes'.length = (len.toNat + 7) / 8 →
    (∀ i < len.toNat, (bytes.getD (i / 8) 0x00#8).getLsbD (i % 8) = (bytes'.getD (i / 8) 0x00#8).getLsbD (i % 8)) →
    decode (op :: sym :: len :: bytes) = decode (op :: sym :: len :: bytes')

/-- R254, its first four items: the sticky fault before an illegal operand, that before a closed writer, that before a
missing symbol, and that before any emit. -/
def Obligations.FaultPriority : Prop :=
  ∀ s : State,
    (∀ i : Instr, i ≠ .getStatus → s.fault ≠ 0x00#8 → exec i s = .next (s.answer [s.fault])) ∧
    (∀ b : Byte, 1 < b.toNat → s.fault = 0x00#8 → exec (.wrBit b) s = .next ((s.setFault 0x07#8).answer [0x07#8])) ∧
    (∀ i : Instr, usesWriter i = true → (∀ b : Byte, i = .wrBit b → b.toNat ≤ 1) → s.fault = 0x00#8 →
      s.wrClosed = true → exec i s = .next ((s.setFault 0x05#8).answer [0x05#8])) ∧
    ∀ sym : Byte, s.fault = 0x00#8 → s.wrClosed = false → s.codeLen sym = 0x00#8 →
      exec (.encSym sym) s = .next ((s.setFault 0x04#8).answer [0x04#8])

/-- R124 and R29: a writer-using command on a closed writer raises WRITER_UNUSABLE with no other effect; a command leaves
a closed writer closed, only WR_CLOSE and COMPRESS close it and only when they succeed, reset reopens it; after a sink
failure the sticky fault stops every later writer-using command. -/
def Obligations.ClosedWriterIsUnusable : Prop :=
  (∀ (i : Instr) (s : State),
    ((∃ b : Byte, i = .wrBit b ∧ b.toNat ≤ 1) ∨ (∃ data, i = .wrBytes data) ∨ i = .wrAlign ∨ i = .wrClose ∨
      (∃ sym, i = .encSym sym) ∨ i = .compress ∨ ∃ size, i = .decompress size) →
    (s.fault = 0x00#8 → s.wrClosed = true → exec i s = .next ((s.setFault 0x05#8).answer [0x05#8])) ∧
    (s.fault ≠ 0x00#8 → exec i s = .next (s.answer [s.fault]))) ∧
  (∀ (i : Instr) (s t : State), exec i s = .next t →
    (s.wrClosed = true → t.wrClosed = true) ∧
    (s.wrClosed = false → (t.wrClosed = true ↔ (i = .wrClose ∨ i = .compress) ∧ s.fault = 0x00#8 ∧ t.fault = 0x00#8))) ∧
  ∀ (p : Params) (s t : State), hostReset p s = some t → t.wrClosed = false

/-- R129: an emit or a flush that the sink answers Fail raises IO_ERROR in the same command and is the last sink event; no
later command but GET_STATUS has an effect. -/
def Obligations.SinkFailureIsFatal : Prop :=
  ∀ (i : Instr) (s t : State) (k : Nat), s.Inv → s.fault = 0x00#8 → exec i s = .next t → s.outEvents.length ≤ k →
    k < t.outEvents.length → s.sinkOk k = .fail →
    t.fault = 0x01#8 ∧ t.resp = s.resp ++ [[0x01#8]] ∧ k + 1 = t.outEvents.length ∧
      ∀ j : Instr, j ≠ .getStatus → exec j t = .next (t.answer [0x01#8])

/-- R52 and R53: what the two ports do.  On a Fail both outcomes for the byte are left open (the model's free value, log
entry 6), so the statement gives the two. -/
def Obligations.PortPrimitives : Prop :=
  (∀ s : State,
    (∀ h : s.inPos < s.par.inBytes.length,
      inFetch s = (.byte s.par.inBytes[s.inPos], { s with inPos := s.inPos + 1 })) ∧
    (s.par.inBytes.length ≤ s.inPos → inFetch s = (.term s.par.inTerm, s))) ∧
  (∀ (b : Byte) (s : State),
    (s.sinkOk s.outEvents.length = .ok →
      outEmit b s = (.ok, { s with outBytes := s.outBytes ++ [b], outEvents := s.outEvents ++ [.emit b] })) ∧
    (s.sinkOk s.outEvents.length = .fail →
      ∃ bytes, (bytes = s.outBytes ∨ bytes = s.outBytes ++ [b]) ∧
        outEmit b s = (.fail, { s with outBytes := bytes, outEvents := s.outEvents ++ [.emit b] }))) ∧
  (∀ s : State, outFlush s = (s.sinkOk s.outEvents.length, { s with outEvents := s.outEvents ++ [.flush] })) ∧
  ∀ p : Params, (State.resetWith p).inPos = 0 ∧ (State.resetWith p).outBytes = [] ∧ (State.resetWith p).outEvents = []

/-! ### Reset and invariants -/

/-- R39: the value of every register after reset, for every value of the parameters. -/
def Obligations.ResetValues : Prop :=
  ∀ p : Params,
    (State.resetWith p).rdCache = 0x00#8 ∧ (State.resetWith p).rdRem.val = 0 ∧
    (State.resetWith p).wrCache = 0x00#8 ∧ (State.resetWith p).wrCnt.val = 0 ∧ (State.resetWith p).wrClosed = false ∧
    (∀ sym : Byte, (State.resetWith p).codeLen sym = 0x00#8) ∧
    (State.resetWith p).node 0 = { z := none, o := none, leaf := false, sym := 0x00#8 } ∧
    (State.resetWith p).nodeCount = 1 ∧ (State.resetWith p).decCount = 0#64 ∧ (State.resetWith p).encCount = 0#64 ∧
    (State.resetWith p).fault = 0x00#8 ∧ (State.resetWith p).cmdSeq = 0

/-- R280 and R282: the reset input at a command boundary sets every register to its value of R39, clears a sticky fault,
reopens the writer and starts an epoch with a new IN and OUT and empty channels; after it the block waits for a command byte.
R281: while a command's bytes are half sent, whole commands before them or not, the host has no such move. -/
def Obligations.HostResetStartsANewEpoch : Prop :=
  (∀ (s : State) (cs : List HostCommand) (half : List Byte), (∀ c ∈ cs, sendable c = true) →
    s.cmd = cs.flatMap hostBytes ++ half → (∀ n, commandLength half = some n → half.length < n) →
    (s.atBoundary = true ↔ half = [])) ∧
  (∀ (p : Params) (s : State), s.atBoundary = false → hostReset p s = none) ∧
  ∀ (p : Params) (s : State), s.atBoundary = true → ∃ t, hostReset p s = some t ∧
    t.rdCache = 0x00#8 ∧ t.rdRem.val = 0 ∧ t.wrCache = 0x00#8 ∧ t.wrCnt.val = 0 ∧ t.wrClosed = false ∧
    (∀ sym : Byte, t.codeLen sym = 0x00#8) ∧ t.node 0 = { z := none, o := none, leaf := false, sym := 0x00#8 } ∧
    t.nodeCount = 1 ∧ t.decCount = 0#64 ∧ t.encCount = 0#64 ∧ t.fault = 0x00#8 ∧ t.cmdSeq = 0 ∧
    t.par.inBytes = p.inBytes ∧ t.par.inTerm = p.inTerm ∧ t.inPos = 0 ∧ (∀ k, t.sinkOk k = p.sinkAnswers.getD k p.sinkRest) ∧
    t.outBytes = [] ∧ t.outEvents = [] ∧ t.cmd = [] ∧ t.resp = [] ∧ step t = .fault .commandIncomplete

/-- The reset state meets every invariant, for every value of the parameters that R10 and the width of NODE_COUNT (R22)
allow. -/
def Obligations.ResetMeetsTheInvariants : Prop :=
  ∀ p : Params, 1 ≤ p.nodeCap → p.nodeCap < 2 ^ 16 → (State.resetWith p).Inv

/-- Every step keeps every invariant of the block: reader, writer, code table, trie, node count, ports, responses. -/
def Obligations.StepKeepsTheInvariants : Prop :=
  ∀ s t : State, s.Inv → step s = .next t → t.Inv

/-- R25: between commands `RD_CACHE < 2^RD_REM`, and every bit of RD_CACHE at position RD_REM or above is 0; with RD_REM 0 to
7 (R24).  It holds at reset and every step keeps it. -/
def Obligations.ReaderInvariant : Prop :=
  (∀ p : Params, (State.resetWith p).ReaderInv) ∧
  (∀ s t : State, s.ReaderInv → step s = .next t → t.ReaderInv) ∧
  ∀ s : State, s.ReaderInv →
    s.rdRem.val ≤ 7 ∧ s.rdCache.toNat < 2 ^ s.rdRem.val ∧ ∀ j, s.rdRem.val ≤ j → s.rdCache.getLsbD j = false

/-- R28: between commands `WR_CACHE < 2^WR_CNT`.  It holds at reset and every step keeps it. -/
def Obligations.WriterInvariant : Prop :=
  (∀ p : Params, (State.resetWith p).WriterInv) ∧
  (∀ s t : State, s.WriterInv → step s = .next t → t.WriterInv) ∧
  ∀ s : State, s.WriterInv → s.wrCache.toNat < 2 ^ s.wrCnt.val

/-- R33: the five trie invariants hold between commands while FAULT = 0: at reset, and every step keeps them.  `CountInv`
is the range of NODE_COUNT (R22), itself an invariant. -/
def Obligations.TrieInvariant : Prop :=
  (∀ p : Params, (State.resetWith p).TrieInv) ∧
  (∀ s t : State, s.CountInv → s.TrieInv → step s = .next t → t.TrieInv) ∧
  ∀ s : State, s.TrieInv → s.fault = 0x00#8 →
    (∀ i < s.nodeCount, ∀ (b : Bool) (c : Nat), (s.node i).child b = some c → i < c ∧ c < s.nodeCount) ∧
    (∀ c, 0 < c → c < s.nodeCount →
      ∃ i b, i < s.nodeCount ∧ (s.node i).child b = some c ∧
        ∀ i' b', i' < s.nodeCount → (s.node i').child b' = some c → i' = i ∧ b' = b) ∧
    (∀ i < s.nodeCount, (s.node i).leaf = true → (s.node i).z = none ∧ (s.node i).o = none) ∧
    (∀ i < s.nodeCount, 0 < i → (s.node i).z = none → (s.node i).o = none → (s.node i).leaf = true) ∧
    (s.node 0).leaf = false

/-- R30: CT_BITS of a present symbol has the length CT_LEN says, at reset and after every step; so the encoder reads exactly
the stored sequence. -/
def Obligations.CodeTableInvariant : Prop :=
  (∀ p : Params, (State.resetWith p).CodeInv) ∧
  (∀ s t : State, s.CodeInv → step s = .next t → t.CodeInv) ∧
  ∀ (s : State) (sym : Byte), s.CodeInv → s.codeLen sym ≠ 0x00#8 → s.codeOf sym = s.storedBits sym

/-- R146, for every trie that meets R33: the codes of the leaves are nonempty and pairwise prefix-free; every allocated node
is reached from the root by exactly one bit string, and the nodes but the root are exactly the nonempty prefixes of leaf
codes. -/
def Obligations.TrieCodesArePrefixFree : Prop :=
  ∀ s : State, TrieShape s.nodes →
    (∀ code x, s.leafAt code = some x → code ≠ []) ∧
    (∀ a b x y, s.leafAt a = some x → s.leafAt b = some y → a <+: b → a = b) ∧
    (∀ i < s.nodeCount, ∃ p, s.follow 0 p = some i ∧ ∀ q, s.follow 0 q = some i → q = p) ∧
    (∀ p i, s.follow 0 p = some i → i < s.nodeCount) ∧
    (∀ p, p ≠ [] → ((s.follow 0 p).isSome ↔ ∃ q, (s.leafAt (p ++ q)).isSome)) ∧
    ∀ i < s.nodeCount, (s.node i).leaf = true → ∃ p, s.follow 0 p = some i ∧ s.leafAt p = some (s.node i).sym

/-- R13, R52, R59, R62, R267: no step changes a parameter; IN is read forwards only; OUT, its events and the responses only
grow; the channel only shrinks. -/
def Obligations.PortsOnlyAdvance : Prop :=
  ∀ s t : State, step s = .next t →
    t.par = s.par ∧ s.inPos ≤ t.inPos ∧ t.inPos ≤ max s.inPos s.par.inBytes.length ∧
    s.outBytes <+: t.outBytes ∧ s.outEvents <+: t.outEvents ∧ s.resp <+: t.resp ∧ t.cmd <:+ s.cmd ∧
    t.cmd.length < s.cmd.length

/-- R295, its bounds on the port events of one command that the state shows: bytes fetched from IN, events sent to OUT. -/
def Obligations.PortEventsAreBounded : Prop :=
  ∀ s t : State,
    (exec .rdBit s = .next t → t.inPos ≤ s.inPos + 1) ∧
    (∀ n : U32, exec (.rdBytes n) s = .next t → t.inPos ≤ s.inPos + n.toNat) ∧
    (∀ data, exec (.wrBytes data) s = .next t → t.outEvents.length ≤ s.outEvents.length + data.length) ∧
    (∀ sym len, exec (.trInsertStream sym len) s = .next t → t.inPos ≤ s.inPos + 32) ∧
    (∀ sym, exec (.encSym sym) s = .next t → t.outEvents.length ≤ s.outEvents.length + 32) ∧
    (exec .compress s = .next t → t.inPos ≤ max s.inPos s.par.inBytes.length) ∧
    (TrieShape s.nodes → s.nodeCount ≤ s.par.nodeCap → exec .decSym s = .next t →
      t.inPos ≤ s.inPos + ((s.par.nodeCap - 1 + 7) / 8 + 1)) ∧
    ∀ size : U64, exec (.decompress size) s = .next t → t.outEvents.length ≤ s.outEvents.length + size.toNat

/-! ### Control and the bit reader -/

/-- R200: GET_STATUS answers the 24 status bytes whatever the state, FAULT included, and changes nothing. -/
def Obligations.GetStatusReportsTheRegisters : Prop :=
  ∀ s : State, exec .getStatus s =
    .next { s with
      cmdSeq := s.cmdSeq + 1
      resp := s.resp ++ [[0x00#8, s.fault, BitVec.ofNat 8 s.rdRem.val, s.rdCache, BitVec.ofNat 8 s.wrCnt.val, s.wrCache,
        if s.wrClosed then 0x01#8 else 0x00#8, BitVec.ofNat 8 (s.nodeCount / 256), BitVec.ofNat 8 s.nodeCount] ++
        u64be s.decCount ++ u64be s.encCount] }

/-- R103 over R100: RD_BIT with a cached bit, with a fetch, and at the end of IN. -/
def Obligations.RdBitReadsOneBit : Prop :=
  ∀ s : State, s.fault = 0x00#8 →
    (∀ h : s.rdRem.val ≠ 0,
      exec .rdBit s =
        .next (({ s with rdCache := s.rdCache >>> 1, rdRem := ⟨s.rdRem.val - 1, by omega⟩ } : State).answer
          [0x00#8, if s.rdCache.getLsbD 0 then 0x01#8 else 0x00#8])) ∧
    (s.rdRem.val = 0 → ∀ h : s.inPos < s.par.inBytes.length,
      exec .rdBit s =
        .next (({ s with rdCache := s.par.inBytes[s.inPos] >>> 1, rdRem := 7, inPos := s.inPos + 1 } : State).answer
          [0x00#8, if s.par.inBytes[s.inPos].getLsbD 0 then 0x01#8 else 0x00#8])) ∧
    (s.rdRem.val = 0 → s.par.inBytes.length ≤ s.inPos →
      exec .rdBit s =
        match s.par.inTerm with
        | .endOfSource => .next ((s.setFault 0x02#8).answer [0x02#8])
        | .error => .next ((s.setFault 0x01#8).answer [0x01#8]))

/-- R54: bit `j` of a byte sequence is bit `j mod 8` of byte `j div 8`, and both directions use it: RD_BIT delivers the next
bit of the source's stream, WR_BIT appends one to the sink's. -/
def Obligations.BitOrderIsLsbFirst : Prop :=
  (∀ (bs : List Byte) (j : Nat), j < 8 * bs.length →
    (bitsOf bs)[j]? = some ((bs.getD (j / 8) 0x00#8).getLsbD (j % 8))) ∧
  (∀ (s : State) (b : Bool) (rest : List Bool), s.fault = 0x00#8 → s.unreadBits = b :: rest →
    ∃ t, exec .rdBit s = .next t ∧ t.resp = s.resp ++ [[0x00#8, if b then 0x01#8 else 0x00#8]] ∧ t.unreadBits = rest) ∧
  ∀ (s : State) (b : Byte), s.fault = 0x00#8 → s.wrClosed = false → s.WriterInv → b.toNat ≤ 1 → s.SinkOkFor 1 →
    ∃ t, exec (.wrBit b) s = .next t ∧ t.fault = 0x00#8 ∧ t.writtenBits = s.writtenBits ++ [b.getLsbD 0]

/-- R104 over R101: RD_BYTES delivers the next n bytes of the bit stream, reassembled across the boundary when bits are
cached, or faults at the first byte IN cannot supply with the source bytes consumed and none returned. -/
def Obligations.RdBytesReadsWholeBytes : Prop :=
  ∀ (n : U32) (s : State), s.fault = 0x00#8 → s.ReaderInv → s.inPos ≤ s.par.inBytes.length →
    (s.inPos + n.toNat ≤ s.par.inBytes.length →
      ∃ p t, exec (.rdBytes n) s = .next t ∧ p.length = n.toNat ∧ s.unreadBits = bitsOf p ++ t.unreadBits ∧
        (s.rdRem.val = 0 → p = (s.par.inBytes.drop s.inPos).take n.toNat) ∧
        t = ({ s with rdCache := t.rdCache, inPos := s.inPos + n.toNat } : State).answer (0x00#8 :: p)) ∧
    (s.par.inBytes.length < s.inPos + n.toNat →
      ∃ t f, exec (.rdBytes n) s = .next t ∧
        (s.par.inTerm = .endOfSource ∧ f = 0x02#8 ∨ s.par.inTerm = .error ∧ f = 0x01#8) ∧
        t.unreadBits = s.unreadBits.drop (8 * (s.par.inBytes.length - s.inPos)) ∧
        t = (({ s with rdCache := t.rdCache, inPos := s.par.inBytes.length } : State).setFault f).answer [f])

/-- R102: TryReadByte that delivers a byte leaves the reader as eight ReadBit calls do, and the byte is their eight bits; on
failure it consumes no cached bit, whereas eight ReadBit calls consume them first. -/
def Obligations.ByteReadIsEightBitReads : Prop :=
  ∀ s : State, s.ReaderInv →
    (s.inPos < s.par.inBytes.length →
      ∃ v bits t, tryReadByte s = (.byte v, t) ∧ readBits 8 s = .ok bits t ∧ bits.length = 8 ∧
        ∀ i < 8, v.getLsbD i = bits.getD i false) ∧
    (s.par.inBytes.length ≤ s.inPos →
      tryReadByte s = (.term s.par.inTerm, s) ∧
      ∃ t, readBits 8 s = .raise (terminalFault s.par.inTerm) t ∧ t.rdRem.val = 0 ∧ t.inPos = s.inPos)

/-- R105: RD_ALIGN discards the cached bits unexamined, answers their count and does not touch IN; with none it changes
nothing. -/
def Obligations.RdAlignDiscardsPartialBits : Prop :=
  ∀ s : State, s.fault = 0x00#8 →
    exec .rdAlign s =
      .next (({ s with rdCache := 0x00#8, rdRem := 0 } : State).answer [0x00#8, BitVec.ofNat 8 s.rdRem.val]) ∧
    (s.ReaderInv → (BitVec.ofNat 8 s.rdRem.val).toNat = s.rdRem.val ∧ s.rdRem.val ≤ 7) ∧
    (s.ReaderInv → s.rdRem.val = 0 → exec .rdAlign s = .next (s.answer [0x00#8, 0x00#8]))

/-! ### The bit writer -/

/-- R125 over R120: WR_BIT with an operand above 1, on a closed writer, and otherwise: it sets the next cache bit; at the
eighth the byte is emitted and the cache is empty, whatever the sink answers. -/
def Obligations.WrBitSetsOneBit : Prop :=
  (∀ (b : Byte) (s : State), s.fault = 0x00#8 →
    (1 < b.toNat → exec (.wrBit b) s = .next ((s.setFault 0x07#8).answer [0x07#8])) ∧
    (b.toNat ≤ 1 → s.wrClosed = true → exec (.wrBit b) s = .next ((s.setFault 0x05#8).answer [0x05#8]))) ∧
  ∀ (b : Byte) (s : State) (v : Byte), s.fault = 0x00#8 → s.wrClosed = false → b.toNat ≤ 1 →
    v = (if b = 0x01#8 then s.wrCache ||| (1#8 <<< s.wrCnt.val) else s.wrCache) →
    (∀ h : s.wrCnt.val < 7,
      exec (.wrBit b) s =
        .next (({ s with wrCache := v, wrCnt := ⟨s.wrCnt.val + 1, by omega⟩ } : State).answer [0x00#8])) ∧
    (s.wrCnt.val = 7 → s.sinkOk s.outEvents.length = .ok →
      exec (.wrBit b) s =
        .next (({ s with wrCache := 0x00#8, wrCnt := 0, outBytes := s.outBytes ++ [v],
                         outEvents := s.outEvents ++ [.emit v] } : State).answer [0x00#8])) ∧
    (s.wrCnt.val = 7 → s.sinkOk s.outEvents.length = .fail →
      ∃ bytes, (bytes = s.outBytes ∨ bytes = s.outBytes ++ [v]) ∧
        exec (.wrBit b) s =
          .next ((({ s with wrCache := 0x00#8, wrCnt := 0, outBytes := bytes,
                            outEvents := s.outEvents ++ [.emit v] } : State).setFault 0x01#8).answer [0x01#8]))

/-- R126 over R121: WR_BYTES appends its bytes to the bit stream, one emit a byte, unchanged when aligned; at the first emit
that fails the bytes before it stay emitted; those and the byte that failed are the first whole bytes of the cached bits
followed by the data (R123). -/
def Obligations.WrBytesWritesEveryByte : Prop :=
  ∀ (data : List Byte) (s : State), s.fault = 0x00#8 →
    (s.wrClosed = true → exec (.wrBytes data) s = .next ((s.setFault 0x05#8).answer [0x05#8])) ∧
    (s.wrClosed = false → s.WriterInv → s.SinkOkFor data.length →
      ∃ emitted t, exec (.wrBytes data) s = .next t ∧ emitted.length = data.length ∧
        t.writtenBits = s.writtenBits ++ bitsOf data ∧ (s.wrCnt.val = 0 → emitted = data) ∧
        t = ({ s with wrCache := t.wrCache, outBytes := s.outBytes ++ emitted,
                      outEvents := s.outEvents ++ emitted.map .emit } : State).answer [0x00#8]) ∧
    (s.wrClosed = false → s.WriterInv → ∀ k < data.length, s.SinkOkFor k →
      s.sinkOk (s.outEvents.length + k) = .fail →
      ∃ emitted b bytes t, exec (.wrBytes data) s = .next t ∧ emitted.length = k ∧
        (bytes = s.outBytes ++ emitted ∨ bytes = s.outBytes ++ emitted ++ [b]) ∧
        bitsOf (emitted ++ [b]) = ((bitsOfByte s.wrCache).take s.wrCnt.val ++ bitsOf data).take (8 * (k + 1)) ∧
        (s.wrCnt.val = 0 → emitted ++ [b] = data.take (k + 1)) ∧
        t = (({ s with wrCache := 0x00#8, wrCnt := 0, outBytes := bytes,
                       outEvents := s.outEvents ++ emitted.map .emit ++ [.emit b] } : State).setFault
              0x01#8).answer [0x01#8])

/-- R123: WriteByte is eight WriteBits when aligned; with k cached bits it emits one byte made of them and of the low bits of
the data byte and keeps the rest; and what the writer emits, aligned at the end, is read back bit by bit. -/
def Obligations.WriteByteIsEightBitWrites : Prop :=
  (∀ (d : Byte) (s : State), s.WriterInv → s.wrCnt.val = 0 →
    writeByte d s = writeBits ((List.range 8).map fun i => d.getLsbD i) s ∧
    (s.sinkOk s.outEvents.length = .ok →
      writeByte d s = .ok () { s with outBytes := s.outBytes ++ [d], outEvents := s.outEvents ++ [.emit d] }) ∧
    s.wrCache = 0x00#8) ∧
  (∀ (d : Byte) (s : State) (v : Byte), s.WriterInv → s.wrCnt.val ≠ 0 → s.sinkOk s.outEvents.length = .ok →
    v = s.wrCache ||| (d <<< s.wrCnt.val) →
    writeByte d s =
      .ok () { s with wrCache := d >>> (8 - s.wrCnt.val), outBytes := s.outBytes ++ [v],
                      outEvents := s.outEvents ++ [.emit v] }) ∧
  ∀ (bits : List Bool) (s t u : State) (pad : Nat), s.WriterInv → s.wrCnt.val = 0 → writeBits bits s = .ok () t →
    alignW t = .ok pad u →
    ∃ emitted, u.outBytes = s.outBytes ++ emitted ∧
      ∀ r : State, r.rdRem.val = 0 → r.par.inBytes.drop r.inPos = emitted →
        ∃ r', readBits bits.length r = .ok bits r' ∧ r'.unreadBits = List.replicate pad false

/-- R127 over R122: WR_ALIGN emits the partial byte, whose high bits are 0, flushes in either case and answers the padding
count. -/
def Obligations.WrAlignPadsAndFlushes : Prop :=
  ∀ s : State, s.fault = 0x00#8 →
    (s.wrClosed = true → exec .wrAlign s = .next ((s.setFault 0x05#8).answer [0x05#8])) ∧
    (s.wrClosed = false → s.wrCnt.val = 0 → s.sinkOk s.outEvents.length = .ok →
      exec .wrAlign s =
        .next (({ s with outEvents := s.outEvents ++ [.flush] } : State).answer [0x00#8, 0x00#8])) ∧
    (s.wrClosed = false → s.wrCnt.val = 0 → s.sinkOk s.outEvents.length = .fail →
      exec .wrAlign s =
        .next ((({ s with outEvents := s.outEvents ++ [.flush] } : State).setFault 0x01#8).answer [0x01#8])) ∧
    (s.wrClosed = false → s.wrCnt.val ≠ 0 → s.sinkOk s.outEvents.length = .ok →
      s.sinkOk (s.outEvents.length + 1) = .ok →
      exec .wrAlign s =
        .next (({ s with wrCache := 0x00#8, wrCnt := 0, outBytes := s.outBytes ++ [s.wrCache],
                         outEvents := s.outEvents ++ [.emit s.wrCache, .flush] } : State).answer
          [0x00#8, BitVec.ofNat 8 (8 - s.wrCnt.val)])) ∧
    (s.wrClosed = false → s.wrCnt.val ≠ 0 → s.sinkOk s.outEvents.length = .ok →
      s.sinkOk (s.outEvents.length + 1) = .fail →
      exec .wrAlign s =
        .next ((({ s with wrCache := 0x00#8, wrCnt := 0, outBytes := s.outBytes ++ [s.wrCache],
                          outEvents := s.outEvents ++ [.emit s.wrCache, .flush] } : State).setFault
            0x01#8).answer [0x01#8])) ∧
    (s.wrClosed = false → s.wrCnt.val ≠ 0 → s.sinkOk s.outEvents.length = .fail →
      ∃ bytes, (bytes = s.outBytes ∨ bytes = s.outBytes ++ [s.wrCache]) ∧
        exec .wrAlign s =
          .next ((({ s with wrCache := 0x00#8, wrCnt := 0, outBytes := bytes,
                            outEvents := s.outEvents ++ [.emit s.wrCache] } : State).setFault 0x01#8).answer
            [0x01#8])) ∧
    (s.WriterInv → ∀ j, s.wrCnt.val ≤ j → s.wrCache.getLsbD j = false)

/-- R128: WR_CLOSE does what WR_ALIGN does and then closes the writer; if the align faults the writer stays open, and a
closed writer cannot be closed again. -/
def Obligations.WrCloseAlignsAndCloses : Prop :=
  ∀ s : State, s.fault = 0x00#8 →
    (s.wrClosed = true → exec .wrClose s = .next ((s.setFault 0x05#8).answer [0x05#8])) ∧
    (s.wrClosed = false → s.wrCnt.val = 0 → s.sinkOk s.outEvents.length = .ok →
      exec .wrClose s =
        .next (({ s with wrClosed := true, outEvents := s.outEvents ++ [.flush] } : State).answer [0x00#8, 0x00#8])) ∧
    (s.wrClosed = false → s.wrCnt.val ≠ 0 → s.sinkOk s.outEvents.length = .ok →
      s.sinkOk (s.outEvents.length + 1) = .ok →
      exec .wrClose s =
        .next (({ s with wrCache := 0x00#8, wrCnt := 0, wrClosed := true, outBytes := s.outBytes ++ [s.wrCache],
                         outEvents := s.outEvents ++ [.emit s.wrCache, .flush] } : State).answer
          [0x00#8, BitVec.ofNat 8 (8 - s.wrCnt.val)])) ∧
    (s.wrClosed = false → s.sinkOk s.outEvents.length = .fail ∨
        s.wrCnt.val ≠ 0 ∧ s.sinkOk (s.outEvents.length + 1) = .fail →
      ∃ t, exec .wrClose s = .next t ∧ exec .wrAlign s = .next t ∧ t.wrClosed = false ∧ t.fault = 0x01#8)

/-! ### The code table and the trie -/

/-- R140 and R144: CT_CLEAR makes every symbol absent and leaves CT_BITS, TR_CLEAR leaves the fresh root alone; after them
ENC_SYM finds no code and DEC_SYM no branch. -/
def Obligations.TablesAreCleared : Prop :=
  ∀ s : State, s.fault = 0x00#8 →
    exec .ctClear s = .next (({ s with ctLen := Vector.replicate 256 0x00#8 } : State).answer [0x00#8]) ∧
    exec .trClear s =
      .next (({ s with nodes := [{ z := none, o := none, leaf := false, sym := 0x00#8 }] } : State).answer [0x00#8]) ∧
    (∀ (t : State) (sym : Byte), exec .ctClear s = .next t → s.wrClosed = false →
      exec (.encSym sym) t = .next ((t.setFault 0x04#8).answer [0x04#8])) ∧
    ∀ (t : State) (b : Bool) (rest : List Bool), exec .trClear s = .next t → s.unreadBits = b :: rest →
      ∃ u, exec .decSym t = .next u ∧ u.fault = 0x03#8 ∧ u.unreadBits = rest

/-- R141: CT_LOAD sets one symbol's length and code and no other's; a length of 0 makes it absent. -/
def Obligations.CtLoadSetsOneCode : Prop :=
  ∀ (sym : Byte) (code : List Bool) (s : State), s.fault = 0x00#8 → code.length ≤ 255 →
    ∃ t, exec (.ctLoad sym code) s = .next t ∧ (t.codeLen sym).toNat = code.length ∧ t.storedBits sym = code ∧
      t.codeOf sym = code ∧
      (∀ x : Byte, x ≠ sym → t.codeLen x = s.codeLen x ∧ t.storedBits x = s.storedBits x) ∧
      t = ({ s with ctLen := t.ctLen, ctBits := t.ctBits } : State).answer [0x00#8]

/-- R147 over R143: TR_INSERT_CODE of a code that overlaps no earlier one adds exactly that leaf, allocates one node for each
prefix that named none, and touches nothing but the trie. -/
def Obligations.TrInsertCodeAddsOneLeaf : Prop :=
  ∀ (sym : Byte) (code : List Bool) (s : State), s.fault = 0x00#8 → TrieShape s.nodes → code ≠ [] → s.codeFree code →
    s.nodeCount + s.newNodes code ≤ s.par.nodeCap →
    ∃ t, exec (.trInsertCode sym code) s = .next t ∧ t = ({ s with nodes := t.nodes } : State).answer [0x00#8] ∧
      (∀ p, t.leafAt p = if p = code then some sym else s.leafAt p) ∧
      t.nodeCount = s.nodeCount + s.newNodes code ∧ TrieShape t.nodes

/-- R145 over R143: TR_INSERT_STREAM takes its code from the bit stream, exactly `len` bits of it; where the stream ends
before them, at a point the code can still be inserted at, it raises the terminal's fault with every bit consumed, no leaf
added and the nodes made so far kept (R256). -/
def Obligations.TrInsertStreamAddsOneLeaf : Prop :=
  (∀ (sym len : Byte) (code rest : List Bool) (s : State), s.fault = 0x00#8 → TrieShape s.nodes → code ≠ [] →
    code.length = len.toNat → s.unreadBits = code ++ rest → s.codeFree code →
    s.nodeCount + s.newNodes code ≤ s.par.nodeCap →
    ∃ t, exec (.trInsertStream sym len) s = .next t ∧
      t = ({ s with nodes := t.nodes, rdCache := t.rdCache, rdRem := t.rdRem, inPos := t.inPos } : State).answer [0x00#8] ∧
      t.unreadBits = rest ∧ (∀ p, t.leafAt p = if p = code then some sym else s.leafAt p) ∧
      t.nodeCount = s.nodeCount + s.newNodes code ∧ TrieShape t.nodes) ∧
  ∀ (sym len : Byte) (s : State), s.fault = 0x00#8 → TrieShape s.nodes → s.unreadBits.length < len.toNat →
    (∀ n < s.unreadBits.length, s.leafAt (s.unreadBits.take n) = none) →
    s.nodeCount + s.newNodes s.unreadBits ≤ s.par.nodeCap →
    ∃ t f, exec (.trInsertStream sym len) s = .next t ∧
      (s.par.inTerm = .endOfSource ∧ f = 0x02#8 ∨ s.par.inTerm = .error ∧ f = 0x01#8) ∧
      t = (({ s with nodes := t.nodes, rdCache := t.rdCache, rdRem := t.rdRem, inPos := t.inPos } : State).setFault
            f).answer [f] ∧
      t.unreadBits = [] ∧ t.nodeCount = s.nodeCount + s.newNodes s.unreadBits ∧ (∀ p, t.leafAt p = s.leafAt p) ∧
      ∀ p, (t.follow 0 p).isSome ↔ (s.follow 0 p).isSome ∨ p <+: s.unreadBits

/-- R143, R145, R147: a code of length 0 is skipped: no bit is read and nothing changes. -/
def Obligations.ZeroLengthInsertsAreSkipped : Prop :=
  ∀ (sym : Byte) (s : State), s.fault = 0x00#8 →
    exec (.trInsertStream sym 0x00#8) s = .next (s.answer [0x00#8]) ∧
    exec (.trInsertCode sym []) s = .next (s.answer [0x00#8])

/-- R143: a code that runs through a leaf, or that is a prefix of or equal to an earlier one, raises CORRUPT_DICTIONARY and
changes no node.  The check comes after its bit is read, so from the stream the bits down to the leaf and one more are
consumed, whatever the length says, and the whole code where it meets no leaf on its way. -/
def Obligations.OverlappingCodesAreCorrupt : Prop :=
  ∀ (sym : Byte) (code : List Bool) (s : State), s.fault = 0x00#8 → TrieShape s.nodes → code ≠ [] →
    ((∃ n < code.length, (s.leafAt (code.take n)).isSome) ∨ (s.follow 0 code).isSome) →
    exec (.trInsertCode sym code) s = .next ((s.setFault 0x03#8).answer [0x03#8]) ∧
    ∀ (len : Byte) (rest : List Bool), s.unreadBits = code ++ rest →
      (code.length = len.toNat ∨ code.length < len.toNat ∧ ∃ n < code.length, (s.leafAt (code.take n)).isSome) →
      ∃ t m, exec (.trInsertStream sym len) s = .next t ∧ t.unreadBits = s.unreadBits.drop m ∧
        (∀ n < code.length, (s.leafAt (code.take n)).isSome → m = n + 1) ∧
        ((∀ n < code.length, s.leafAt (code.take n) = none) → m = code.length) ∧
        t = (({ s with rdCache := t.rdCache, rdRem := t.rdRem, inPos := t.inPos } : State).setFault 0x03#8).answer
          [0x03#8]

/-- R143 and R10, for both commands: where the first `m` bits of a code run through no leaf and need more nodes than NODE_CAP
leaves, and fewer bits do not, TrieInsert raises NODE_OVERFLOW at the bit `m`, whatever the bits after it: the store is full,
the nodes made so far are kept (R256), no leaf is added, and from the stream exactly `m` bits are consumed (R145). -/
def Obligations.FullStoreOverflows : Prop :=
  ∀ (sym : Byte) (code : List Bool) (m : Nat) (s : State), s.fault = 0x00#8 → TrieShape s.nodes →
    s.nodeCount ≤ s.par.nodeCap → m ≤ code.length → (∀ n < m, s.leafAt (code.take n) = none) →
    (∀ n < m, s.nodeCount + s.newNodes (code.take n) ≤ s.par.nodeCap) →
    s.par.nodeCap < s.nodeCount + s.newNodes (code.take m) →
    (∃ t, exec (.trInsertCode sym code) s = .next t ∧
      t = (({ s with nodes := t.nodes } : State).setFault 0x06#8).answer [0x06#8] ∧ t.nodeCount = s.par.nodeCap ∧
      (∀ p, t.leafAt p = s.leafAt p) ∧
      ∀ p, (t.follow 0 p).isSome ↔ (s.follow 0 p).isSome ∨ p <+: code.take (m - 1)) ∧
    ∀ (len : Byte) (rest : List Bool), code.length ≤ len.toNat → s.unreadBits = code ++ rest →
      ∃ t, exec (.trInsertStream sym len) s = .next t ∧
        t = (({ s with nodes := t.nodes, rdCache := t.rdCache, rdRem := t.rdRem, inPos := t.inPos } : State).setFault
              0x06#8).answer [0x06#8] ∧
        t.unreadBits = s.unreadBits.drop m ∧ t.nodeCount = s.par.nodeCap ∧ (∀ p, t.leafAt p = s.leafAt p) ∧
        ∀ p, (t.follow 0 p).isSome ↔ (s.follow 0 p).isSome ∨ p <+: code.take (m - 1)

/-! ### The codec -/

/-- R172: ENC_SYM appends the symbol's code to the bit stream with no padding, emits the bytes that fill, and leaves ENC_COUNT;
a symbol with no code raises SYMBOL_NOT_IN_TABLE before any bit is written. -/
def Obligations.EncSymWritesTheCode : Prop :=
  ∀ (sym : Byte) (s : State), s.fault = 0x00#8 → s.wrClosed = false →
    (s.codeLen sym = 0x00#8 → exec (.encSym sym) s = .next ((s.setFault 0x04#8).answer [0x04#8])) ∧
    (s.codeLen sym ≠ 0x00#8 → s.WriterInv → s.CodeInv → s.SinkOkFor ((s.wrCnt.val + (s.codeLen sym).toNat) / 8) →
      ∃ emitted t, exec (.encSym sym) s = .next t ∧
        emitted.length = (s.wrCnt.val + (s.codeLen sym).toNat) / 8 ∧
        t.writtenBits = s.writtenBits ++ s.storedBits sym ∧
        t = ({ s with wrCache := t.wrCache, wrCnt := t.wrCnt, outBytes := s.outBytes ++ emitted,
                      outEvents := s.outEvents ++ emitted.map .emit } : State).answer [0x00#8])

/-- R173 and R174: COMPRESS encodes every remaining input byte, pads with zeros, flushes, closes the writer and answers the
count and the padding; bits that fill no whole byte stay cached. -/
def Obligations.CompressEncodesTheWholeInput : Prop :=
  ∀ (s : State) (bits : List Bool), s.fault = 0x00#8 → s.wrClosed = false → s.ReaderInv → s.WriterInv →
    s.inPos ≤ s.par.inBytes.length → s.par.inTerm = .endOfSource → (∀ x ∈ s.unreadBytes, s.codeLen x ≠ 0x00#8) →
    bits = s.unreadBytes.flatMap s.codeOf → s.SinkOkFor ((s.wrCnt.val + bits.length + 7) / 8 + 1) →
    ∃ emitted pad t, exec .compress s = .next t ∧ pad = (8 - (s.wrCnt.val + bits.length) % 8) % 8 ∧
      bitsOf (s.outBytes ++ emitted) = s.writtenBits ++ bits ++ List.replicate pad false ∧
      (s.rdRem.val = 0 → s.unreadBytes = s.par.inBytes.drop s.inPos ∧ t.rdCache = s.rdCache) ∧
      t.ReaderInv ∧ t.unreadBits = s.unreadBits.drop (8 * s.inLeft) ∧
      t = ({ s with
            rdCache := t.rdCache
            inPos := s.par.inBytes.length
            wrCache := 0x00#8
            wrCnt := 0
            wrClosed := true
            outBytes := s.outBytes ++ emitted
            outEvents := s.outEvents ++ emitted.map .emit ++ [.flush]
            encCount := BitVec.ofNat 64 s.unreadBytes.length } : State).answer
          (0x00#8 :: (u64be (BitVec.ofNat 64 s.unreadBytes.length) ++ [BitVec.ofNat 8 pad]))

/-- R173, R174, R254: COMPRESS faults with IO_ERROR where the input ends in an Error, and with SYMBOL_NOT_IN_TABLE at the
first byte with no code, after that byte is consumed and everything before it is encoded; the writer stays open. -/
def Obligations.CompressFaults : Prop :=
  ∀ (s : State) (xs : List Byte) (bits : List Bool), s.fault = 0x00#8 → s.wrClosed = false → s.ReaderInv → s.WriterInv →
    s.inPos ≤ s.par.inBytes.length → (∀ x ∈ xs, s.codeLen x ≠ 0x00#8) → bits = xs.flatMap s.codeOf →
    s.SinkOkFor ((s.wrCnt.val + bits.length) / 8) →
    (s.unreadBytes = xs → s.par.inTerm = .error →
      ∃ t, exec .compress s = .next t ∧ t.fault = 0x01#8 ∧ t.resp = s.resp ++ [[0x01#8]] ∧ t.wrClosed = false ∧
        t.writtenBits = s.writtenBits ++ bits ∧ t.encCount = BitVec.ofNat 64 xs.length ∧
        t.inPos = s.par.inBytes.length) ∧
    (∀ x ys, s.unreadBytes = xs ++ x :: ys → s.codeLen x = 0x00#8 →
      ∃ t, exec .compress s = .next t ∧ t.fault = 0x04#8 ∧ t.resp = s.resp ++ [[0x04#8]] ∧ t.wrClosed = false ∧
        t.writtenBits = s.writtenBits ++ bits ∧ t.encCount = BitVec.ofNat 64 xs.length ∧
        t.inPos = s.inPos + xs.length + 1)

/-- R175 over R170: DEC_SYM returns the symbol of the leaf whose code the stream starts with, and consumes exactly the code;
it needs no writer. -/
def Obligations.DecSymFollowsTheCode : Prop :=
  ∀ (s : State) (code rest : List Bool) (x : Byte), s.fault = 0x00#8 → TrieShape s.nodes → s.leafAt code = some x →
    s.unreadBits = code ++ rest →
    ∃ t, exec .decSym s = .next t ∧ t.unreadBits = rest ∧
      t = ({ s with rdCache := t.rdCache, rdRem := t.rdRem, inPos := t.inPos } : State).answer [0x00#8, x]

/-- R170, R171: an absent branch raises CORRUPT_DICTIONARY after its bit is consumed, and input that runs out inside a code
raises the terminal's fault with every bit consumed. -/
def Obligations.DecSymFaults : Prop :=
  ∀ (s : State) (pre : List Bool) (j : Nat), s.fault = 0x00#8 → TrieShape s.nodes → s.follow 0 pre = some j →
    (s.node j).leaf = false →
    (∀ (b : Bool) (rest : List Bool), s.unreadBits = pre ++ b :: rest → (s.node j).child b = none →
      ∃ t, exec .decSym s = .next t ∧ t.unreadBits = rest ∧
        t = (({ s with rdCache := t.rdCache, rdRem := t.rdRem, inPos := t.inPos } : State).setFault 0x03#8).answer
          [0x03#8]) ∧
    (s.unreadBits = pre →
      ∃ t f, exec .decSym s = .next t ∧ t.unreadBits = [] ∧
        (s.par.inTerm = .endOfSource ∧ f = 0x02#8 ∨ s.par.inTerm = .error ∧ f = 0x01#8) ∧
        t = (({ s with rdCache := t.rdCache, rdRem := t.rdRem, inPos := t.inPos } : State).setFault f).answer [f])

/-- R171: the walk always ends, and reads at most NODE_COUNT - 1 bits where the trie has a node below the root; with the
root alone it reads the one bit of R170's first listed case. -/
def Obligations.DecSymIsBounded : Prop :=
  ∀ s : State, TrieShape s.nodes →
    ∃ t used, exec .decSym s = .next t ∧ s.unreadBits = used ++ t.unreadBits ∧ used.length ≤ max 1 (s.nodeCount - 1)

/-- R176: DECOMPRESS writes exactly `size` decoded bytes, stops by count with the bits after them unread, and neither aligns
nor flushes.  `ps` is the codes the stream holds, one after another, each with the symbol of its leaf. -/
def Obligations.DecompressWritesSizeBytes : Prop :=
  ∀ (s : State) (size : U64) (ps : List (List Bool × Byte)) (rest : List Bool), s.fault = 0x00#8 →
    s.wrClosed = false → s.ReaderInv → s.WriterInv → s.inPos ≤ s.par.inBytes.length → TrieShape s.nodes →
    size.toNat = ps.length → (∀ p ∈ ps, s.leafAt p.1 = some p.2) → s.unreadBits = ps.flatMap Prod.fst ++ rest →
    s.SinkOkFor ps.length →
    ∃ emitted t, exec (.decompress size) s = .next t ∧ emitted.length = ps.length ∧ t.unreadBits = rest ∧
      t.writtenBits = s.writtenBits ++ bitsOf (ps.map Prod.snd) ∧ (s.wrCnt.val = 0 → emitted = ps.map Prod.snd) ∧
      t = ({ s with
            rdCache := t.rdCache
            rdRem := t.rdRem
            inPos := t.inPos
            wrCache := t.wrCache
            outBytes := s.outBytes ++ emitted
            outEvents := s.outEvents ++ emitted.map .emit
            decCount := size } : State).answer (0x00#8 :: u64be size)

/-- R177: DECOMPRESS never reports success with fewer than `size` bytes; where the stream ends inside the next code it raises
the terminal's fault, and where the next code leads to an absent branch it raises CORRUPT_DICTIONARY after that bit is consumed
(R170, R176), with the bytes before it written and DEC_COUNT counting them. -/
def Obligations.DecompressNeverHidesTruncation : Prop :=
  (∀ (s t : State) (size : U64), s.Inv → s.fault = 0x00#8 → exec (.decompress size) s = .next t →
    (t.fault = 0x00#8 ∧ t.resp = s.resp ++ [0x00#8 :: u64be size] ∧ t.decCount = size ∧
      ∃ xs : List Byte, xs.length = size.toNat ∧ t.writtenBits = s.writtenBits ++ bitsOf xs) ∨
    (t.fault ≠ 0x00#8 ∧ t.resp = s.resp ++ [[t.fault]])) ∧
  ∀ (s : State) (size : U64) (ps : List (List Bool × Byte)) (pre tail : List Bool) (j : Nat), s.fault = 0x00#8 →
    s.wrClosed = false → s.ReaderInv → s.WriterInv → s.inPos ≤ s.par.inBytes.length → TrieShape s.nodes →
    ps.length < size.toNat → (∀ p ∈ ps, s.leafAt p.1 = some p.2) →
    s.unreadBits = ps.flatMap Prod.fst ++ (pre ++ tail) → s.follow 0 pre = some j → (s.node j).leaf = false →
    s.SinkOkFor ps.length →
    (tail = [] →
      ∃ t f, exec (.decompress size) s = .next t ∧
        (s.par.inTerm = .endOfSource ∧ f = 0x02#8 ∨ s.par.inTerm = .error ∧ f = 0x01#8) ∧ t.fault = f ∧
        t.resp = s.resp ++ [[f]] ∧ t.decCount = BitVec.ofNat 64 ps.length ∧
        t.writtenBits = s.writtenBits ++ bitsOf (ps.map Prod.snd) ∧ t.unreadBits = []) ∧
    ∀ (b : Bool) (rest : List Bool), tail = b :: rest → (s.node j).child b = none →
      ∃ t, exec (.decompress size) s = .next t ∧ t.fault = 0x03#8 ∧ t.resp = s.resp ++ [[0x03#8]] ∧
        t.decCount = BitVec.ofNat 64 ps.length ∧ t.writtenBits = s.writtenBits ++ bitsOf (ps.map Prod.snd) ∧
        t.unreadBits = rest

/-- R178: COMPRESS over input bytes with codes, then, in another epoch, DECOMPRESS of as many bytes on what COMPRESS emitted,
with a trie that holds the same codes, emits exactly the input bytes. -/
def Obligations.RoundTrip : Prop :=
  ∀ (s : State) (xs : List Byte), s.fault = 0x00#8 → s.wrClosed = false → s.ReaderInv → s.rdRem.val = 0 → s.WriterInv →
    s.wrCnt.val = 0 → s.inPos ≤ s.par.inBytes.length → s.par.inTerm = .endOfSource →
    xs = s.par.inBytes.drop s.inPos → (∀ x ∈ xs, s.codeLen x ≠ 0x00#8) →
    s.SinkOkFor (((xs.flatMap s.codeOf).length + 7) / 8 + 1) →
    ∃ t emitted, exec .compress s = .next t ∧ t.fault = 0x00#8 ∧ t.outBytes = s.outBytes ++ emitted ∧
      ∀ (d : State) (size : U64), d.fault = 0x00#8 → d.wrClosed = false → d.ReaderInv → d.rdRem.val = 0 → d.WriterInv →
        d.wrCnt.val = 0 → d.inPos ≤ d.par.inBytes.length → TrieShape d.nodes →
        (∀ x ∈ xs, d.leafAt (s.codeOf x) = some x) → d.par.inBytes.drop d.inPos = emitted → size.toNat = xs.length →
        d.SinkOkFor xs.length →
        ∃ u, exec (.decompress size) d = .next u ∧ u.fault = 0x00#8 ∧ u.outBytes = d.outBytes ++ xs

/-! ### Frames: what a family leaves unchanged, whatever its operands and whether it faults or not -/

/-- The reader commands RD_BIT, RD_BYTES and RD_ALIGN change only the reader, IN.pos, FAULT, CMDSEQ and the responses. -/
def Obligations.ReaderCommandsFrame : Prop :=
  ∀ (i : Instr) (s t : State), (i = .rdBit ∨ (∃ n, i = .rdBytes n) ∨ i = .rdAlign) → exec i s = .next t →
    t.par = s.par ∧ t.wrCache = s.wrCache ∧ t.wrCnt = s.wrCnt ∧ t.wrClosed = s.wrClosed ∧ t.ctLen = s.ctLen ∧
    t.ctBits = s.ctBits ∧ t.nodes = s.nodes ∧ t.decCount = s.decCount ∧ t.encCount = s.encCount ∧
    t.outBytes = s.outBytes ∧ t.outEvents = s.outEvents ∧ t.cmd = s.cmd ∧ (i = .rdAlign → t.inPos = s.inPos)

/-- The writer commands WR_BIT, WR_BYTES, WR_ALIGN and WR_CLOSE change only the writer, OUT, FAULT, CMDSEQ and the responses;
WR_CLOSED only by WR_CLOSE. -/
def Obligations.WriterCommandsFrame : Prop :=
  ∀ (i : Instr) (s t : State), ((∃ b, i = .wrBit b) ∨ (∃ data, i = .wrBytes data) ∨ i = .wrAlign ∨ i = .wrClose) →
    exec i s = .next t →
    t.par = s.par ∧ t.rdCache = s.rdCache ∧ t.rdRem = s.rdRem ∧ t.inPos = s.inPos ∧ t.ctLen = s.ctLen ∧
    t.ctBits = s.ctBits ∧ t.nodes = s.nodes ∧ t.decCount = s.decCount ∧ t.encCount = s.encCount ∧ t.cmd = s.cmd ∧
    (i ≠ .wrClose → t.wrClosed = s.wrClosed)

/-- The table commands CT_CLEAR and CT_LOAD change only the code table, and the trie commands only the trie store, with the
reader and IN.pos by TR_INSERT_STREAM alone; besides FAULT, CMDSEQ and the responses. -/
def Obligations.TableCommandsFrame : Prop :=
  ∀ (i : Instr) (s t : State),
    (i = .ctClear ∨ (∃ sym code, i = .ctLoad sym code) ∨ i = .trClear ∨ (∃ sym len, i = .trInsertStream sym len) ∨
      ∃ sym code, i = .trInsertCode sym code) → exec i s = .next t →
    t.par = s.par ∧ t.wrCache = s.wrCache ∧ t.wrCnt = s.wrCnt ∧ t.wrClosed = s.wrClosed ∧ t.decCount = s.decCount ∧
    t.encCount = s.encCount ∧ t.outBytes = s.outBytes ∧ t.outEvents = s.outEvents ∧ t.cmd = s.cmd ∧
    ((i = .ctClear ∨ ∃ sym code, i = .ctLoad sym code) → t.nodes = s.nodes) ∧
    (¬ (i = .ctClear ∨ ∃ sym code, i = .ctLoad sym code) → t.ctLen = s.ctLen ∧ t.ctBits = s.ctBits) ∧
    (i = .ctClear → t.ctBits = s.ctBits) ∧
    (¬ (∃ sym len, i = .trInsertStream sym len) → t.rdCache = s.rdCache ∧ t.rdRem = s.rdRem ∧ t.inPos = s.inPos)

/-- The codec commands ENC_SYM, COMPRESS, DEC_SYM and DECOMPRESS change no table and no trie node; ENC_SYM reads no input,
DEC_SYM writes no output, ENC_COUNT is COMPRESS's alone, DEC_COUNT is DECOMPRESS's alone, WR_CLOSED COMPRESS's alone. -/
def Obligations.CodecCommandsFrame : Prop :=
  ∀ (i : Instr) (s t : State),
    ((∃ sym, i = .encSym sym) ∨ i = .compress ∨ i = .decSym ∨ ∃ size, i = .decompress size) → exec i s = .next t →
    t.par = s.par ∧ t.ctLen = s.ctLen ∧ t.ctBits = s.ctBits ∧ t.nodes = s.nodes ∧ t.cmd = s.cmd ∧
    (i ≠ .compress → t.encCount = s.encCount ∧ t.wrClosed = s.wrClosed) ∧
    ((∀ size, i ≠ .decompress size) → t.decCount = s.decCount) ∧
    ((∃ sym, i = .encSym sym) → t.rdCache = s.rdCache ∧ t.rdRem = s.rdRem ∧ t.inPos = s.inPos) ∧
    (i = .decSym →
      t.wrCache = s.wrCache ∧ t.wrCnt = s.wrCnt ∧ t.outBytes = s.outBytes ∧ t.outEvents = s.outEvents)
end

