-- ==== Sys2Proof/Laws/Bits.lean ====
section
/-! SUPPORT. Bits of bytes: LSB-first unpacking and packing (20_memory R54), shifts of the caches. -/

namespace Sys2Proof.Machine

@[simp] theorem bitsOfByte_length (b : Byte) : (bitsOfByte b).length = 8 := by simp [bitsOfByte]

theorem bitsOfByte_getElem (b : Byte) (i : Nat) (h : i < (bitsOfByte b).length) : (bitsOfByte b)[i] = b.getLsbD i := by
  simp [bitsOfByte]

theorem take_bitsOfByte (b : Byte) (k : Nat) (h : k ≤ 8) : (bitsOfByte b).take k = (List.range k).map b.getLsbD := by
  apply List.ext_getElem
  · simp [h]
  · intro i h1 h2
    simp [bitsOfByte_getElem]

theorem bitsOfByte_inj {a b : Byte} (h : bitsOfByte a = bitsOfByte b) : a = b := by
  apply BitVec.eq_of_getLsbD_eq
  intro i hi
  have := congrArg (fun l => l[i]?) h
  simpa [bitsOfByte, hi] using this

/-- A bit of a packed byte is the list's bit, 0 past its end. -/
theorem byteOfBits_getLsbD (l : List Bool) (i : Nat) (h : i < 8) : (byteOfBits l).getLsbD i = l.getD i false := by
  induction l generalizing i with
  | nil => simp [byteOfBits]
  | cons b bs ih =>
    cases i with
    | zero => cases b <;> simp [byteOfBits]
    | succ i =>
      have := ih i (by omega)
      have e : (byteOfBits (b :: bs)).getLsbD (i + 1) = (byteOfBits bs).getLsbD i := by
        cases b <;> simp [byteOfBits, h, BitVec.getLsbD_one, -BitVec.getLsbD_eq_getElem]
      rw [e, this]; rfl

@[simp] theorem byteOfBits_bitsOfByte (b : Byte) : byteOfBits (bitsOfByte b) = b := by
  apply BitVec.eq_of_getLsbD_eq
  intro i hi
  rw [byteOfBits_getLsbD _ _ hi]
  simp [bitsOfByte, hi]

theorem bitsOfByte_byteOfBits (l : List Bool) (h : l.length = 8) : bitsOfByte (byteOfBits l) = l := by
  apply List.ext_getElem
  · simp [h]
  · intro i h1 h2
    rw [bitsOfByte_getElem, byteOfBits_getLsbD _ _ (by omega)]
    simp [h2]

@[simp] theorem bitsOf_nil : bitsOf [] = [] := rfl

@[simp] theorem bitsOf_cons (b : Byte) (bs : List Byte) : bitsOf (b :: bs) = bitsOfByte b ++ bitsOf bs := rfl

@[simp] theorem bitsOf_append (a b : List Byte) : bitsOf (a ++ b) = bitsOf a ++ bitsOf b := by simp [bitsOf]

@[simp] theorem bitsOf_length (bs : List Byte) : (bitsOf bs).length = 8 * bs.length := by
  induction bs with
  | nil => rfl
  | cons b bs ih => simp [ih]; omega

theorem bitsOf_inj {a b : List Byte} (h : bitsOf a = bitsOf b) : a = b := by
  induction a generalizing b with
  | nil =>
    cases b with
    | nil => rfl
    | cons y ys => have := congrArg List.length h; simp at this; omega
  | cons x xs ih =>
    cases b with
    | nil => have := congrArg List.length h; simp at this
    | cons y ys =>
      simp only [bitsOf_cons] at h
      obtain ⟨h1, h2⟩ := List.append_inj h (by simp)
      rw [bitsOfByte_inj h1, ih h2]

/-- A byte below `2^k` has no bit set at `k` or above. -/
theorem getLsbD_of_small {c : Byte} {k i : Nat} (h : c.toNat < 2 ^ k) (hi : k ≤ i) : c.getLsbD i = false := by
  rw [BitVec.getLsbD, Nat.testBit_eq_false_of_lt (Nat.lt_of_lt_of_le h (Nat.pow_le_pow_right (by omega) hi))]

/-- A byte with no bit set at `k` or above is below `2^k`. -/
theorem small_of_getLsbD {c : Byte} {k : Nat} (h : ∀ i, k ≤ i → c.getLsbD i = false) : c.toNat < 2 ^ k :=
  Nat.lt_pow_two_of_testBit _ fun i hi => h i hi

/-- Consuming the least significant cached bit (R100). -/
theorem take_bits_shift (c : Byte) (k : Nat) (h : k + 1 ≤ 8) :
    (bitsOfByte c).take (k + 1) = c.getLsbD 0 :: (bitsOfByte (c >>> 1)).take k := by
  rw [take_bitsOfByte _ _ h, take_bitsOfByte _ _ (by omega), List.range_succ_eq_map]
  simp [Function.comp_def, Nat.add_comm]

/-- Reassembly across the boundary (R101): `k` cached bits, then the new byte's bits, of which the last `k` stay. -/
theorem reassemble (c b : Byte) (k : Nat) (hk : k ≤ 8) (hc : c.toNat < 2 ^ k) :
    (bitsOfByte c).take k ++ bitsOfByte b = bitsOfByte (c ||| (b <<< k)) ++ (bitsOfByte (b >>> (8 - k))).take k := by
  apply List.ext_getElem
  · simp; omega
  · intro i h1 h2
    have h0 : i < k + 8 := by simpa [hk] using h1
    have hl : ((bitsOfByte c).take k).length = k := by simp [hk]
    by_cases a : i < k
    · rw [List.getElem_append_left (by omega), List.getElem_append_left (by simp; omega)]
      simp [bitsOfByte_getElem, a, -BitVec.getLsbD_eq_getElem]
    · rw [List.getElem_append_right (by omega)]
      by_cases a8 : i < 8
      · rw [List.getElem_append_left (by simp; omega)]
        simp [bitsOfByte_getElem, a, hl, a8, getLsbD_of_small hc (by omega : k ≤ i), -BitVec.getLsbD_eq_getElem]
      · rw [List.getElem_append_right (by simp; omega)]
        simp only [hl, List.getElem_take, bitsOfByte_getElem, bitsOfByte_length, BitVec.getLsbD_ushiftRight]
        congr 1; omega

/-- The bits kept of the new byte stay below `2^k`. -/
theorem shift_small (b : Byte) (k : Nat) (hk : k ≤ 8) : (b >>> (8 - k)).toNat < 2 ^ k := by
  apply small_of_getLsbD
  intro i hi
  simp only [BitVec.getLsbD_ushiftRight]
  exact BitVec.getLsbD_of_ge _ _ (by omega)

/-- Writing a bit at position `k` of a cache below `2^k` (R120). -/
theorem take_bits_set (c : Byte) (k : Nat) (b : Bool) (hk : k < 8) (hc : c.toNat < 2 ^ k) :
    (bitsOfByte (if b then c ||| (1#8 <<< k) else c)).take (k + 1) = (bitsOfByte c).take k ++ [b] := by
  rw [take_bitsOfByte _ _ (by omega), take_bitsOfByte _ _ (by omega), List.range_succ, List.map_append]
  congr 1
  · apply List.map_congr_left
    intro i hi
    have hi : i < k := by simpa using hi
    cases b <;> simp [hi]
  · cases b <;> simp [getLsbD_of_small hc (Nat.le_refl k), hk, -BitVec.getLsbD_eq_getElem]

/-- Setting bit `k` keeps a cache below `2^k` below `2^(k+1)` (R28). -/
theorem set_small (c : Byte) (k : Nat) (b : Bool) (hc : c.toNat < 2 ^ k) :
    (if b then c ||| (1#8 <<< k) else c).toNat < 2 ^ (k + 1) := by
  apply small_of_getLsbD
  intro i hi
  have h1 := getLsbD_of_small hc (i := i) (by omega)
  cases b
  · simpa using h1
  · simp [h1, BitVec.getLsbD_one]; omega

theorem take_eight_bits (c : Byte) : (bitsOfByte c).take 8 = bitsOfByte c := List.take_of_length_le (by simp)

/-- The high bits of a cache below `2^k` are zeros: what AlignW pads with (R122). -/
theorem padded_bits (c : Byte) (k : Nat) (hk : k ≤ 8) (hc : c.toNat < 2 ^ k) :
    bitsOfByte c = (bitsOfByte c).take k ++ List.replicate (8 - k) false := by
  apply List.ext_getElem
  · simp; omega
  · intro i h1 h2
    rw [List.getElem_append]
    split
    · simp [bitsOfByte_getElem]
    · rename_i h3
      simp only [List.length_take, bitsOfByte_length] at h3
      simp [bitsOfByte_getElem, getLsbD_of_small hc (i := i) (by omega)]

end Sys2Proof.Machine
end

