-- ==== Sys2Proof/Laws/State.lean ====
section
/-! SUPPORT. One lemma per field per register write, true by rfl, so that no later proof unfolds a record update. -/

namespace Sys2Proof.Machine

variable (s : State)

@[simp] theorem State.setReader_par (c : Byte) (r : Fin 9) : (s.setReader c r).par = s.par := rfl
@[simp] theorem State.setReader_rdCache (c : Byte) (r : Fin 9) : (s.setReader c r).rdCache = c := rfl
@[simp] theorem State.setReader_rdRem (c : Byte) (r : Fin 9) : (s.setReader c r).rdRem = r := rfl
@[simp] theorem State.setReader_wrCache (c : Byte) (r : Fin 9) : (s.setReader c r).wrCache = s.wrCache := rfl
@[simp] theorem State.setReader_wrCnt (c : Byte) (r : Fin 9) : (s.setReader c r).wrCnt = s.wrCnt := rfl
@[simp] theorem State.setReader_wrClosed (c : Byte) (r : Fin 9) : (s.setReader c r).wrClosed = s.wrClosed := rfl
@[simp] theorem State.setReader_ctLen (c : Byte) (r : Fin 9) : (s.setReader c r).ctLen = s.ctLen := rfl
@[simp] theorem State.setReader_ctBits (c : Byte) (r : Fin 9) : (s.setReader c r).ctBits = s.ctBits := rfl
@[simp] theorem State.setReader_nodes (c : Byte) (r : Fin 9) : (s.setReader c r).nodes = s.nodes := rfl
@[simp] theorem State.setReader_decCount (c : Byte) (r : Fin 9) : (s.setReader c r).decCount = s.decCount := rfl
@[simp] theorem State.setReader_encCount (c : Byte) (r : Fin 9) : (s.setReader c r).encCount = s.encCount := rfl
@[simp] theorem State.setReader_fault (c : Byte) (r : Fin 9) : (s.setReader c r).fault = s.fault := rfl
@[simp] theorem State.setReader_cmdSeq (c : Byte) (r : Fin 9) : (s.setReader c r).cmdSeq = s.cmdSeq := rfl
@[simp] theorem State.setReader_inPos (c : Byte) (r : Fin 9) : (s.setReader c r).inPos = s.inPos := rfl
@[simp] theorem State.setReader_outBytes (c : Byte) (r : Fin 9) : (s.setReader c r).outBytes = s.outBytes := rfl
@[simp] theorem State.setReader_outEvents (c : Byte) (r : Fin 9) : (s.setReader c r).outEvents = s.outEvents := rfl
@[simp] theorem State.setReader_cmd (c : Byte) (r : Fin 9) : (s.setReader c r).cmd = s.cmd := rfl
@[simp] theorem State.setReader_resp (c : Byte) (r : Fin 9) : (s.setReader c r).resp = s.resp := rfl

@[simp] theorem State.setWriter_par (c : Byte) (n : Fin 8) : (s.setWriter c n).par = s.par := rfl
@[simp] theorem State.setWriter_rdCache (c : Byte) (n : Fin 8) : (s.setWriter c n).rdCache = s.rdCache := rfl
@[simp] theorem State.setWriter_rdRem (c : Byte) (n : Fin 8) : (s.setWriter c n).rdRem = s.rdRem := rfl
@[simp] theorem State.setWriter_wrCache (c : Byte) (n : Fin 8) : (s.setWriter c n).wrCache = c := rfl
@[simp] theorem State.setWriter_wrCnt (c : Byte) (n : Fin 8) : (s.setWriter c n).wrCnt = n := rfl
@[simp] theorem State.setWriter_wrClosed (c : Byte) (n : Fin 8) : (s.setWriter c n).wrClosed = s.wrClosed := rfl
@[simp] theorem State.setWriter_ctLen (c : Byte) (n : Fin 8) : (s.setWriter c n).ctLen = s.ctLen := rfl
@[simp] theorem State.setWriter_ctBits (c : Byte) (n : Fin 8) : (s.setWriter c n).ctBits = s.ctBits := rfl
@[simp] theorem State.setWriter_nodes (c : Byte) (n : Fin 8) : (s.setWriter c n).nodes = s.nodes := rfl
@[simp] theorem State.setWriter_decCount (c : Byte) (n : Fin 8) : (s.setWriter c n).decCount = s.decCount := rfl
@[simp] theorem State.setWriter_encCount (c : Byte) (n : Fin 8) : (s.setWriter c n).encCount = s.encCount := rfl
@[simp] theorem State.setWriter_fault (c : Byte) (n : Fin 8) : (s.setWriter c n).fault = s.fault := rfl
@[simp] theorem State.setWriter_cmdSeq (c : Byte) (n : Fin 8) : (s.setWriter c n).cmdSeq = s.cmdSeq := rfl
@[simp] theorem State.setWriter_inPos (c : Byte) (n : Fin 8) : (s.setWriter c n).inPos = s.inPos := rfl
@[simp] theorem State.setWriter_outBytes (c : Byte) (n : Fin 8) : (s.setWriter c n).outBytes = s.outBytes := rfl
@[simp] theorem State.setWriter_outEvents (c : Byte) (n : Fin 8) : (s.setWriter c n).outEvents = s.outEvents := rfl
@[simp] theorem State.setWriter_cmd (c : Byte) (n : Fin 8) : (s.setWriter c n).cmd = s.cmd := rfl
@[simp] theorem State.setWriter_resp (c : Byte) (n : Fin 8) : (s.setWriter c n).resp = s.resp := rfl

@[simp] theorem State.close_par : s.close.par = s.par := rfl
@[simp] theorem State.close_rdCache : s.close.rdCache = s.rdCache := rfl
@[simp] theorem State.close_rdRem : s.close.rdRem = s.rdRem := rfl
@[simp] theorem State.close_wrCache : s.close.wrCache = s.wrCache := rfl
@[simp] theorem State.close_wrCnt : s.close.wrCnt = s.wrCnt := rfl
@[simp] theorem State.close_wrClosed : s.close.wrClosed = true := rfl
@[simp] theorem State.close_ctLen : s.close.ctLen = s.ctLen := rfl
@[simp] theorem State.close_ctBits : s.close.ctBits = s.ctBits := rfl
@[simp] theorem State.close_nodes : s.close.nodes = s.nodes := rfl
@[simp] theorem State.close_decCount : s.close.decCount = s.decCount := rfl
@[simp] theorem State.close_encCount : s.close.encCount = s.encCount := rfl
@[simp] theorem State.close_fault : s.close.fault = s.fault := rfl
@[simp] theorem State.close_cmdSeq : s.close.cmdSeq = s.cmdSeq := rfl
@[simp] theorem State.close_inPos : s.close.inPos = s.inPos := rfl
@[simp] theorem State.close_outBytes : s.close.outBytes = s.outBytes := rfl
@[simp] theorem State.close_outEvents : s.close.outEvents = s.outEvents := rfl
@[simp] theorem State.close_cmd : s.close.cmd = s.cmd := rfl
@[simp] theorem State.close_resp : s.close.resp = s.resp := rfl

@[simp] theorem State.setCode_par (y l : Byte) (b : List Bool) : (s.setCode y l b).par = s.par := rfl
@[simp] theorem State.setCode_rdCache (y l : Byte) (b : List Bool) : (s.setCode y l b).rdCache = s.rdCache := rfl
@[simp] theorem State.setCode_rdRem (y l : Byte) (b : List Bool) : (s.setCode y l b).rdRem = s.rdRem := rfl
@[simp] theorem State.setCode_wrCache (y l : Byte) (b : List Bool) : (s.setCode y l b).wrCache = s.wrCache := rfl
@[simp] theorem State.setCode_wrCnt (y l : Byte) (b : List Bool) : (s.setCode y l b).wrCnt = s.wrCnt := rfl
@[simp] theorem State.setCode_wrClosed (y l : Byte) (b : List Bool) : (s.setCode y l b).wrClosed = s.wrClosed := rfl
@[simp] theorem State.setCode_ctLen (y l : Byte) (b : List Bool) : (s.setCode y l b).ctLen = s.ctLen.set y.toNat l y.isLt := rfl
@[simp] theorem State.setCode_ctBits (y l : Byte) (b : List Bool) : (s.setCode y l b).ctBits = s.ctBits.set y.toNat b y.isLt := rfl
@[simp] theorem State.setCode_nodes (y l : Byte) (b : List Bool) : (s.setCode y l b).nodes = s.nodes := rfl
@[simp] theorem State.setCode_decCount (y l : Byte) (b : List Bool) : (s.setCode y l b).decCount = s.decCount := rfl
@[simp] theorem State.setCode_encCount (y l : Byte) (b : List Bool) : (s.setCode y l b).encCount = s.encCount := rfl
@[simp] theorem State.setCode_fault (y l : Byte) (b : List Bool) : (s.setCode y l b).fault = s.fault := rfl
@[simp] theorem State.setCode_cmdSeq (y l : Byte) (b : List Bool) : (s.setCode y l b).cmdSeq = s.cmdSeq := rfl
@[simp] theorem State.setCode_inPos (y l : Byte) (b : List Bool) : (s.setCode y l b).inPos = s.inPos := rfl
@[simp] theorem State.setCode_outBytes (y l : Byte) (b : List Bool) : (s.setCode y l b).outBytes = s.outBytes := rfl
@[simp] theorem State.setCode_outEvents (y l : Byte) (b : List Bool) : (s.setCode y l b).outEvents = s.outEvents := rfl
@[simp] theorem State.setCode_cmd (y l : Byte) (b : List Bool) : (s.setCode y l b).cmd = s.cmd := rfl
@[simp] theorem State.setCode_resp (y l : Byte) (b : List Bool) : (s.setCode y l b).resp = s.resp := rfl

@[simp] theorem State.clearCodes_par : s.clearCodes.par = s.par := rfl
@[simp] theorem State.clearCodes_rdCache : s.clearCodes.rdCache = s.rdCache := rfl
@[simp] theorem State.clearCodes_rdRem : s.clearCodes.rdRem = s.rdRem := rfl
@[simp] theorem State.clearCodes_wrCache : s.clearCodes.wrCache = s.wrCache := rfl
@[simp] theorem State.clearCodes_wrCnt : s.clearCodes.wrCnt = s.wrCnt := rfl
@[simp] theorem State.clearCodes_wrClosed : s.clearCodes.wrClosed = s.wrClosed := rfl
@[simp] theorem State.clearCodes_ctLen : s.clearCodes.ctLen = Vector.replicate 256 0#8 := rfl
@[simp] theorem State.clearCodes_ctBits : s.clearCodes.ctBits = s.ctBits := rfl
@[simp] theorem State.clearCodes_nodes : s.clearCodes.nodes = s.nodes := rfl
@[simp] theorem State.clearCodes_decCount : s.clearCodes.decCount = s.decCount := rfl
@[simp] theorem State.clearCodes_encCount : s.clearCodes.encCount = s.encCount := rfl
@[simp] theorem State.clearCodes_fault : s.clearCodes.fault = s.fault := rfl
@[simp] theorem State.clearCodes_cmdSeq : s.clearCodes.cmdSeq = s.cmdSeq := rfl
@[simp] theorem State.clearCodes_inPos : s.clearCodes.inPos = s.inPos := rfl
@[simp] theorem State.clearCodes_outBytes : s.clearCodes.outBytes = s.outBytes := rfl
@[simp] theorem State.clearCodes_outEvents : s.clearCodes.outEvents = s.outEvents := rfl
@[simp] theorem State.clearCodes_cmd : s.clearCodes.cmd = s.cmd := rfl
@[simp] theorem State.clearCodes_resp : s.clearCodes.resp = s.resp := rfl

@[simp] theorem State.setNodes_par (v : List Node) : (s.setNodes v).par = s.par := rfl
@[simp] theorem State.setNodes_rdCache (v : List Node) : (s.setNodes v).rdCache = s.rdCache := rfl
@[simp] theorem State.setNodes_rdRem (v : List Node) : (s.setNodes v).rdRem = s.rdRem := rfl
@[simp] theorem State.setNodes_wrCache (v : List Node) : (s.setNodes v).wrCache = s.wrCache := rfl
@[simp] theorem State.setNodes_wrCnt (v : List Node) : (s.setNodes v).wrCnt = s.wrCnt := rfl
@[simp] theorem State.setNodes_wrClosed (v : List Node) : (s.setNodes v).wrClosed = s.wrClosed := rfl
@[simp] theorem State.setNodes_ctLen (v : List Node) : (s.setNodes v).ctLen = s.ctLen := rfl
@[simp] theorem State.setNodes_ctBits (v : List Node) : (s.setNodes v).ctBits = s.ctBits := rfl
@[simp] theorem State.setNodes_nodes (v : List Node) : (s.setNodes v).nodes = v := rfl
@[simp] theorem State.setNodes_decCount (v : List Node) : (s.setNodes v).decCount = s.decCount := rfl
@[simp] theorem State.setNodes_encCount (v : List Node) : (s.setNodes v).encCount = s.encCount := rfl
@[simp] theorem State.setNodes_fault (v : List Node) : (s.setNodes v).fault = s.fault := rfl
@[simp] theorem State.setNodes_cmdSeq (v : List Node) : (s.setNodes v).cmdSeq = s.cmdSeq := rfl
@[simp] theorem State.setNodes_inPos (v : List Node) : (s.setNodes v).inPos = s.inPos := rfl
@[simp] theorem State.setNodes_outBytes (v : List Node) : (s.setNodes v).outBytes = s.outBytes := rfl
@[simp] theorem State.setNodes_outEvents (v : List Node) : (s.setNodes v).outEvents = s.outEvents := rfl
@[simp] theorem State.setNodes_cmd (v : List Node) : (s.setNodes v).cmd = s.cmd := rfl
@[simp] theorem State.setNodes_resp (v : List Node) : (s.setNodes v).resp = s.resp := rfl

@[simp] theorem State.setDecCount_par (v : U64) : (s.setDecCount v).par = s.par := rfl
@[simp] theorem State.setDecCount_rdCache (v : U64) : (s.setDecCount v).rdCache = s.rdCache := rfl
@[simp] theorem State.setDecCount_rdRem (v : U64) : (s.setDecCount v).rdRem = s.rdRem := rfl
@[simp] theorem State.setDecCount_wrCache (v : U64) : (s.setDecCount v).wrCache = s.wrCache := rfl
@[simp] theorem State.setDecCount_wrCnt (v : U64) : (s.setDecCount v).wrCnt = s.wrCnt := rfl
@[simp] theorem State.setDecCount_wrClosed (v : U64) : (s.setDecCount v).wrClosed = s.wrClosed := rfl
@[simp] theorem State.setDecCount_ctLen (v : U64) : (s.setDecCount v).ctLen = s.ctLen := rfl
@[simp] theorem State.setDecCount_ctBits (v : U64) : (s.setDecCount v).ctBits = s.ctBits := rfl
@[simp] theorem State.setDecCount_nodes (v : U64) : (s.setDecCount v).nodes = s.nodes := rfl
@[simp] theorem State.setDecCount_decCount (v : U64) : (s.setDecCount v).decCount = v := rfl
@[simp] theorem State.setDecCount_encCount (v : U64) : (s.setDecCount v).encCount = s.encCount := rfl
@[simp] theorem State.setDecCount_fault (v : U64) : (s.setDecCount v).fault = s.fault := rfl
@[simp] theorem State.setDecCount_cmdSeq (v : U64) : (s.setDecCount v).cmdSeq = s.cmdSeq := rfl
@[simp] theorem State.setDecCount_inPos (v : U64) : (s.setDecCount v).inPos = s.inPos := rfl
@[simp] theorem State.setDecCount_outBytes (v : U64) : (s.setDecCount v).outBytes = s.outBytes := rfl
@[simp] theorem State.setDecCount_outEvents (v : U64) : (s.setDecCount v).outEvents = s.outEvents := rfl
@[simp] theorem State.setDecCount_cmd (v : U64) : (s.setDecCount v).cmd = s.cmd := rfl
@[simp] theorem State.setDecCount_resp (v : U64) : (s.setDecCount v).resp = s.resp := rfl

@[simp] theorem State.setEncCount_par (v : U64) : (s.setEncCount v).par = s.par := rfl
@[simp] theorem State.setEncCount_rdCache (v : U64) : (s.setEncCount v).rdCache = s.rdCache := rfl
@[simp] theorem State.setEncCount_rdRem (v : U64) : (s.setEncCount v).rdRem = s.rdRem := rfl
@[simp] theorem State.setEncCount_wrCache (v : U64) : (s.setEncCount v).wrCache = s.wrCache := rfl
@[simp] theorem State.setEncCount_wrCnt (v : U64) : (s.setEncCount v).wrCnt = s.wrCnt := rfl
@[simp] theorem State.setEncCount_wrClosed (v : U64) : (s.setEncCount v).wrClosed = s.wrClosed := rfl
@[simp] theorem State.setEncCount_ctLen (v : U64) : (s.setEncCount v).ctLen = s.ctLen := rfl
@[simp] theorem State.setEncCount_ctBits (v : U64) : (s.setEncCount v).ctBits = s.ctBits := rfl
@[simp] theorem State.setEncCount_nodes (v : U64) : (s.setEncCount v).nodes = s.nodes := rfl
@[simp] theorem State.setEncCount_decCount (v : U64) : (s.setEncCount v).decCount = s.decCount := rfl
@[simp] theorem State.setEncCount_encCount (v : U64) : (s.setEncCount v).encCount = v := rfl
@[simp] theorem State.setEncCount_fault (v : U64) : (s.setEncCount v).fault = s.fault := rfl
@[simp] theorem State.setEncCount_cmdSeq (v : U64) : (s.setEncCount v).cmdSeq = s.cmdSeq := rfl
@[simp] theorem State.setEncCount_inPos (v : U64) : (s.setEncCount v).inPos = s.inPos := rfl
@[simp] theorem State.setEncCount_outBytes (v : U64) : (s.setEncCount v).outBytes = s.outBytes := rfl
@[simp] theorem State.setEncCount_outEvents (v : U64) : (s.setEncCount v).outEvents = s.outEvents := rfl
@[simp] theorem State.setEncCount_cmd (v : U64) : (s.setEncCount v).cmd = s.cmd := rfl
@[simp] theorem State.setEncCount_resp (v : U64) : (s.setEncCount v).resp = s.resp := rfl

@[simp] theorem State.setFault_par (v : Byte) : (s.setFault v).par = s.par := rfl
@[simp] theorem State.setFault_rdCache (v : Byte) : (s.setFault v).rdCache = s.rdCache := rfl
@[simp] theorem State.setFault_rdRem (v : Byte) : (s.setFault v).rdRem = s.rdRem := rfl
@[simp] theorem State.setFault_wrCache (v : Byte) : (s.setFault v).wrCache = s.wrCache := rfl
@[simp] theorem State.setFault_wrCnt (v : Byte) : (s.setFault v).wrCnt = s.wrCnt := rfl
@[simp] theorem State.setFault_wrClosed (v : Byte) : (s.setFault v).wrClosed = s.wrClosed := rfl
@[simp] theorem State.setFault_ctLen (v : Byte) : (s.setFault v).ctLen = s.ctLen := rfl
@[simp] theorem State.setFault_ctBits (v : Byte) : (s.setFault v).ctBits = s.ctBits := rfl
@[simp] theorem State.setFault_nodes (v : Byte) : (s.setFault v).nodes = s.nodes := rfl
@[simp] theorem State.setFault_decCount (v : Byte) : (s.setFault v).decCount = s.decCount := rfl
@[simp] theorem State.setFault_encCount (v : Byte) : (s.setFault v).encCount = s.encCount := rfl
@[simp] theorem State.setFault_fault (v : Byte) : (s.setFault v).fault = v := rfl
@[simp] theorem State.setFault_cmdSeq (v : Byte) : (s.setFault v).cmdSeq = s.cmdSeq := rfl
@[simp] theorem State.setFault_inPos (v : Byte) : (s.setFault v).inPos = s.inPos := rfl
@[simp] theorem State.setFault_outBytes (v : Byte) : (s.setFault v).outBytes = s.outBytes := rfl
@[simp] theorem State.setFault_outEvents (v : Byte) : (s.setFault v).outEvents = s.outEvents := rfl
@[simp] theorem State.setFault_cmd (v : Byte) : (s.setFault v).cmd = s.cmd := rfl
@[simp] theorem State.setFault_resp (v : Byte) : (s.setFault v).resp = s.resp := rfl

@[simp] theorem State.setInPos_par (v : Nat) : (s.setInPos v).par = s.par := rfl
@[simp] theorem State.setInPos_rdCache (v : Nat) : (s.setInPos v).rdCache = s.rdCache := rfl
@[simp] theorem State.setInPos_rdRem (v : Nat) : (s.setInPos v).rdRem = s.rdRem := rfl
@[simp] theorem State.setInPos_wrCache (v : Nat) : (s.setInPos v).wrCache = s.wrCache := rfl
@[simp] theorem State.setInPos_wrCnt (v : Nat) : (s.setInPos v).wrCnt = s.wrCnt := rfl
@[simp] theorem State.setInPos_wrClosed (v : Nat) : (s.setInPos v).wrClosed = s.wrClosed := rfl
@[simp] theorem State.setInPos_ctLen (v : Nat) : (s.setInPos v).ctLen = s.ctLen := rfl
@[simp] theorem State.setInPos_ctBits (v : Nat) : (s.setInPos v).ctBits = s.ctBits := rfl
@[simp] theorem State.setInPos_nodes (v : Nat) : (s.setInPos v).nodes = s.nodes := rfl
@[simp] theorem State.setInPos_decCount (v : Nat) : (s.setInPos v).decCount = s.decCount := rfl
@[simp] theorem State.setInPos_encCount (v : Nat) : (s.setInPos v).encCount = s.encCount := rfl
@[simp] theorem State.setInPos_fault (v : Nat) : (s.setInPos v).fault = s.fault := rfl
@[simp] theorem State.setInPos_cmdSeq (v : Nat) : (s.setInPos v).cmdSeq = s.cmdSeq := rfl
@[simp] theorem State.setInPos_inPos (v : Nat) : (s.setInPos v).inPos = v := rfl
@[simp] theorem State.setInPos_outBytes (v : Nat) : (s.setInPos v).outBytes = s.outBytes := rfl
@[simp] theorem State.setInPos_outEvents (v : Nat) : (s.setInPos v).outEvents = s.outEvents := rfl
@[simp] theorem State.setInPos_cmd (v : Nat) : (s.setInPos v).cmd = s.cmd := rfl
@[simp] theorem State.setInPos_resp (v : Nat) : (s.setInPos v).resp = s.resp := rfl

@[simp] theorem State.setOut_par (b : List Byte) (e : List SinkEvent) : (s.setOut b e).par = s.par := rfl
@[simp] theorem State.setOut_rdCache (b : List Byte) (e : List SinkEvent) : (s.setOut b e).rdCache = s.rdCache := rfl
@[simp] theorem State.setOut_rdRem (b : List Byte) (e : List SinkEvent) : (s.setOut b e).rdRem = s.rdRem := rfl
@[simp] theorem State.setOut_wrCache (b : List Byte) (e : List SinkEvent) : (s.setOut b e).wrCache = s.wrCache := rfl
@[simp] theorem State.setOut_wrCnt (b : List Byte) (e : List SinkEvent) : (s.setOut b e).wrCnt = s.wrCnt := rfl
@[simp] theorem State.setOut_wrClosed (b : List Byte) (e : List SinkEvent) : (s.setOut b e).wrClosed = s.wrClosed := rfl
@[simp] theorem State.setOut_ctLen (b : List Byte) (e : List SinkEvent) : (s.setOut b e).ctLen = s.ctLen := rfl
@[simp] theorem State.setOut_ctBits (b : List Byte) (e : List SinkEvent) : (s.setOut b e).ctBits = s.ctBits := rfl
@[simp] theorem State.setOut_nodes (b : List Byte) (e : List SinkEvent) : (s.setOut b e).nodes = s.nodes := rfl
@[simp] theorem State.setOut_decCount (b : List Byte) (e : List SinkEvent) : (s.setOut b e).decCount = s.decCount := rfl
@[simp] theorem State.setOut_encCount (b : List Byte) (e : List SinkEvent) : (s.setOut b e).encCount = s.encCount := rfl
@[simp] theorem State.setOut_fault (b : List Byte) (e : List SinkEvent) : (s.setOut b e).fault = s.fault := rfl
@[simp] theorem State.setOut_cmdSeq (b : List Byte) (e : List SinkEvent) : (s.setOut b e).cmdSeq = s.cmdSeq := rfl
@[simp] theorem State.setOut_inPos (b : List Byte) (e : List SinkEvent) : (s.setOut b e).inPos = s.inPos := rfl
@[simp] theorem State.setOut_outBytes (b : List Byte) (e : List SinkEvent) : (s.setOut b e).outBytes = b := rfl
@[simp] theorem State.setOut_outEvents (b : List Byte) (e : List SinkEvent) : (s.setOut b e).outEvents = e := rfl
@[simp] theorem State.setOut_cmd (b : List Byte) (e : List SinkEvent) : (s.setOut b e).cmd = s.cmd := rfl
@[simp] theorem State.setOut_resp (b : List Byte) (e : List SinkEvent) : (s.setOut b e).resp = s.resp := rfl

@[simp] theorem State.setCmd_par (v : List Byte) : (s.setCmd v).par = s.par := rfl
@[simp] theorem State.setCmd_rdCache (v : List Byte) : (s.setCmd v).rdCache = s.rdCache := rfl
@[simp] theorem State.setCmd_rdRem (v : List Byte) : (s.setCmd v).rdRem = s.rdRem := rfl
@[simp] theorem State.setCmd_wrCache (v : List Byte) : (s.setCmd v).wrCache = s.wrCache := rfl
@[simp] theorem State.setCmd_wrCnt (v : List Byte) : (s.setCmd v).wrCnt = s.wrCnt := rfl
@[simp] theorem State.setCmd_wrClosed (v : List Byte) : (s.setCmd v).wrClosed = s.wrClosed := rfl
@[simp] theorem State.setCmd_ctLen (v : List Byte) : (s.setCmd v).ctLen = s.ctLen := rfl
@[simp] theorem State.setCmd_ctBits (v : List Byte) : (s.setCmd v).ctBits = s.ctBits := rfl
@[simp] theorem State.setCmd_nodes (v : List Byte) : (s.setCmd v).nodes = s.nodes := rfl
@[simp] theorem State.setCmd_decCount (v : List Byte) : (s.setCmd v).decCount = s.decCount := rfl
@[simp] theorem State.setCmd_encCount (v : List Byte) : (s.setCmd v).encCount = s.encCount := rfl
@[simp] theorem State.setCmd_fault (v : List Byte) : (s.setCmd v).fault = s.fault := rfl
@[simp] theorem State.setCmd_cmdSeq (v : List Byte) : (s.setCmd v).cmdSeq = s.cmdSeq := rfl
@[simp] theorem State.setCmd_inPos (v : List Byte) : (s.setCmd v).inPos = s.inPos := rfl
@[simp] theorem State.setCmd_outBytes (v : List Byte) : (s.setCmd v).outBytes = s.outBytes := rfl
@[simp] theorem State.setCmd_outEvents (v : List Byte) : (s.setCmd v).outEvents = s.outEvents := rfl
@[simp] theorem State.setCmd_cmd (v : List Byte) : (s.setCmd v).cmd = v := rfl
@[simp] theorem State.setCmd_resp (v : List Byte) : (s.setCmd v).resp = s.resp := rfl

@[simp] theorem State.answer_par (r : List Byte) : (s.answer r).par = s.par := rfl
@[simp] theorem State.answer_rdCache (r : List Byte) : (s.answer r).rdCache = s.rdCache := rfl
@[simp] theorem State.answer_rdRem (r : List Byte) : (s.answer r).rdRem = s.rdRem := rfl
@[simp] theorem State.answer_wrCache (r : List Byte) : (s.answer r).wrCache = s.wrCache := rfl
@[simp] theorem State.answer_wrCnt (r : List Byte) : (s.answer r).wrCnt = s.wrCnt := rfl
@[simp] theorem State.answer_wrClosed (r : List Byte) : (s.answer r).wrClosed = s.wrClosed := rfl
@[simp] theorem State.answer_ctLen (r : List Byte) : (s.answer r).ctLen = s.ctLen := rfl
@[simp] theorem State.answer_ctBits (r : List Byte) : (s.answer r).ctBits = s.ctBits := rfl
@[simp] theorem State.answer_nodes (r : List Byte) : (s.answer r).nodes = s.nodes := rfl
@[simp] theorem State.answer_decCount (r : List Byte) : (s.answer r).decCount = s.decCount := rfl
@[simp] theorem State.answer_encCount (r : List Byte) : (s.answer r).encCount = s.encCount := rfl
@[simp] theorem State.answer_fault (r : List Byte) : (s.answer r).fault = s.fault := rfl
@[simp] theorem State.answer_cmdSeq (r : List Byte) : (s.answer r).cmdSeq = s.cmdSeq + 1 := rfl
@[simp] theorem State.answer_inPos (r : List Byte) : (s.answer r).inPos = s.inPos := rfl
@[simp] theorem State.answer_outBytes (r : List Byte) : (s.answer r).outBytes = s.outBytes := rfl
@[simp] theorem State.answer_outEvents (r : List Byte) : (s.answer r).outEvents = s.outEvents := rfl
@[simp] theorem State.answer_cmd (r : List Byte) : (s.answer r).cmd = s.cmd := rfl
@[simp] theorem State.answer_resp (r : List Byte) : (s.answer r).resp = s.resp ++ [r] := rfl

@[simp] theorem State.clearTrie_eq : s.clearTrie = s.setNodes [Node.fresh] := rfl
@[simp] theorem State.setReader_self : s.setReader s.rdCache s.rdRem = s := rfl
@[simp] theorem State.setWriter_self : s.setWriter s.wrCache s.wrCnt = s := rfl
@[simp] theorem State.setInPos_self : s.setInPos s.inPos = s := rfl

end Sys2Proof.Machine
end

