-- ==== Sys2Proof/Laws/Ops.lean ====
section
/-! SUPPORT. What the shared operations can do, said once: sequencing, the command template, the ports. -/

namespace Sys2Proof.Machine

/-- What a helper's result satisfies: `P` when it returns, `Q` when it raises. -/
def Res.Post {α : Type} (r : Res α) (P : α → State → Prop) (Q : FaultKind → State → Prop) : Prop :=
  match r with
  | .ok a s => P a s
  | .raise f s => Q f s

@[simp] theorem Res.post_ok {α : Type} (a : α) (s : State) (P : α → State → Prop) (Q : FaultKind → State → Prop) :
    (Res.ok a s).Post P Q = P a s := rfl

@[simp] theorem Res.post_raise {α : Type} (f : FaultKind) (s : State) (P : α → State → Prop)
    (Q : FaultKind → State → Prop) : (Res.raise f s : Res α).Post P Q = Q f s := rfl

@[simp] theorem Res.andThen_ok {α β : Type} (a : α) (s : State) (k : α → State → Res β) :
    (Res.ok a s).andThen k = k a s := rfl

@[simp] theorem Res.andThen_raise {α β : Type} (f : FaultKind) (s : State) (k : α → State → Res β) :
    (Res.raise f s : Res α).andThen k = .raise f s := rfl

theorem Res.andThen_assoc {α β γ : Type} (r : Res α) (k : α → State → Res β) (l : β → State → Res γ) :
    (r.andThen k).andThen l = r.andThen fun a s => (k a s).andThen l := by cases r <;> rfl

/-- Sequencing two helpers. -/
theorem Res.Post.andThen {α β : Type} {r : Res α} {k : α → State → Res β} {P : α → State → Prop} {R : β → State → Prop}
    {Q : FaultKind → State → Prop} (h : r.Post P Q) (hk : ∀ a s, P a s → (k a s).Post R Q) : (r.andThen k).Post R Q := by
  cases r with
  | ok a s => exact hk a s h
  | raise f s => exact h

theorem Res.Post.mono {α : Type} {r : Res α} {P P' : α → State → Prop} {Q Q' : FaultKind → State → Prop} (h : r.Post P Q)
    (hP : ∀ a s, P a s → P' a s) (hQ : ∀ f s, Q f s → Q' f s) : r.Post P' Q' := by
  cases r with
  | ok a s => exact hP a s h
  | raise f s => exact hQ f s h

theorem Res.Post.and {α : Type} {r : Res α} {P P' : α → State → Prop} {Q Q' : FaultKind → State → Prop} (h : r.Post P Q)
    (h' : r.Post P' Q') : r.Post (fun a s => P a s ∧ P' a s) fun f s => Q f s ∧ Q' f s := by
  cases r with
  | ok a s => exact ⟨h, h'⟩
  | raise f s => exact ⟨h, h'⟩

/-! ### The command template -/

/-- Every command with an entry check answers a next state: the sticky code (R253), a payload, or a fault taken (R252). -/
theorem command_cases (body : State → Res (List Byte)) (s : State) :
    (s.fault ≠ 0x00#8 ∧ command body s = .next (s.answer [s.fault])) ∨
    (s.fault = 0x00#8 ∧ ∃ p t, body s = .ok p t ∧ command body s = .next (t.answer (0x00#8 :: p))) ∨
    (s.fault = 0x00#8 ∧ ∃ f t, body s = .raise f t ∧ command body s = .next (takeFault f t)) := by
  unfold command
  by_cases h : s.fault = 0x00#8
  · rw [if_pos h]
    cases hb : body s with
    | ok p t => exact .inr (.inl ⟨h, p, t, rfl, rfl⟩)
    | raise f t => exact .inr (.inr ⟨h, f, t, rfl, rfl⟩)
  · rw [if_neg h]
    exact .inl ⟨h, rfl⟩

/-- A command answers its payload where its pseudocode returns it. -/
theorem command_ok {body : State → Res (List Byte)} {s t : State} {p : List Byte} (h : s.fault = 0x00#8)
    (hb : body s = .ok p t) : command body s = .next (t.answer (0x00#8 :: p)) := by
  simp [command, h, hb, finish]

/-- A command takes a fault where its pseudocode raises it. -/
theorem command_raise {body : State → Res (List Byte)} {s t : State} {f : FaultKind} (h : s.fault = 0x00#8)
    (hb : body s = .raise f t) : command body s = .next (takeFault f t) := by
  simp [command, h, hb, finish]

/-- The sticky fault (R253). -/
theorem command_sticky {body : State → Res (List Byte)} {s : State} (h : s.fault ≠ 0x00#8) :
    command body s = .next (s.answer [s.fault]) := by
  simp [command, h]

theorem FaultKind.code_ne_zero (f : FaultKind) : f.code ≠ 0x00#8 := by cases f <;> decide

theorem FaultKind.code_le_seven (f : FaultKind) : f.code.toNat ≤ 7 := by cases f <;> decide

/-- Taking a fault while none is pending. -/
theorem takeFault_fresh {f : FaultKind} {s : State} (h : s.fault = 0x00#8) :
    takeFault f s = (s.setFault f.code).answer [f.code] := by simp [takeFault, h]

/-! ### The writer check -/

@[simp] theorem checkWriter_open {s : State} (h : s.wrClosed = false) : checkWriter s = .ok () s := by
  simp [checkWriter, h]

@[simp] theorem checkWriter_closed {s : State} (h : s.wrClosed = true) : checkWriter s = .raise .writerUnusable s := by
  simp [checkWriter, h]

theorem checkWriter_post (s : State) :
    (checkWriter s).Post (fun _ t => t = s ∧ s.wrClosed = false) fun f t => f = .writerUnusable ∧ t = s := by
  cases h : s.wrClosed <;> simp [h]

/-! ### The input port -/

/-- InFetch delivers the next byte or the terminal (R52). -/
theorem inFetch_cases (s : State) :
    (∃ h : s.inPos < s.par.inBytes.length, inFetch s = (.byte s.par.inBytes[s.inPos], s.setInPos (s.inPos + 1))) ∨
    (s.par.inBytes.length ≤ s.inPos ∧ inFetch s = (.term s.par.inTerm, s)) := by
  unfold inFetch
  by_cases h : s.inPos < s.par.inBytes.length
  · exact .inl ⟨h, by simp [h]⟩
  · exact .inr ⟨by omega, by simp [h]⟩

/-! ### The output port -/

/-- OutEmit that the sink answers Ok (R53). -/
theorem outEmit_ok {b : Byte} {s : State} (h : s.sinkOk s.outEvents.length = .ok) :
    outEmit b s = (.ok, s.setOut (s.outBytes ++ [b]) (s.outEvents ++ [.emit b])) := by simp [outEmit, h]

/-- OutEmit that the sink answers Fail: both outcomes for OUT.bytes (R53, U15). -/
theorem outEmit_fail {b : Byte} {s : State} (h : s.sinkOk s.outEvents.length = .fail) :
    ∃ bytes, (bytes = s.outBytes ∨ bytes = s.outBytes ++ [b]) ∧
      outEmit b s = (.fail, s.setOut bytes (s.outEvents ++ [.emit b])) := by
  simp only [outEmit, h]
  split
  · exact ⟨_, .inr rfl, rfl⟩
  · exact ⟨_, .inl rfl, rfl⟩

/-- Everything a sink event of the writer can do: it returns with the byte appended, or raises IO_ERROR with the byte
appended or not (R53, R129). -/
theorem sinkStep_outEmit_cases (b : Byte) (s : State) :
    (s.sinkOk s.outEvents.length = .ok ∧
      sinkStep (outEmit b s) = .ok () (s.setOut (s.outBytes ++ [b]) (s.outEvents ++ [.emit b]))) ∨
    (s.sinkOk s.outEvents.length = .fail ∧
      ∃ bytes, (bytes = s.outBytes ∨ bytes = s.outBytes ++ [b]) ∧
        sinkStep (outEmit b s) = .raise .ioError (s.setOut bytes (s.outEvents ++ [.emit b]))) := by
  cases h : s.sinkOk s.outEvents.length with
  | ok => exact .inl ⟨rfl, by rw [outEmit_ok h]; rfl⟩
  | fail =>
    obtain ⟨bytes, hb, he⟩ := outEmit_fail (b := b) h
    exact .inr ⟨rfl, bytes, hb, by rw [he]; rfl⟩

/-- Everything a flush can do (R53, R129). -/
theorem sinkStep_outFlush_cases (s : State) :
    (s.sinkOk s.outEvents.length = .ok ∧
      sinkStep (outFlush s) = .ok () (s.setOut s.outBytes (s.outEvents ++ [.flush]))) ∨
    (s.sinkOk s.outEvents.length = .fail ∧
      sinkStep (outFlush s) = .raise .ioError (s.setOut s.outBytes (s.outEvents ++ [.flush]))) := by
  unfold outFlush
  cases h : s.sinkOk s.outEvents.length with
  | ok => exact .inl ⟨rfl, rfl⟩
  | fail => exact .inr ⟨rfl, rfl⟩

theorem sinkStep_outEmit_ok {b : Byte} {s : State} (h : s.sinkOk s.outEvents.length = .ok) :
    sinkStep (outEmit b s) = .ok () (s.setOut (s.outBytes ++ [b]) (s.outEvents ++ [.emit b])) := by
  rw [outEmit_ok h]; rfl

theorem sinkStep_outFlush_ok {s : State} (h : s.sinkOk s.outEvents.length = .ok) :
    sinkStep (outFlush s) = .ok () (s.setOut s.outBytes (s.outEvents ++ [.flush])) := by
  simp [outFlush, h, sinkStep]

@[simp] theorem State.sinkOk_setOut (s : State) (b : List Byte) (e : List SinkEvent) (k : Nat) :
    (s.setOut b e).sinkOk k = s.sinkOk k := rfl

@[simp] theorem State.sinkOk_setWriter (s : State) (c : Byte) (n : Fin 8) (k : Nat) :
    (s.setWriter c n).sinkOk k = s.sinkOk k := rfl

end Sys2Proof.Machine
end

