-- ==== Sys2Proof/Laws/Reader.lean ====
section
/-! SUPPORT. What the bit reader's helpers can do (40_bit_reader R100 to R102), in registers and in bits. -/

namespace Sys2Proof.Machine

theorem ReaderFrame.refl (s : State) : ReaderFrame s s := rfl

theorem ReaderFrame.trans {s t u : State} (h : ReaderFrame s t) (h' : ReaderFrame t u) : ReaderFrame s u := by
  unfold ReaderFrame at *
  rw [h'] ; rw [h]

theorem ReaderFrame.setReader (s : State) (c : Byte) (r : Fin 9) : ReaderFrame s (s.setReader c r) := rfl

theorem ReaderFrame.setInPos (s : State) (p : Nat) : ReaderFrame s (s.setInPos p) := rfl

/-- What a reader frame leaves as it is. -/
theorem ReaderFrame.fields {s t : State} (h : ReaderFrame s t) :
    t.par = s.par ∧ t.wrCache = s.wrCache ∧ t.wrCnt = s.wrCnt ∧ t.wrClosed = s.wrClosed ∧ t.ctLen = s.ctLen ∧
    t.ctBits = s.ctBits ∧ t.nodes = s.nodes ∧ t.decCount = s.decCount ∧ t.encCount = s.encCount ∧ t.fault = s.fault ∧
    t.cmdSeq = s.cmdSeq ∧ t.outBytes = s.outBytes ∧ t.outEvents = s.outEvents ∧ t.cmd = s.cmd ∧ t.resp = s.resp := by
  unfold ReaderFrame at h
  rw [h]
  simp

/-! ### ReadBit -/

theorem readBit_cached {s : State} (h : s.rdRem.val ≠ 0) :
    readBit s = .ok (s.rdCache.getLsbD 0) (s.setReader (s.rdCache >>> 1) ⟨s.rdRem.val - 1, by omega⟩) := by
  have : s.rdRem ≠ 0 := fun e => h (by simp [e])
  simp [readBit, this, takeBit]

theorem readBit_fetch {s : State} (h : s.rdRem.val = 0) (hp : s.inPos < s.par.inBytes.length) :
    readBit s = .ok (s.par.inBytes[s.inPos].getLsbD 0)
      ((s.setInPos (s.inPos + 1)).setReader (s.par.inBytes[s.inPos] >>> 1) 7) := by
  have : s.rdRem = 0 := Fin.ext h
  simp [readBit, this, inFetch, hp, takeBit, State.setReader]

theorem readBit_exhausted {s : State} (h : s.rdRem.val = 0) (hp : s.par.inBytes.length ≤ s.inPos) :
    readBit s = .raise (terminalFault s.par.inTerm) s := by
  have : s.rdRem = 0 := Fin.ext h
  simp [readBit, this, inFetch, hp]

/-- Everything ReadBit can do (R100): a cached bit, a fetched one, or the terminal's fault with nothing consumed. -/
theorem readBit_cases (s : State) :
    (s.rdRem.val ≠ 0 ∧
      readBit s = .ok (s.rdCache.getLsbD 0) (s.setReader (s.rdCache >>> 1) ⟨s.rdRem.val - 1, by omega⟩)) ∨
    (s.rdRem.val = 0 ∧ ∃ h : s.inPos < s.par.inBytes.length,
      readBit s = .ok (s.par.inBytes[s.inPos].getLsbD 0)
        ((s.setInPos (s.inPos + 1)).setReader (s.par.inBytes[s.inPos] >>> 1) 7)) ∨
    (s.rdRem.val = 0 ∧ s.par.inBytes.length ≤ s.inPos ∧ readBit s = .raise (terminalFault s.par.inTerm) s) := by
  by_cases h : s.rdRem.val = 0
  · by_cases hp : s.inPos < s.par.inBytes.length
    · exact .inr (.inl ⟨h, hp, readBit_fetch h hp⟩)
    · exact .inr (.inr ⟨h, by omega, readBit_exhausted h (by omega)⟩)
  · exact .inl ⟨h, readBit_cached h⟩

theorem State.unreadBits_length (s : State) : s.unreadBits.length = s.bitsLeft := by
  have := s.rdRem.isLt
  simp [State.unreadBits, State.bitsLeft, State.inLeft]
  omega

theorem unreadBits_cached {s : State} (h : s.rdRem.val ≠ 0) :
    s.unreadBits = s.rdCache.getLsbD 0 ::
      (s.setReader (s.rdCache >>> 1) ⟨s.rdRem.val - 1, by omega⟩).unreadBits := by
  obtain ⟨k, hk⟩ : ∃ k, s.rdRem.val = k + 1 := ⟨s.rdRem.val - 1, by omega⟩
  have := take_bits_shift s.rdCache k (by have := s.rdRem.isLt; omega)
  simp [State.unreadBits, hk, this, -BitVec.getLsbD_eq_getElem]

theorem unreadBits_fetch {s : State} (h : s.rdRem.val = 0) (hp : s.inPos < s.par.inBytes.length) :
    s.unreadBits = s.par.inBytes[s.inPos].getLsbD 0 ::
      ((s.setInPos (s.inPos + 1)).setReader (s.par.inBytes[s.inPos] >>> 1) 7).unreadBits := by
  have h1 := take_bits_shift s.par.inBytes[s.inPos] 7 (by omega)
  rw [take_eight_bits] at h1
  have h2 : s.par.inBytes.drop s.inPos = s.par.inBytes[s.inPos] :: s.par.inBytes.drop (s.inPos + 1) := by simp
  simp only [State.unreadBits, h, h2, bitsOf_cons, h1, List.take_zero, List.nil_append, State.setReader_rdCache,
    State.setReader_rdRem, State.setReader_par, State.setReader_inPos, State.setInPos_inPos, State.setInPos_par,
    List.cons_append]
  rfl

/-- ReadBit delivers the next unread bit (R54, R100). -/
theorem readBit_next {s : State} {b : Bool} {rest : List Bool} (h : s.unreadBits = b :: rest) :
    ∃ t, readBit s = .ok b t ∧ t.unreadBits = rest ∧ ReaderFrame s t := by
  rcases readBit_cases s with ⟨h1, he⟩ | ⟨h1, hp, he⟩ | ⟨h1, hp, he⟩
  · rw [unreadBits_cached h1] at h
    obtain ⟨rfl, rfl⟩ := List.cons.inj h
    exact ⟨_, he, rfl, rfl⟩
  · rw [unreadBits_fetch h1 hp] at h
    obtain ⟨rfl, rfl⟩ := List.cons.inj h
    exact ⟨_, he, rfl, rfl⟩
  · have := s.unreadBits_length
    simp [h, State.bitsLeft, State.inLeft, h1] at this
    omega

/-- With no unread bit ReadBit raises the terminal's fault and consumes nothing (R100, R256). -/
theorem readBit_none {s : State} (h : s.unreadBits = []) : readBit s = .raise (terminalFault s.par.inTerm) s := by
  have := s.unreadBits_length
  simp [h, State.bitsLeft, State.inLeft] at this
  exact readBit_exhausted (by omega) (by omega)

/-- ReadBit, said once in bits. -/
theorem readBit_post (s : State) :
    (readBit s).Post (fun b t => s.unreadBits = b :: t.unreadBits ∧ ReaderFrame s t)
      fun f t => f = terminalFault s.par.inTerm ∧ t = s ∧ s.unreadBits = [] := by
  cases h : s.unreadBits with
  | nil => simp [readBit_none h]
  | cons b rest =>
    obtain ⟨t, he, ht, hf⟩ := readBit_next h
    simp [he, ht, hf]

/-- ReadBit leaves the reader as R24 and R25 say. -/
theorem readBit_keeps {s : State} (hr : s.ReaderInv) (hp : s.inPos ≤ s.par.inBytes.length) :
    (readBit s).Post (fun _ t => t.ReaderInv ∧ t.inPos ≤ t.par.inBytes.length)
      fun _ t => t.ReaderInv ∧ t.inPos ≤ t.par.inBytes.length := by
  obtain ⟨h7, hc⟩ := hr
  have shift (c : Byte) (k : Nat) (hc : c.toNat < 2 ^ (k + 1)) : (c >>> 1).toNat < 2 ^ k := by
    rw [BitVec.toNat_ushiftRight, Nat.shiftRight_eq_div_pow]
    rw [Nat.pow_succ] at hc
    omega
  rcases readBit_cases s with ⟨h1, he⟩ | ⟨h1, hp', he⟩ | ⟨h1, hp', he⟩
  · rw [he]
    refine ⟨⟨by simp; omega, ?_⟩, hp⟩
    simp only [State.setReader_rdCache, State.setReader_rdRem]
    exact shift _ _ (by rwa [Nat.sub_add_cancel (by omega)])
  · rw [he]
    refine ⟨⟨by simp, ?_⟩, by simpa using hp'⟩
    simp only [State.setReader_rdCache, State.setReader_rdRem]
    exact shift _ 7 (by have := s.par.inBytes[s.inPos].isLt; omega)
  · rw [he]
    exact ⟨⟨h7, hc⟩, hp⟩

/-! ### TryReadByte and ReadByte -/

/-- Everything TryReadByte can do (R101): a byte, direct or reassembled, or the terminal with nothing changed. -/
theorem tryReadByte_cases (s : State) :
    (∃ h : s.inPos < s.par.inBytes.length, s.rdRem.val = 0 ∧
      tryReadByte s = (.byte s.par.inBytes[s.inPos], s.setInPos (s.inPos + 1))) ∨
    (∃ h : s.inPos < s.par.inBytes.length, s.rdRem.val ≠ 0 ∧
      tryReadByte s = (.byte (s.rdCache ||| (s.par.inBytes[s.inPos] <<< s.rdRem.val)),
        (s.setInPos (s.inPos + 1)).setReader (s.par.inBytes[s.inPos] >>> (8 - s.rdRem.val)) s.rdRem)) ∨
    (s.par.inBytes.length ≤ s.inPos ∧ tryReadByte s = (.term s.par.inTerm, s)) := by
  unfold tryReadByte
  rcases inFetch_cases s with ⟨h, he⟩ | ⟨h, he⟩
  · by_cases h0 : s.rdRem = 0
    · exact .inl ⟨h, by simp [h0], by simp [he, h0]⟩
    · exact .inr (.inl ⟨h, fun e => h0 (Fin.ext e), by simp [he, h0]⟩)
  · exact .inr (.inr ⟨h, by simp [he]⟩)

/-- TryReadByte delivers the next eight unread bits as a byte and keeps RD_REM (R56, R101, R102). -/
theorem tryReadByte_byte {s : State} (hr : s.ReaderInv) (h : s.inPos < s.par.inBytes.length) :
    ∃ v t, tryReadByte s = (.byte v, t) ∧ s.unreadBits = bitsOfByte v ++ t.unreadBits ∧ ReaderFrame s t ∧
      t.inPos = s.inPos + 1 ∧ t.rdRem = s.rdRem ∧ t.ReaderInv := by
  have hd : s.par.inBytes.drop s.inPos = s.par.inBytes[s.inPos] :: s.par.inBytes.drop (s.inPos + 1) := by simp
  rcases tryReadByte_cases s with ⟨_, h0, he⟩ | ⟨_, h0, he⟩ | ⟨h', _⟩
  · refine ⟨_, _, he, ?_, rfl, rfl, rfl, hr⟩
    simp only [State.unreadBits, h0, hd, bitsOf_cons, List.take_zero, List.nil_append, State.setInPos_rdRem,
      State.setInPos_inPos, State.setInPos_par]
  · refine ⟨_, _, he, ?_, rfl, rfl, rfl, hr.1, shift_small _ _ (by have := hr.1; omega)⟩
    have := reassemble s.rdCache s.par.inBytes[s.inPos] s.rdRem.val (by have := hr.1; omega) hr.2
    simp only [State.unreadBits, hd, bitsOf_cons, State.setReader_rdCache, State.setReader_rdRem, State.setReader_par,
      State.setReader_inPos, State.setInPos_inPos, State.setInPos_par]
    rw [← List.append_assoc, this, List.append_assoc]
  · omega

theorem tryReadByte_term {s : State} (h : s.par.inBytes.length ≤ s.inPos) :
    tryReadByte s = (.term s.par.inTerm, s) := by
  rcases tryReadByte_cases s with ⟨_, _⟩ | ⟨_, _⟩ | ⟨_, he⟩
  · omega
  · omega
  · exact he

/-- ReadByte, said once in bits (R101). -/
theorem readByte_post {s : State} (hr : s.ReaderInv) :
    (readByte s).Post
      (fun v t => s.unreadBits = bitsOfByte v ++ t.unreadBits ∧ ReaderFrame s t ∧ t.inPos = s.inPos + 1 ∧
        t.rdRem = s.rdRem ∧ t.ReaderInv ∧ s.inPos < s.par.inBytes.length)
      fun f t => f = terminalFault s.par.inTerm ∧ t = s ∧ s.par.inBytes.length ≤ s.inPos := by
  unfold readByte
  by_cases h : s.inPos < s.par.inBytes.length
  · obtain ⟨v, t, he, h1, h2, h3, h4, h5⟩ := tryReadByte_byte hr h
    rw [he]
    exact ⟨h1, h2, h3, h4, h5, h⟩
  · rw [tryReadByte_term (by omega)]
    exact ⟨rfl, rfl, by omega⟩

/-- RD_BYTES's loop (R104): `n` bytes when IN still holds them, else the terminal's fault at the end of IN. -/
theorem readBytes_post (n : Nat) {s : State} (hr : s.ReaderInv) (hp : s.inPos ≤ s.par.inBytes.length) :
    (readBytes n s).Post
      (fun p t => p.length = n ∧ s.unreadBits = bitsOf p ++ t.unreadBits ∧ ReaderFrame s t ∧ t.inPos = s.inPos + n ∧
        t.rdRem = s.rdRem ∧ t.ReaderInv ∧ s.inPos + n ≤ s.par.inBytes.length)
      fun f t => f = terminalFault s.par.inTerm ∧ ReaderFrame s t ∧ t.inPos = s.par.inBytes.length ∧
        t.rdRem = s.rdRem ∧ t.ReaderInv ∧ s.par.inBytes.length < s.inPos + n ∧
        t.unreadBits = s.unreadBits.drop (8 * (s.par.inBytes.length - s.inPos)) := by
  induction n generalizing s with
  | zero => exact ⟨rfl, rfl, rfl, rfl, rfl, hr, hp⟩
  | succ n ih =>
    unfold readBytes
    have h := readByte_post hr
    cases he : readByte s with
    | raise f t =>
      rw [he] at h
      obtain ⟨h1, rfl, h2⟩ := h
      exact ⟨h1, rfl, by omega, rfl, hr, by omega, by rw [Nat.sub_eq_zero_of_le h2]; rfl⟩
    | ok b t =>
      rw [he] at h
      obtain ⟨h1, h2, h3, h4, h5, h6⟩ := h
      have hpar := h2.fields.1
      have ih := ih h5 (by rw [h3, hpar]; omega)
      cases hq : readBytes n t with
      | raise f u =>
        rw [hq] at ih
        obtain ⟨i1, i2, i3, i4, i5, i6, i7⟩ := ih
        simp only [Res.andThen_ok, hq, Res.andThen_raise, Res.post_raise]
        refine ⟨by rw [i1, hpar], h2.trans i2, by rw [i3, hpar], by rw [i4, h4], i5, by rw [hpar] at i6; omega, ?_⟩
        rw [i7, h1, hpar, h3,
          show 8 * (s.par.inBytes.length - s.inPos) = (bitsOfByte b).length + 8 * (s.par.inBytes.length - (s.inPos + 1)) by
            rw [bitsOfByte_length]; omega]
        exact (List.drop_length_add_append ..).symm
      | ok p u =>
        rw [hq] at ih
        obtain ⟨i1, i2, i3, i4, i5, i6, i7⟩ := ih
        simp only [Res.andThen_ok, hq, Res.post_ok]
        refine ⟨by simp [i1], ?_, h2.trans i3, by omega, by rw [i5, h4], i6, by rw [hpar] at i7; omega⟩
        rw [h1, i2]; simp

end Sys2Proof.Machine
end

