-- ==== Sys2Proof/Laws/Trie.lean ====
section
/-! SUPPORT. The trie (42_tables R143, R146): paths name nodes uniquely, and what allocating a child and marking a leaf do
to the set of codes. -/

namespace Sys2Proof.Machine

theorem State.node_lt {s : State} {i : Nat} (h : i < s.nodes.length) : s.node i = s.nodes[i] := by
  simp [State.node, h]

@[simp] theorem State.node_setNodes_of_lt {s : State} {v : List Node} {i : Nat} (h : i < v.length) :
    (s.setNodes v).node i = v[i] := by
  simp [State.node, h]

theorem State.node_congr {s t : State} (h : t.nodes = s.nodes) (i : Nat) : t.node i = s.node i := by
  simp [State.node, h]

theorem State.follow_congr {s t : State} (h : t.nodes = s.nodes) (i : Nat) (p : List Bool) :
    t.follow i p = s.follow i p := by
  induction p generalizing i with
  | nil => rfl
  | cons b bs ih =>
    simp only [State.follow, State.node_congr h]
    split <;> simp [ih]

theorem State.leafAt_congr {s t : State} (h : t.nodes = s.nodes) (p : List Bool) : t.leafAt p = s.leafAt p := by
  simp [State.leafAt, State.follow_congr h, State.node_congr h]

theorem State.follow_append (s : State) (i : Nat) (p q : List Bool) :
    s.follow i (p ++ q) = (s.follow i p).bind fun j => s.follow j q := by
  induction p generalizing i with
  | nil => rfl
  | cons b bs ih =>
    simp only [List.cons_append, State.follow]
    split
    · exact ih _
    · rfl

theorem State.follow_snoc (s : State) (i : Nat) (p : List Bool) (b : Bool) :
    s.follow i (p ++ [b]) = (s.follow i p).bind fun j => (s.node j).child b := by
  rw [State.follow_append]
  congr 1
  funext j
  simp only [State.follow]
  split <;> simp_all

theorem Node.child_mem {n : Node} {b : Bool} {c : Nat} (h : n.child b = some c) : c ∈ n.children := by
  cases b <;> simp_all [Node.child, Node.children]

theorem Node.childless_iff {n : Node} : n.childless = true ↔ ∀ b, n.child b = none := by
  simp [Node.childless, Node.child]

/-! ### The shape while a code is being inserted -/

/-- R33 while TrieInsert is at node `i`: item 4 is not asked of that node, which may be new. -/
structure WalkShape (nodes : List Node) (i : Nat) : Prop where
  here : i < nodes.length
  higher : ∀ j, (h : j < nodes.length) → ∀ c ∈ nodes[j].children, j < c ∧ c < nodes.length
  parent : ∀ c, c < nodes.length → 0 < c → (nodes.flatMap Node.children).count c = 1
  leafEnd : ∀ j, (h : j < nodes.length) → nodes[j].leaf = true → nodes[j].childless = true
  endLeaf : ∀ j, (h : j < nodes.length) → 0 < j → j ≠ i → nodes[j].childless = true → nodes[j].leaf = true
  root : nodes[0].leaf = false

theorem TrieShape.walk {nodes : List Node} (h : TrieShape nodes) {i : Nat} (hi : i < nodes.length) : WalkShape nodes i :=
  ⟨hi, h.1, h.2.1, h.2.2.1, fun j hj h0 _ => h.2.2.2.1 j hj h0, h.2.2.2.2.2⟩

/-- At a node that has a child, or at the root, item 4 holds everywhere. -/
theorem WalkShape.shape {nodes : List Node} {i : Nat} (h : WalkShape nodes i)
    (hi : i = 0 ∨ (nodes[i]'h.here).childless = false ∨ (nodes[i]'h.here).leaf = true) : TrieShape nodes := by
  refine ⟨h.higher, h.parent, h.leafEnd, ?_, by have := h.here; omega, h.root⟩
  intro j hj h0 hc
  by_cases e : j = i
  · subst e
    rcases hi with hi | hi | hi
    · omega
    · simp [hc] at hi
    · exact hi
  · exact h.endLeaf j hj h0 e hc

theorem WalkShape.child_lt {s : State} {k i : Nat} (h : WalkShape s.nodes k) (hi : i < s.nodes.length) {b : Bool} {c : Nat}
    (hc : (s.node i).child b = some c) : i < c ∧ c < s.nodes.length := by
  rw [State.node_lt hi] at hc
  exact h.higher i hi c (Node.child_mem hc)

theorem WalkShape.follow_lt {s : State} {k : Nat} (h : WalkShape s.nodes k) {i j : Nat} (hi : i < s.nodes.length)
    {p : List Bool} (hp : s.follow i p = some j) : j < s.nodes.length ∧ i + p.length ≤ j := by
  induction p generalizing i with
  | nil => simp [State.follow] at hp; subst hp; exact ⟨hi, by simp⟩
  | cons b bs ih =>
    simp only [State.follow] at hp
    split at hp
    · rename_i c hc
      have := h.child_lt hi hc
      have := ih this.2 hp
      simp; omega
    · cases hp

/-- Counting a child over a node list picks out its parent. -/
theorem parent_unique {nodes : List Node} {c : Nat} (h : (nodes.flatMap Node.children).count c = 1) {i j : Nat}
    (hi : i < nodes.length) (hj : j < nodes.length) (hci : c ∈ nodes[i].children) (hcj : c ∈ nodes[j].children) :
    i = j := by
  induction nodes generalizing i j with
  | nil => simp at hi
  | cons n ns ih =>
    simp only [List.flatMap_cons, List.count_append] at h
    have zero (k : Nat) (hk : k < ns.length) (hm : c ∈ ns[k].children) : 0 < (ns.flatMap Node.children).count c := by
      rw [List.count_pos_iff, List.mem_flatMap]
      exact ⟨_, List.getElem_mem hk, hm⟩
    have one (hm : c ∈ n.children) : 0 < n.children.count c := List.count_pos_iff.2 hm
    cases i with
    | zero =>
      cases j with
      | zero => rfl
      | succ j =>
        have := zero j (by simpa using hj) (by simpa using hcj)
        have := one (by simpa using hci)
        omega
    | succ i =>
      cases j with
      | zero =>
        have := zero i (by simpa using hi) (by simpa using hci)
        have := one (by simpa using hcj)
        omega
      | succ j =>
        have := zero i (by simpa using hi) (by simpa using hci)
        have := ih (by omega) (by simpa using hi) (by simpa using hj) (by simpa using hci) (by simpa using hcj)
        omega

/-- A node's count of a child that both of its branches name is two. -/
theorem branch_unique {nodes : List Node} {c : Nat} (h : (nodes.flatMap Node.children).count c = 1) {i : Nat}
    (hi : i < nodes.length) {a b : Bool} (ha : nodes[i].child a = some c) (hb : nodes[i].child b = some c) : a = b := by
  have hle : nodes[i].children.count c ≤ 1 := by
    rw [← h, List.count_flatMap]
    exact List.single_le_sum (by simp) _ (List.mem_map.2 ⟨_, List.getElem_mem hi, rfl⟩)
  cases a <;> cases b <;> simp_all [Node.child, Node.children]

/-- Paths from the root name nodes uniquely (R33 item 2, R146). -/
theorem WalkShape.follow_inj {s : State} {k : Nat} (h : WalkShape s.nodes k) {p q : List Bool} {j : Nat}
    (hp : s.follow 0 p = some j) (hq : s.follow 0 q = some j) : p = q := by
  have h0 : 0 < s.nodes.length := by have := h.here; omega
  induction p using List.reverseRecOn generalizing q j with
  | nil =>
    simp [State.follow] at hp
    subst hp
    cases q with
    | nil => rfl
    | cons b bs => have := (h.follow_lt h0 hq).2; simp at this
  | append_singleton p a ih =>
    rw [State.follow_snoc] at hp
    obtain ⟨i, hi, hci⟩ := Option.bind_eq_some_iff.1 hp
    have hil := (h.follow_lt h0 hi).1
    have hlt := h.child_lt hil hci
    rcases List.eq_nil_or_concat q with rfl | ⟨q, b, rfl⟩
    · simp [State.follow] at hq; omega
    · rw [List.concat_eq_append, State.follow_snoc] at hq
      obtain ⟨i', hi', hci'⟩ := Option.bind_eq_some_iff.1 hq
      have hil' := (h.follow_lt h0 hi').1
      have hcount := h.parent j hlt.2 (by omega)
      rw [State.node_lt hil] at hci
      rw [State.node_lt hil'] at hci'
      have e := parent_unique hcount hil hil' (Node.child_mem hci) (Node.child_mem hci')
      subst e
      rw [ih hi hi', branch_unique hcount hil hci hci', List.concat_eq_append]

/-! ### Allocating a child -/

section Alloc

variable {s : State} {i : Nat} {bit : Bool} (h : WalkShape s.nodes i)

theorem allocChild_nodes (s : State) (i : Nat) (bit : Bool) :
    (s.allocChild i bit).nodes = (s.nodes ++ [Node.fresh]).modify i fun n => n.setChild bit s.nodes.length := rfl

@[simp] theorem allocChild_length (s : State) (i : Nat) (bit : Bool) :
    (s.allocChild i bit).nodes.length = s.nodes.length + 1 := by simp [allocChild_nodes]

theorem allocChild_node (s : State) {i : Nat} (bit : Bool) (hi : i < s.nodes.length) {j : Nat} (hj : j ≤ s.nodes.length) :
    (s.allocChild i bit).node j =
      if j = s.nodes.length then Node.fresh
      else if j = i then (s.node i).setChild bit s.nodes.length else s.node j := by
  have hl : j < (s.allocChild i bit).nodes.length := by simp; omega
  rw [State.node_lt hl]
  simp only [allocChild_nodes, List.getElem_modify]
  by_cases hjn : j = s.nodes.length
  · subst hjn
    rw [if_neg (by omega)]
    simp
  · have hj' : j < s.nodes.length := by omega
    by_cases hji : i = j
    · subst hji
      simp [hjn, hj', State.node_lt hj']
    · have : ¬ j = i := fun e => hji e.symm
      simp [hjn, hji, this, hj', State.node_lt hj']

@[simp] theorem Node.setChild_child (n : Node) (b a : Bool) (c : Nat) :
    (n.setChild b c).child a = if a = b then some c else n.child a := by
  cases a <;> cases b <;> simp [Node.setChild, Node.child]

@[simp] theorem Node.setChild_leaf (n : Node) (b : Bool) (c : Nat) : (n.setChild b c).leaf = n.leaf := by
  cases b <;> rfl

@[simp] theorem Node.setChild_sym (n : Node) (b : Bool) (c : Nat) : (n.setChild b c).sym = n.sym := by
  cases b <;> rfl

@[simp] theorem Node.fresh_child (b : Bool) : Node.fresh.child b = none := by cases b <;> rfl

@[simp] theorem Node.fresh_leaf : Node.fresh.leaf = false := rfl

theorem Node.mem_children {n : Node} {c : Nat} : c ∈ n.children ↔ ∃ b, n.child b = some c := by
  simp [Node.children, Node.child]

theorem Node.setChild_count {n : Node} {b : Bool} {c : Nat} (hn : n.child b = none) (d : Nat) :
    (n.setChild b c).children.count d = n.children.count d + if d = c then 1 else 0 := by
  by_cases e : d = c
  · subst e
    cases b <;> simp [Node.child] at hn <;> simp [Node.setChild, Node.children, hn]
  · have e' : ¬ c = d := fun e' => e e'.symm
    cases b <;> simp [Node.child] at hn <;> simp [Node.setChild, Node.children, hn, e, e']

theorem flatMap_count_modify (f : Node → Node) (c k : Nat) {ns : List Node} {i : Nat} (hi : i < ns.length)
    (hf : (f ns[i]).children.count c = ns[i].children.count c + k) :
    ((ns.modify i f).flatMap Node.children).count c = (ns.flatMap Node.children).count c + k := by
  induction ns generalizing i with
  | nil => simp at hi
  | cons n ns ih =>
    cases i with
    | zero => simp at hf ⊢; omega
    | succ i =>
      have := ih (i := i) (by simpa using hi) (by simpa using hf)
      simp at this ⊢; omega

include h

/-- A new child keeps the shape, with the new node as the one item 4 is not asked of (R143). -/
theorem allocChild_shape (hl : (s.node i).leaf = false) (hc : (s.node i).child bit = none) :
    WalkShape (s.allocChild i bit).nodes s.nodes.length := by
  have hi := h.here
  have at_ (j : Nat) (hj : j < (s.allocChild i bit).nodes.length) :
      (s.allocChild i bit).nodes[j] = if j = s.nodes.length then Node.fresh
        else if j = i then (s.node i).setChild bit s.nodes.length else s.node j := by
    rw [← State.node_lt hj]
    exact allocChild_node s bit hi (by simp at hj; omega)
  refine ⟨by simp, ?_, ?_, ?_, ?_, ?_⟩
  · intro j hj c hm
    rw [at_ j hj, Node.mem_children] at hm
    obtain ⟨b, hm⟩ := hm
    simp only [allocChild_length] at hj ⊢
    split at hm
    · simp at hm
    · have hj' : j < s.nodes.length := by omega
      split at hm
      · simp only [Node.setChild_child] at hm
        split at hm
        · simp at hm; omega
        · have := h.child_lt hi hm; omega
      · have := h.child_lt hj' hm; omega
  · intro c hcl h0
    have hcl : c ≤ s.nodes.length := by simp at hcl; omega
    rw [allocChild_nodes, flatMap_count_modify _ c (if c = s.nodes.length then 1 else 0) (by simp; omega)]
    · by_cases e : c = s.nodes.length
      · have hz : (s.nodes.flatMap Node.children).count c = 0 := by
          rw [List.count_eq_zero, List.mem_flatMap]
          rintro ⟨n, hn, hm⟩
          obtain ⟨j, hj, rfl⟩ := List.getElem_of_mem hn
          have := h.higher j hj c hm
          omega
        have hf : (Node.fresh.children).count c = 0 := by simp [Node.children, Node.fresh]
        rw [List.flatMap_append, List.count_append, hz, if_pos e]
        simpa using hf
      · have := h.parent c (by omega) h0
        have hf : (Node.fresh.children).count c = 0 := by simp [Node.children, Node.fresh]
        rw [List.flatMap_append, List.count_append, this, if_neg e]
        simpa using hf
    · rw [List.getElem_append_left hi]
      rw [State.node_lt hi] at hc
      exact Node.setChild_count hc c
  · intro j hj hlf
    rw [at_ j hj] at hlf ⊢
    simp only [allocChild_length] at hj
    by_cases e1 : j = s.nodes.length
    · simp [e1] at hlf
    · have hj' : j < s.nodes.length := by omega
      by_cases e2 : j = i
      · have := Nat.ne_of_lt hi
        simp [e2] at hlf
        simp [this, hl] at hlf
      · simp only [e1, e2, if_false] at hlf ⊢
        rw [State.node_lt hj'] at hlf ⊢
        exact h.leafEnd j hj' hlf
  · intro j hj h0 hne hcl
    rw [at_ j hj] at hcl ⊢
    simp only [allocChild_length] at hj
    have hj' : j < s.nodes.length := by omega
    by_cases e2 : j = i
    · have := Node.childless_iff.1 hcl bit
      simp [e2] at this
      have hne' := Nat.ne_of_lt hi
      simp [hne'] at this
    · simp only [hne, e2, if_false] at hcl ⊢
      rw [State.node_lt hj'] at hcl ⊢
      exact h.endLeaf j hj' h0 e2 hcl
  · rw [at_ 0 (by simp)]
    have hr := h.root
    have h00 : ¬ 0 = s.nodes.length := by omega
    by_cases e2 : 0 = i
    · subst e2
      simp [h00, hl]
    · simp only [h00, e2, if_false]
      rwa [State.node_lt (by omega)]

/-- A new child adds one path, the path of its parent and the bit, and no other (R146). -/
theorem allocChild_follow (hc : (s.node i).child bit = none) {pre : List Bool} (hp : s.follow 0 pre = some i)
    (p : List Bool) :
    (s.allocChild i bit).follow 0 p = if p = pre ++ [bit] then some s.nodes.length else s.follow 0 p := by
  have hi := h.here
  have h0 : 0 < s.nodes.length := by omega
  induction p using List.reverseRecOn with
  | nil => simp [State.follow]
  | append_singleton p b ih =>
    rw [State.follow_snoc, State.follow_snoc, ih]
    by_cases e : p = pre ++ [bit]
    · subst e
      rw [if_pos rfl, State.follow_snoc, hp]
      simp [allocChild_node s bit hi, hc]
    · rw [if_neg e]
      cases hf : s.follow 0 p with
      | none =>
        have : ¬ p = pre := fun e' => by rw [e', hp] at hf; cases hf
        simp [this]
      | some j =>
        have hj := (h.follow_lt h0 hf).1
        simp only [Option.bind_some]
        rw [allocChild_node s bit hi (Nat.le_of_lt hj), if_neg (Nat.ne_of_lt hj)]
        by_cases ej : j = i
        · subst ej
          have := h.follow_inj hf hp
          subst this
          simp
        · have : ¬ p = pre := fun e' => by rw [e', hp] at hf; simp at hf; omega
          simp [ej, this]

/-- A new child is no leaf, so the set of codes stays (R143). -/
theorem allocChild_leafAt (hc : (s.node i).child bit = none) {pre : List Bool} (hp : s.follow 0 pre = some i)
    (p : List Bool) : (s.allocChild i bit).leafAt p = s.leafAt p := by
  have hi := h.here
  have h0 : 0 < s.nodes.length := by omega
  simp only [State.leafAt, allocChild_follow h hc hp]
  by_cases e : p = pre ++ [bit]
  · subst e
    have : s.follow 0 (pre ++ [bit]) = none := by rw [State.follow_snoc, hp]; simpa using hc
    simp [this, allocChild_node s bit hi]
  · rw [if_neg e]
    cases hf : s.follow 0 p with
    | none => rfl
    | some j =>
      have hj := (h.follow_lt h0 hf).1
      simp only [allocChild_node s bit hi (Nat.le_of_lt hj), if_neg (Nat.ne_of_lt hj)]
      by_cases ej : j = i <;> simp [ej]

end Alloc

/-! ### Marking a leaf -/

section Mark

variable {s : State} {i : Nat} (h : WalkShape s.nodes i)

theorem markLeaf_nodes (s : State) (i : Nat) (sym : Byte) :
    (s.markLeaf i sym).nodes = s.nodes.modify i fun n => { n with leaf := true, sym := sym } := rfl

@[simp] theorem markLeaf_length (s : State) (i : Nat) (sym : Byte) : (s.markLeaf i sym).nodes.length = s.nodes.length := by
  simp [markLeaf_nodes]

theorem markLeaf_node (s : State) (sym : Byte) {i j : Nat} (hj : j < s.nodes.length) :
    (s.markLeaf i sym).node j = if j = i then { s.node j with leaf := true, sym := sym } else s.node j := by
  rw [State.node_lt (by simpa using hj)]
  simp only [markLeaf_nodes, List.getElem_modify, State.node_lt hj]
  by_cases e : i = j
  · subst e; simp
  · have : ¬ j = i := fun e' => e e'.symm
    simp [e, this]

theorem markLeaf_child (s : State) (sym : Byte) {i j : Nat} (hj : j < s.nodes.length) (b : Bool) :
    ((s.markLeaf i sym).node j).child b = (s.node j).child b := by
  rw [markLeaf_node s sym hj]
  split <;> rfl

include h

theorem markLeaf_follow (sym : Byte) {j : Nat} (hj : j < s.nodes.length) (p : List Bool) :
    (s.markLeaf i sym).follow j p = s.follow j p := by
  induction p generalizing j with
  | nil => rfl
  | cons b bs ih =>
    simp only [State.follow, markLeaf_child s sym hj]
    split
    · rename_i c hc
      exact ih (h.child_lt hj hc).2
    · rfl

/-- Marking a childless node other than the root restores the shape (R33, R143). -/
theorem markLeaf_shape (sym : Byte) (h0 : 0 < i) (hc : (s.node i).childless = true) :
    TrieShape (s.markLeaf i sym).nodes := by
  have hi := h.here
  have at_ (j : Nat) (hj : j < s.nodes.length) :
      (s.markLeaf i sym).nodes[j]'(by simpa using hj) =
        if j = i then { s.node j with leaf := true, sym := sym } else s.node j := by
    rw [← State.node_lt (by simpa using hj)]
    exact markLeaf_node s sym hj
  have kids (j : Nat) (hj : j < s.nodes.length) :
      ((s.markLeaf i sym).nodes[j]'(by simpa using hj)).children = s.nodes[j].children := by
    rw [at_ j hj, State.node_lt hj]
    split <;> rfl
  refine ⟨?_, ?_, ?_, ?_, ?_⟩
  · intro j hj c hm
    have hj' : j < s.nodes.length := by simpa using hj
    rw [kids j hj'] at hm
    simpa using h.higher j hj' c hm
  · intro c hcl hc0
    rw [markLeaf_nodes, flatMap_count_modify _ c 0 hi (by rfl)]
    exact h.parent c (by simpa using hcl) hc0
  · intro j hj hl
    have hj' : j < s.nodes.length := by simpa using hj
    rw [at_ j hj'] at hl ⊢
    split
    · rename_i e
      subst e
      exact hc
    · rename_i e
      simp only [e, if_false, State.node_lt hj'] at hl ⊢
      exact h.leafEnd j hj' hl
  · intro j hj hj0 hcl
    have hj' : j < s.nodes.length := by simpa using hj
    rw [at_ j hj'] at hcl ⊢
    split
    · rfl
    · rename_i e
      simp only [e, if_false, State.node_lt hj'] at hcl ⊢
      exact h.endLeaf j hj' hj0 e hcl
  · refine ⟨by simp; omega, ?_⟩
    rw [at_ 0 (by omega), if_neg (by omega), State.node_lt (by omega)]
    exact h.root

/-- Marking a leaf adds its code, and no other (R146). -/
theorem markLeaf_leafAt (sym : Byte) {code : List Bool} (hp : s.follow 0 code = some i) (p : List Bool) :
    (s.markLeaf i sym).leafAt p = if p = code then some sym else s.leafAt p := by
  have h0 : 0 < s.nodes.length := by have := h.here; omega
  simp only [State.leafAt, markLeaf_follow h sym h0]
  cases hf : s.follow 0 p with
  | none =>
    have : ¬ p = code := fun e => by rw [e, hp] at hf; cases hf
    simp [this]
  | some j =>
    have hj := (h.follow_lt h0 hf).1
    simp only [markLeaf_node s sym hj]
    by_cases e : j = i
    · subst e
      have := h.follow_inj hf hp
      simp [this]
    · have : ¬ p = code := fun e' => by rw [e', hp] at hf; simp at hf; omega
      simp [e, this]

end Mark

end Sys2Proof.Machine
end

