-- ==== Sys2Proof/Laws/Insert.lean ====
section
/-! SUPPORT. What TrieInsert can do (42_tables R143, R146): it keeps the shape, and it adds a free code as one leaf. -/

namespace Sys2Proof.Machine

theorem InsertFrame.refl (s : State) : InsertFrame s s := rfl

theorem InsertFrame.trans {s t u : State} (h : InsertFrame s t) (h' : InsertFrame t u) : InsertFrame s u := by
  unfold InsertFrame at *
  rw [h'] ; rw [h]

theorem ReaderFrame.insert {s t : State} (h : ReaderFrame s t) : InsertFrame s t := by
  unfold ReaderFrame InsertFrame at *
  rw [h]

theorem InsertFrame.setNodes (s : State) (v : List Node) : InsertFrame s (s.setNodes v) := rfl

/-- What an insert frame leaves as it is. -/
theorem InsertFrame.fields {s t : State} (h : InsertFrame s t) :
    t.par = s.par ∧ t.wrCache = s.wrCache ∧ t.wrCnt = s.wrCnt ∧ t.wrClosed = s.wrClosed ∧ t.ctLen = s.ctLen ∧
    t.ctBits = s.ctBits ∧ t.decCount = s.decCount ∧ t.encCount = s.encCount ∧ t.fault = s.fault ∧
    t.cmdSeq = s.cmdSeq ∧ t.outBytes = s.outBytes ∧ t.outEvents = s.outEvents ∧ t.cmd = s.cmd ∧ t.resp = s.resp := by
  unfold InsertFrame at h
  rw [h]
  simp

/-! ### The shape is kept, whatever the bits -/

/-- A NextBit that only reads and keeps the reader's invariant. -/
def ReadsOnly (nextBit : Nat → State → Res Bool) (I : State → Prop) : Prop :=
  ∀ j s, I s → (nextBit j s).Post (fun _ t => ReaderFrame s t ∧ I t) fun _ t => ReaderFrame s t ∧ I t

/-- What holds after an insertion step that returned or raised. -/
structure Inserted (I : State → Prop) (s t : State) : Prop where
  frame : InsertFrame s t
  inv : I t
  grows : s.nodes.length ≤ t.nodes.length
  bounded : t.nodes.length ≤ s.par.nodeCap

theorem trieWalk_post {nextBit : Nat → State → Res Bool} {I : State → Prop} (hnb : ReadsOnly nextBit I)
    (hI : ∀ s v, I s → I (s.setNodes v)) (n : Nat) {j i : Nat} {s : State} (hs : I s) (h : WalkShape s.nodes i)
    (hcap : s.nodes.length ≤ s.par.nodeCap) :
    (trieWalk nextBit n j i s).Post
      (fun e t => Inserted I s t ∧ WalkShape t.nodes e ∧ i + n ≤ e) fun _ t => Inserted I s t := by
  induction n generalizing j i s with
  | zero => exact ⟨⟨rfl, hs, Nat.le_refl _, hcap⟩, h, Nat.le_refl _⟩
  | succ n ih =>
    unfold trieWalk
    refine Res.Post.andThen
      (P := fun _ t => ReaderFrame s t ∧ I t) (Res.Post.mono (hnb j s hs) (fun _ _ h => h) ?_) ?_
    · rintro f t ⟨hf, ht⟩
      have := hf.fields
      exact ⟨hf.insert, ht, by rw [this.2.2.2.2.2.2.1], by rw [this.2.2.2.2.2.2.1]; exact hcap⟩
    · rintro bit t ⟨hf, ht⟩
      have hfields := hf.fields
      have hpar : t.par = s.par := hfields.1
      have hnodes : t.nodes = s.nodes := hfields.2.2.2.2.2.2.1
      have base : Inserted I s t := ⟨hf.insert, ht, by rw [hnodes], by rw [hnodes]; exact hcap⟩
      have hw : WalkShape t.nodes i := by rw [hnodes]; exact h
      split
      · exact base
      · rename_i hl
        split
        · rename_i c hc
          have hlt := hw.child_lt hw.here hc
          have hchild : (t.nodes[i]'hw.here).childless = false := by
            rw [← State.node_lt hw.here]
            cases e : (t.node i).childless with
            | false => rfl
            | true => rw [Node.childless_iff.1 e bit] at hc; cases hc
          have := ih (j := j + 1) ht ((hw.shape (.inr (.inl hchild))).walk hlt.2) (by rw [hnodes, hpar]; exact hcap)
          refine Res.Post.mono this ?_ ?_
          · rintro e u ⟨⟨u1, u2, u3, u4⟩, hu, he⟩
            exact ⟨⟨hf.insert.trans u1, u2, by rw [hnodes] at u3; exact u3, by rw [hpar] at u4; exact u4⟩, hu, by omega⟩
          · rintro f u ⟨u1, u2, u3, u4⟩
            exact ⟨hf.insert.trans u1, u2, by rw [hnodes] at u3; exact u3, by rw [hpar] at u4; exact u4⟩
        · rename_i hc
          split
          · exact base
          · rename_i hne
            have hlt : t.nodes.length < s.par.nodeCap := by
              have h1 : t.nodes.length ≠ t.par.nodeCap := hne
              rw [hpar] at h1
              rw [hnodes] at h1 ⊢
              omega
            have hw' := allocChild_shape hw (by simpa using hl) hc
            have := ih (j := j + 1) (i := t.nodeCount) (s := t.allocChild i bit) (hI t _ ht) hw'
              (by rw [allocChild_length]; show _ ≤ t.par.nodeCap; rw [hpar]; exact hlt)
            have hfr : InsertFrame s (t.allocChild i bit) := hf.insert.trans rfl
            have hi := hw.here
            refine Res.Post.mono this ?_ ?_
            · rintro e u ⟨⟨u1, u2, u3, u4⟩, hu, he⟩
              simp only [allocChild_length, hnodes] at u3
              have u4 : u.nodes.length ≤ t.par.nodeCap := u4
              rw [hpar] at u4
              exact ⟨⟨hfr.trans u1, u2, by omega, u4⟩, hu, by have hh : t.nodeCount = t.nodes.length := rfl; omega⟩
            · rintro f u ⟨u1, u2, u3, u4⟩
              simp only [allocChild_length, hnodes] at u3
              have u4 : u.nodes.length ≤ t.par.nodeCap := u4
              rw [hpar] at u4
              exact ⟨hfr.trans u1, u2, by omega, u4⟩

/-- TrieInsert keeps R33 when it returns, and never leaves its unit. -/
theorem trieInsert_post {nextBit : Nat → State → Res Bool} {I : State → Prop} (hnb : ReadsOnly nextBit I)
    (hI : ∀ s v, I s → I (s.setNodes v)) (sym : Byte) (len : Nat) {s : State} (hs : I s) (h : TrieShape s.nodes)
    (hcap : s.nodes.length ≤ s.par.nodeCap) :
    (trieInsert sym len nextBit s).Post (fun _ t => Inserted I s t ∧ TrieShape t.nodes) fun _ t => Inserted I s t := by
  unfold trieInsert
  split
  · exact ⟨⟨rfl, hs, Nat.le_refl _, hcap⟩, h⟩
  · rename_i hlen
    refine Res.Post.andThen (trieWalk_post hnb hI len hs (h.walk h.2.2.2.2.1) hcap) ?_
    rintro e t ⟨hins, hw, he⟩
    unfold trieMark
    split
    · exact hins
    · rename_i hmark
      simp at hmark
      refine ⟨⟨hins.frame.trans rfl, hI t _ hins.inv, ?_, ?_⟩, markLeaf_shape hw sym (by omega) hmark.2⟩
      · simpa using hins.grows
      · simpa using hins.bounded

/-! ### A free code is inserted as one leaf -/

/-- A NextBit that delivers a bit sequence: `P j s bs` says that the bits from number `j` on are `bs`. -/
structure Feeds (nextBit : Nat → State → Res Bool) (P : Nat → State → List Bool → Prop) : Prop where
  next : ∀ j s b bs, P j s (b :: bs) → ∃ t, nextBit j s = .ok b t ∧ ReaderFrame s t ∧ P (j + 1) t bs
  stable : ∀ j s v bs, P j s bs → P j (s.setNodes v) bs

/-- How many of the nodes on the way from a path along more bits do not exist yet. -/
def missing (s : State) (pre bs : List Bool) : Nat :=
  (List.range bs.length).countP fun m => (s.follow 0 (pre ++ bs.take (m + 1))).isNone

theorem missing_cons (s : State) (pre : List Bool) (b : Bool) (bs : List Bool) :
    missing s pre (b :: bs) = (if (s.follow 0 (pre ++ [b])).isNone then 1 else 0) + missing s (pre ++ [b]) bs := by
  simp only [missing, List.length_cons, List.range_succ_eq_map, List.countP_cons, List.countP_map]
  rw [Nat.add_comm]
  congr 1
  apply List.countP_congr
  intro m _
  simp

theorem missing_congr {s t : State} {pre bs : List Bool} (h : ∀ p, pre.length < p.length → t.follow 0 p = s.follow 0 p) :
    missing t pre bs = missing s pre bs := by
  apply List.countP_congr
  intro m hm
  rw [h]
  simp at hm ⊢
  omega

theorem newNodes_eq (s : State) (code : List Bool) : s.newNodes code = missing s [] code := by
  simp only [State.newNodes, missing, List.range_succ_eq_map, List.countP_cons, List.countP_map]
  simp [State.follow]
  apply List.countP_congr
  intro m _
  simp

/-- What TrieInsert's walk leaves after the bits `bs` from the path `pre` (R143): it stands in `t` at the node `e` they
name; the nodes on the way that were missing are there, and no code names another symbol. -/
structure Along (s t : State) (pre bs : List Bool) (e : Nat) : Prop where
  shape : WalkShape t.nodes e
  here : t.follow 0 (pre ++ bs) = some e
  leaves : ∀ p, t.leafAt p = s.leafAt p
  count : t.nodes.length = s.nodes.length + missing s pre bs
  paths : ∀ p, (t.follow 0 p).isSome ↔ (s.follow 0 p).isSome ∨ ∃ k ≤ bs.length, p = pre ++ bs.take k
  frame : InsertFrame s t
  old : missing s pre bs = 0 → t.nodes = s.nodes
  fresh : s.follow 0 (pre ++ bs) = none → 0 < e ∧ (t.node e).leaf = false ∧ (t.node e).childless = true

/-- The walk of TrieInsert along bits that run through no leaf, with room for their new nodes and `n` bits to go after them
(R143). -/
theorem trieWalk_along {nextBit : Nat → State → Res Bool} {P : Nat → State → List Bool → Prop} (hP : Feeds nextBit P)
    (bs more : List Bool) (n : Nat) {j i : Nat} {s : State} {pre : List Bool} (hbits : P j s (bs ++ more))
    (h : WalkShape s.nodes i) (hpre : s.follow 0 pre = some i) (hleaf : ∀ k < bs.length, s.leafAt (pre ++ bs.take k) = none)
    (hcap : 0 < missing s pre bs → s.nodes.length + missing s pre bs ≤ s.par.nodeCap) :
    ∃ t e, trieWalk nextBit (bs.length + n) j i s = trieWalk nextBit n (j + bs.length) e t ∧ Along s t pre bs e ∧
      P (j + bs.length) t more := by
  induction bs generalizing j i s pre with
  | nil =>
    refine ⟨s, i, by simp, ⟨h, by simpa using hpre, fun _ => rfl, by simp [missing], fun p => ?_, rfl, fun _ => rfl, ?_⟩, hbits⟩
    · constructor
      · exact .inl
      · rintro (hp | ⟨k, _, rfl⟩)
        · exact hp
        · simp [hpre]
    · intro hn
      rw [List.append_nil, hpre] at hn
      cases hn
  | cons b bs ih =>
    obtain ⟨t, ht, hf, hbits'⟩ := hP.next j s b (bs ++ more) hbits
    have hfields := hf.fields
    have hpar : t.par = s.par := hfields.1
    have hnodes : t.nodes = s.nodes := hfields.2.2.2.2.2.2.1
    have hw : WalkShape t.nodes i := by rw [hnodes]; exact h
    have hl : (t.node i).leaf = false := by
      have := hleaf 0 (by simp)
      rw [State.node_congr hnodes]
      cases e : (s.node i).leaf with
      | false => rfl
      | true => simp [State.leafAt, hpre, e] at this
    have hpre' : t.follow 0 pre = some i := by rw [State.follow_congr hnodes]; exact hpre
    have hsnoc : t.follow 0 (pre ++ [b]) = (t.node i).child b := by rw [State.follow_snoc, hpre']; rfl
    have hsplit (k : Nat) : pre ++ (b :: bs).take (k + 1) = (pre ++ [b]) ++ bs.take k := by simp
    have hall : pre ++ b :: bs = (pre ++ [b]) ++ bs := by simp
    have hmiss := missing_cons s pre b bs
    have hj : j + (b :: bs).length = j + 1 + bs.length := by simp; omega
    have hn : (b :: bs).length + n = bs.length + n + 1 := by simp; omega
    have hpaths (p : List Bool) : (∃ k ≤ (b :: bs).length, p = pre ++ (b :: bs).take k) ↔
        p = pre ∨ ∃ k ≤ bs.length, p = (pre ++ [b]) ++ bs.take k := by
      constructor
      · rintro ⟨k, hk, rfl⟩
        cases k with
        | zero => simp
        | succ k => exact .inr ⟨k, by simpa using hk, hsplit k⟩
      · rintro (rfl | ⟨k, hk, rfl⟩)
        · exact ⟨0, by simp, by simp⟩
        · exact ⟨k + 1, by simpa using hk, (hsplit k).symm⟩
    rw [hj, hn]
    simp only [trieWalk, ht, Res.andThen_ok, hl, Bool.false_eq_true, if_false]
    cases hc : (t.node i).child b with
    | some c =>
      have hlt := hw.child_lt hw.here hc
      have hchild : (t.nodes[i]'hw.here).childless = false := by
        rw [← State.node_lt hw.here]
        cases e : (t.node i).childless with
        | false => rfl
        | true => rw [Node.childless_iff.1 e b] at hc; cases hc
      have hs' : s.follow 0 (pre ++ [b]) = some c := by rw [← State.follow_congr hnodes, hsnoc, hc]
      rw [hs'] at hmiss
      simp only [Option.isNone_some, Bool.false_eq_true, if_false, Nat.zero_add] at hmiss
      have hmt : missing t (pre ++ [b]) bs = missing s (pre ++ [b]) bs :=
        missing_congr fun p _ => State.follow_congr hnodes 0 p
      obtain ⟨u, e, hu, a, hmore⟩ := ih (j := j + 1) (i := c) (s := t) (pre := pre ++ [b]) hbits'
        ((hw.shape (.inr (.inl hchild))).walk hlt.2) (by rw [hsnoc, hc])
        (fun k hk => by
          rw [State.leafAt_congr hnodes, ← hsplit]; exact hleaf (k + 1) (by simp; omega))
        (by rw [hmt, hnodes, hpar, ← hmiss]; exact hcap)
      refine ⟨u, e, hu, ⟨a.shape, by rw [hall]; exact a.here, fun p => by rw [a.leaves, State.leafAt_congr hnodes],
        by rw [a.count, hnodes, hmt, hmiss], fun p => ?_, hf.insert.trans a.frame,
        fun hz => by rw [a.old (by rw [hmt, ← hmiss]; exact hz), hnodes],
        fun hn => a.fresh (by rw [State.follow_congr hnodes, ← hall]; exact hn)⟩, hmore⟩
      rw [a.paths, State.follow_congr hnodes, hpaths]
      constructor
      · rintro (hp | hp)
        · exact .inl hp
        · exact .inr (.inr hp)
      · rintro (hp | rfl | hp)
        · exact .inl hp
        · exact .inl (by simp [hpre])
        · exact .inr hp
    | none =>
      have hs' : s.follow 0 (pre ++ [b]) = none := by rw [← State.follow_congr hnodes, hsnoc, hc]
      rw [hs'] at hmiss
      simp only [Option.isNone_none, if_true] at hmiss
      have hne : t.nodeCount ≠ t.par.nodeCap := by
        have := hcap (by omega)
        show t.nodes.length ≠ _
        rw [hnodes, hpar]; omega
      have hfol := allocChild_follow hw hc hpre'
      have hmt : missing (t.allocChild i b) (pre ++ [b]) bs = missing s (pre ++ [b]) bs := by
        apply missing_congr
        intro p hp
        rw [hfol, if_neg, State.follow_congr hnodes]
        intro e
        rw [e] at hp
        omega
      have hwa := allocChild_shape hw hl hc
      obtain ⟨u, e, hu, a, hmore⟩ := ih (j := j + 1) (i := t.nodes.length) (s := t.allocChild i b)
        (pre := pre ++ [b]) (hP.stable _ _ _ _ hbits') hwa (by rw [hfol, if_pos rfl])
        (fun k hk => by
          rw [allocChild_leafAt hw hc hpre', State.leafAt_congr hnodes, ← hsplit]
          exact hleaf (k + 1) (by simp; omega))
        (by
          intro _
          have := hcap (by omega)
          rw [hmt]
          simp only [allocChild_length, hnodes]
          show _ ≤ t.par.nodeCap
          rw [hpar]; omega)
      refine ⟨u, e, ?_, ⟨a.shape, by rw [hall]; exact a.here,
        fun p => by rw [a.leaves, allocChild_leafAt hw hc hpre', State.leafAt_congr hnodes], ?_, fun p => ?_,
        (hf.insert.trans (show InsertFrame t (t.allocChild i b) from rfl)).trans a.frame, fun hz => by omega, fun _ => ?_⟩, hmore⟩
      · simp only [hne, if_false]
        exact hu
      · rw [a.count, hmt]
        simp only [allocChild_length, hnodes]
        omega
      · rw [a.paths, hfol, hpaths]
        constructor
        · rintro (hp | hp)
          · split at hp
            · rename_i e; exact .inr (.inr ⟨0, by simp, by simpa using e⟩)
            · rw [State.follow_congr hnodes] at hp; exact .inl hp
          · exact .inr (.inr hp)
        · rintro (hp | rfl | hp)
          · left
            split
            · rfl
            · rw [State.follow_congr hnodes]; exact hp
          · left
            split
            · rfl
            · simp [hpre']
          · exact .inr hp
      · cases bs with
        | nil =>
          have hold := a.old rfl
          have he := a.here
          rw [List.append_nil, State.follow_congr hold, hfol, if_pos rfl] at he
          have he : e = t.nodes.length := (Option.some.inj he).symm
          have := hw.here
          rw [State.node_congr hold, he, allocChild_node t b hw.here (Nat.le_refl _), if_pos rfl]
          exact ⟨by omega, rfl, rfl⟩
        | cons b' bs =>
          refine a.fresh ?_
          rw [hfol, if_neg (by simp), State.follow_append, State.follow_congr hnodes 0 (pre ++ [b]), hs']
          rfl

/-- TrieInsert of a free code for which there is room adds exactly that code (R143, R146). -/
theorem trieInsert_free {nextBit : Nat → State → Res Bool} {P : Nat → State → List Bool → Prop} (hP : Feeds nextBit P)
    (sym : Byte) {code : List Bool} {s : State} (hbits : P 0 s code) (h : TrieShape s.nodes) (hne : code ≠ [])
    (hfree : s.codeFree code) (hcap : s.nodeCount + s.newNodes code ≤ s.par.nodeCap) :
    ∃ t, trieInsert sym code.length nextBit s = .ok () t ∧ TrieShape t.nodes ∧
      (∀ p, t.leafAt p = if p = code then some sym else s.leafAt p) ∧
      t.nodeCount = s.nodeCount + s.newNodes code ∧ InsertFrame s t ∧
      P code.length t [] := by
  have h0 := h.2.2.2.2.1
  rw [newNodes_eq] at hcap ⊢
  obtain ⟨t, e, ht, a, t6⟩ := trieWalk_along hP code [] 0 (pre := []) (by simpa using hbits) (h.walk h0) rfl hfree.1
    (fun _ => hcap)
  have t3 := a.fresh hfree.2
  refine ⟨t.markLeaf e sym, ?_, markLeaf_shape a.shape sym t3.1 t3.2.2, ?_, ?_, a.frame.trans rfl, ?_⟩
  · have hlen : ¬ code.length = 0 := by simpa using hne
    simp only [Nat.add_zero] at ht
    simp [trieInsert, hlen, ht, trieWalk, trieMark, t3.2.1, t3.2.2]
  · intro p
    rw [markLeaf_leafAt a.shape sym a.here, a.leaves]
    rfl
  · show (t.markLeaf e sym).nodes.length = _
    rw [markLeaf_length, a.count]
    rfl
  · exact hP.stable _ _ _ _ (by simpa using t6)

/-- TR_INSERT_STREAM's NextBit delivers the unread bits (R145). -/
theorem stream_feeds (rest : List Bool) : Feeds nextStreamBit fun _ s bs => s.unreadBits = bs ++ rest := by
  refine ⟨?_, fun _ _ _ _ h => h⟩
  intro j s b bs h
  obtain ⟨t, h1, h2, h3⟩ := readBit_next h
  exact ⟨t, h1, h3, h2⟩

/-- TR_INSERT_CODE's NextBit delivers the code operand (R147). -/
theorem code_feeds (code : List Bool) : Feeds (nextCodeBit code) fun j _ bs => code.drop j = bs := by
  refine ⟨?_, fun _ _ _ _ h => h⟩
  intro j s b bs h
  have hj : j < code.length := by
    have := congrArg List.length h
    simp at this
    omega
  rw [List.drop_eq_getElem_cons hj] at h
  obtain ⟨h1, h2⟩ := List.cons.inj h
  exact ⟨s, by simp [nextCodeBit, hj, h1], rfl, h2⟩

end Sys2Proof.Machine
end

