-- ==== Sys2Proof/Laws/Writer.lean ====
section
/-! SUPPORT. What the bit writer's helpers can do (41_bit_writer R120 to R123), in bits, in emitted bytes and in sink
events. -/

namespace Sys2Proof.Machine

theorem WriterFrame.refl (s : State) : WriterFrame s s := rfl

theorem WriterFrame.trans {s t u : State} (h : WriterFrame s t) (h' : WriterFrame t u) : WriterFrame s u := by
  unfold WriterFrame at *
  rw [h'] ; rw [h]

/-- What a writer frame leaves as it is. -/
theorem WriterFrame.fields {s t : State} (h : WriterFrame s t) :
    t.par = s.par ∧ t.rdCache = s.rdCache ∧ t.rdRem = s.rdRem ∧ t.wrClosed = s.wrClosed ∧ t.ctLen = s.ctLen ∧
    t.ctBits = s.ctBits ∧ t.nodes = s.nodes ∧ t.decCount = s.decCount ∧ t.encCount = s.encCount ∧ t.fault = s.fault ∧
    t.cmdSeq = s.cmdSeq ∧ t.inPos = s.inPos ∧ t.cmd = s.cmd ∧ t.resp = s.resp := by
  unfold WriterFrame at h
  rw [h]
  simp

theorem State.sinkOk_of_par {s t : State} (h : t.par = s.par) (k : Nat) : t.sinkOk k = s.sinkOk k := by
  simp [State.sinkOk, h]

/-- Bits were written and nothing failed: the stream grew by them, whole bytes were emitted in order, each answered Ok. -/
structure Wrote (s t : State) (bs : List Bool) : Prop where
  par : t.par = s.par
  bits : t.writtenBits = s.writtenBits ++ bs
  inv : t.WriterInv
  emitted : ∃ bytes : List Byte, t.outBytes = s.outBytes ++ bytes ∧ t.outEvents = s.outEvents ++ bytes.map .emit ∧
    8 * bytes.length + t.wrCnt.val = s.wrCnt.val + bs.length ∧
    ∀ k < bytes.length, s.sinkOk (s.outEvents.length + k) = .ok

/-- Writing `n` bits failed at an emit: the bytes before it were emitted Ok, and its byte may or may not be in OUT. -/
structure WriteFailed (s t : State) (n : Nat) : Prop where
  par : t.par = s.par
  inv : t.WriterInv
  emitted : ∃ (bytes : List Byte) (b : Byte),
    (t.outBytes = s.outBytes ++ bytes ∨ t.outBytes = s.outBytes ++ bytes ++ [b]) ∧
    t.outEvents = s.outEvents ++ bytes.map .emit ++ [.emit b] ∧
    8 * (bytes.length + 1) ≤ s.wrCnt.val + n ∧
    (∀ k < bytes.length, s.sinkOk (s.outEvents.length + k) = .ok) ∧
    s.sinkOk (s.outEvents.length + bytes.length) = .fail

/-- The writer's part of the state is all that `Wrote` looks at. -/
theorem Wrote.congr {s t s' t' : State} {bs : List Bool} (h : Wrote s t bs) (hs : s'.par = s.par ∧
    s'.wrCache = s.wrCache ∧ s'.wrCnt = s.wrCnt ∧ s'.outBytes = s.outBytes ∧ s'.outEvents = s.outEvents)
    (ht : t'.par = t.par ∧ t'.wrCache = t.wrCache ∧ t'.wrCnt = t.wrCnt ∧ t'.outBytes = t.outBytes ∧
      t'.outEvents = t.outEvents) : Wrote s' t' bs := by
  obtain ⟨h1, h2, h3, x, h4, h5, h6, h7⟩ := h
  obtain ⟨a1, a2, a3, a4, a5⟩ := hs
  obtain ⟨b1, b2, b3, b4, b5⟩ := ht
  refine ⟨by rw [b1, h1, a1], ?_, ?_, x, by rw [b4, h4, a4], by rw [b5, h5, a5], by rw [b3, a3]; exact h6, ?_⟩
  · simpa [State.writtenBits, a2, a3, a4, b2, b3, b4] using h2
  · simpa [State.WriterInv, b2, b3] using h3
  · simpa [State.sinkOk, a1, a5] using h7

/-- The writer's part of the state is all that `WriteFailed` looks at. -/
theorem WriteFailed.congr {s t s' t' : State} {n : Nat} (h : WriteFailed s t n) (hs : s'.par = s.par ∧
    s'.wrCache = s.wrCache ∧ s'.wrCnt = s.wrCnt ∧ s'.outBytes = s.outBytes ∧ s'.outEvents = s.outEvents)
    (ht : t'.par = t.par ∧ t'.wrCache = t.wrCache ∧ t'.wrCnt = t.wrCnt ∧ t'.outBytes = t.outBytes ∧
      t'.outEvents = t.outEvents) : WriteFailed s' t' n := by
  obtain ⟨h1, h2, x, b, h3, h4, h5, h6, h7⟩ := h
  obtain ⟨a1, a2, a3, a4, a5⟩ := hs
  obtain ⟨b1, b2, b3, b4, b5⟩ := ht
  refine ⟨by rw [b1, h1, a1], ?_, x, b, by rw [b4, a4]; exact h3, by rw [b5, h4, a5], by rw [a3]; exact h5, ?_, ?_⟩
  · simpa [State.WriterInv, b2, b3] using h2
  · simpa [State.sinkOk, a1, a5] using h6
  · simpa [State.sinkOk, a1, a5] using h7

theorem Wrote.refl {s : State} (h : s.WriterInv) : Wrote s s [] :=
  ⟨rfl, by simp, h, [], by simp, by simp, by simp, by simp⟩

theorem Wrote.trans {s t u : State} {a b : List Bool} (h : Wrote s t a) (h' : Wrote t u b) : Wrote s u (a ++ b) := by
  obtain ⟨f1, b1, _, x, x1, x2, x3, x4⟩ := h
  obtain ⟨f2, b2, i2, y, y1, y2, y3, y4⟩ := h'
  refine ⟨f2.trans f1, by rw [b2, b1, List.append_assoc], i2, x ++ y, by rw [y1, x1, List.append_assoc], ?_, ?_, ?_⟩
  · rw [y2, x2]; simp
  · simp; omega
  · intro k hk
    by_cases hx : k < x.length
    · exact x4 k hx
    · have := y4 (k - x.length) (by simp at hk; omega)
      rw [State.sinkOk_of_par f1, x2] at this
      simp at this
      rwa [show s.outEvents.length + k = s.outEvents.length + x.length + (k - x.length) by omega]

theorem Wrote.failed {s t u : State} {a : List Bool} {n : Nat} (h : Wrote s t a) (h' : WriteFailed t u n) :
    WriteFailed s u (a.length + n) := by
  obtain ⟨f1, b1, _, x, x1, x2, x3, x4⟩ := h
  obtain ⟨f2, i2, y, b, y1, y2, y3, y4, y5⟩ := h'
  refine ⟨f2.trans f1, i2, x ++ y, b, ?_, ?_, ?_, ?_, ?_⟩
  · rw [x1] at y1
    simpa [List.append_assoc] using y1
  · rw [y2, x2]; simp
  · simp; omega
  · intro k hk
    by_cases hx : k < x.length
    · exact x4 k hx
    · have := y4 (k - x.length) (by simp at hk; omega)
      rw [State.sinkOk_of_par f1, x2] at this
      simp at this
      rwa [show s.outEvents.length + k = s.outEvents.length + x.length + (k - x.length) by omega]
  · rw [State.sinkOk_of_par f1, x2] at y5
    simp at y5
    rw [← y5]; simp; congr 1; omega

theorem WriteFailed.mono {s t : State} {n m : Nat} (h : WriteFailed s t n) (hm : n ≤ m) : WriteFailed s t m := by
  obtain ⟨f, i, x, b, h1, h2, h3, h4, h5⟩ := h
  exact ⟨f, i, x, b, h1, h2, by omega, h4, h5⟩

/-- A sink that answers Ok to the events `n` bits need leaves no room for a failure. -/
theorem WriteFailed.absurd {s t : State} {n : Nat} (h : WriteFailed s t n) (hs : s.SinkOkFor ((s.wrCnt.val + n) / 8)) :
    False := by
  obtain ⟨_, _, x, b, _, _, h3, _, h5⟩ := h
  have := hs x.length (by omega)
  rw [h5] at this
  cases this

/-! ### WriteBit -/

theorem writeBit_small {s : State} (b : Bool) (h : s.wrCnt.val < 7) :
    writeBit b s = .ok () (s.setWriter (cacheWithBit s b) ⟨s.wrCnt.val + 1, by omega⟩) := by
  have h1 : ¬ (s.wrCnt.val + 1 = 8) := by omega
  simp only [writeBit, h1, if_false]
  congr 2
  apply Fin.ext
  simp [Fin.ofNat]
  omega

theorem writeBit_full {s : State} (b : Bool) (h : s.wrCnt.val = 7) :
    writeBit b s = sinkStep (outEmit (cacheWithBit s b) (s.setWriter 0x00#8 0)) := by
  simp [writeBit, h]

/-- WriteBit, said once (R120). -/
theorem writeBit_post {s : State} (b : Bool) (hw : s.WriterInv) :
    (writeBit b s).Post (fun _ t => WriterFrame s t ∧ Wrote s t [b]) fun f t => f = .ioError ∧ WriterFrame s t ∧ WriteFailed s t 1 := by
  have hlt := s.wrCnt.isLt
  have hset := take_bits_set s.wrCache s.wrCnt.val b hlt hw
  by_cases h : s.wrCnt.val < 7
  · rw [writeBit_small b h]
    refine ⟨rfl, rfl, ?_, set_small _ _ _ hw, [], by simp, by simp, by simp, by simp⟩
    simp only [State.writtenBits, State.setWriter_outBytes, State.setWriter_wrCache, State.setWriter_wrCnt,
      List.append_assoc]
    rw [← hset]; rfl
  · have h7 : s.wrCnt.val = 7 := by omega
    rw [writeBit_full b h7]
    rcases sinkStep_outEmit_cases (cacheWithBit s b) (s.setWriter 0x00#8 0) with ⟨h1, he⟩ | ⟨h1, bytes, hb, he⟩
    · rw [he]
      refine ⟨rfl, rfl, ?_, by simp [State.WriterInv], [cacheWithBit s b], by simp, by simp, by simp [h7], ?_⟩
      · rw [h7] at hset
        rw [take_eight_bits] at hset
        simp only [State.writtenBits, State.setOut_outBytes, State.setWriter_outBytes, bitsOf_append, bitsOf_cons,
          bitsOf_nil, State.setOut_wrCnt, State.setWriter_wrCnt, h7, List.append_assoc]
        rw [← hset]
        simp [cacheWithBit, h7]
      · intro k hk
        simp at hk
        simpa [hk] using h1
    · rw [he]
      refine ⟨rfl, rfl, rfl, by simp [State.WriterInv], [], cacheWithBit s b, ?_, by simp, by simp [h7], by simp, by simpa using h1⟩
      simpa using hb

/-- WriteBit of a bit sequence (R120, R172). -/
theorem writeBits_post (bs : List Bool) {s : State} (hw : s.WriterInv) :
    (writeBits bs s).Post (fun _ t => WriterFrame s t ∧ Wrote s t bs)
      fun f t => f = .ioError ∧ WriterFrame s t ∧ WriteFailed s t bs.length := by
  induction bs generalizing s with
  | nil => exact ⟨rfl, Wrote.refl hw⟩
  | cons b bs ih =>
    unfold writeBits
    have h := writeBit_post b hw
    cases he : writeBit b s with
    | raise f t =>
      rw [he] at h
      exact ⟨h.1, h.2.1, h.2.2.mono (by simp)⟩
    | ok _ t =>
      rw [he] at h
      refine Res.Post.mono (ih h.2.inv) (fun _ u hu => ⟨h.1.trans hu.1, h.2.trans hu.2⟩)
        fun f u hu => ⟨hu.1, h.1.trans hu.2.1, ?_⟩
      exact (h.2.failed hu.2.2).mono (by simp; omega)

/-- WriteByte, aligned or split (R121, R123). -/
theorem writeByte_post (d : Byte) {s : State} (hw : s.WriterInv) :
    (writeByte d s).Post (fun _ t => WriterFrame s t ∧ Wrote s t (bitsOfByte d))
      fun f t => f = .ioError ∧ WriterFrame s t ∧ WriteFailed s t 8 := by
  unfold writeByte
  by_cases h : s.wrCnt = 0
  · rw [if_pos h]
    rcases sinkStep_outEmit_cases d s with ⟨h1, he⟩ | ⟨h1, bytes, hb, he⟩
    · rw [he]
      refine ⟨rfl, rfl, by simp [State.writtenBits, h], hw, [d], by simp, by simp, by simp [h], ?_⟩
      intro k hk
      simp at hk
      simpa [hk] using h1
    · rw [he]
      exact ⟨rfl, rfl, rfl, hw, [], d, by simpa using hb, by simp, by simp [h], by simp, by simpa using h1⟩
  · rw [if_neg h]
    exact Res.Post.mono (writeBits_post _ hw) (fun _ _ h => h) fun _ _ h => by simpa using h

/-- WriteByte of a byte list (R126). -/
theorem writeBytes_post (ds : List Byte) {s : State} (hw : s.WriterInv) :
    (writeBytes ds s).Post (fun _ t => WriterFrame s t ∧ Wrote s t (bitsOf ds))
      fun f t => f = .ioError ∧ WriterFrame s t ∧ WriteFailed s t (8 * ds.length) := by
  induction ds generalizing s with
  | nil => exact ⟨rfl, Wrote.refl hw⟩
  | cons d ds ih =>
    unfold writeBytes
    have h := writeByte_post d hw
    cases he : writeByte d s with
    | raise f t =>
      rw [he] at h
      exact ⟨h.1, h.2.1, h.2.2.mono (by simp)⟩
    | ok _ t =>
      rw [he] at h
      refine Res.Post.mono (ih h.2.inv) (fun _ u hu => ⟨h.1.trans hu.1, h.2.trans hu.2⟩)
        fun f u hu => ⟨hu.1, h.1.trans hu.2.1, ?_⟩
      exact (h.2.failed hu.2.2).mono (by simp; omega)

/-! ### Writing with a sink that answers Ok -/

/-- The answers left after some bits were written. -/
theorem Wrote.sinkOkFor {s t : State} {bs : List Bool} {m k : Nat} (h : Wrote s t bs)
    (hs : s.SinkOkFor ((s.wrCnt.val + (bs.length + m)) / 8 + k)) : t.SinkOkFor ((t.wrCnt.val + m) / 8 + k) := by
  obtain ⟨h1, _, _, x, _, h5, h6, _⟩ := h
  intro j hj
  have := hs (x.length + j) (by omega)
  rw [State.sinkOk_of_par h1, h5]
  simpa [Nat.add_assoc] using this

theorem State.SinkOkFor.mono {s : State} {m n : Nat} (h : s.SinkOkFor n) (hm : m ≤ n) : s.SinkOkFor m :=
  fun k hk => h k (by omega)

theorem writeBits_ok (bs : List Bool) {s : State} (hw : s.WriterInv)
    (hs : s.SinkOkFor ((s.wrCnt.val + bs.length) / 8)) :
    ∃ t, writeBits bs s = .ok () t ∧ WriterFrame s t ∧ Wrote s t bs := by
  have h := writeBits_post bs hw
  cases he : writeBits bs s with
  | ok _ t => rw [he] at h; exact ⟨t, rfl, h⟩
  | raise f t => rw [he] at h; exact (h.2.2.absurd hs).elim

theorem writeByte_ok (d : Byte) {s : State} (hw : s.WriterInv) (hs : s.SinkOkFor 1) :
    ∃ t, writeByte d s = .ok () t ∧ WriterFrame s t ∧ Wrote s t (bitsOfByte d) := by
  have h := writeByte_post d hw
  cases he : writeByte d s with
  | ok _ t => rw [he] at h; exact ⟨t, rfl, h⟩
  | raise f t => rw [he] at h; exact (h.2.2.absurd (hs.mono (by omega))).elim

theorem writeBytes_ok (ds : List Byte) {s : State} (hw : s.WriterInv) (hs : s.SinkOkFor ds.length) :
    ∃ t, writeBytes ds s = .ok () t ∧ WriterFrame s t ∧ Wrote s t (bitsOf ds) := by
  have h := writeBytes_post ds hw
  cases he : writeBytes ds s with
  | ok _ t => rw [he] at h; exact ⟨t, rfl, h⟩
  | raise f t => rw [he] at h; exact (h.2.2.absurd (hs.mono (by omega))).elim

/-! ### AlignW -/

/-- AlignW returned (R122): the partial byte is out with zero padding, the sink was flushed, the writer is aligned. -/
structure Aligned (s t : State) (pad : Nat) : Prop where
  frame : WriterFrame s t
  count : t.wrCnt = 0
  inv : t.WriterInv
  padding : pad = (8 - s.wrCnt.val) % 8
  bytes : t.outBytes = s.outBytes ++ (if s.wrCnt = 0 then [] else [s.wrCache])
  events : t.outEvents = s.outEvents ++ (if s.wrCnt = 0 then [] else [.emit s.wrCache]) ++ [.flush]
  answers : s.SinkOkFor (if s.wrCnt = 0 then 1 else 2)

/-- AlignW failed at the emit of the partial byte or at the flush (R122, R129). -/
structure AlignFailed (s t : State) : Prop where
  frame : WriterFrame s t
  inv : t.WriterInv
  event : (s.wrCnt ≠ 0 ∧ s.sinkOk s.outEvents.length = .fail ∧ t.outEvents = s.outEvents ++ [.emit s.wrCache] ∧
      (t.outBytes = s.outBytes ∨ t.outBytes = s.outBytes ++ [s.wrCache])) ∨
    (s.wrCnt ≠ 0 ∧ s.sinkOk s.outEvents.length = .ok ∧ s.sinkOk (s.outEvents.length + 1) = .fail ∧
      t.outEvents = s.outEvents ++ [.emit s.wrCache, .flush] ∧ t.outBytes = s.outBytes ++ [s.wrCache]) ∨
    (s.wrCnt = 0 ∧ s.sinkOk s.outEvents.length = .fail ∧ t.outEvents = s.outEvents ++ [.flush] ∧
      t.outBytes = s.outBytes)

/-- AlignW, said once (R122). -/
theorem alignW_post {s : State} (hw : s.WriterInv) :
    (alignW s).Post (fun pad t => Aligned s t pad) fun f t => f = .ioError ∧ AlignFailed s t := by
  unfold alignW
  by_cases h : s.wrCnt = 0
  · rw [if_pos h]
    rcases sinkStep_outFlush_cases s with ⟨h1, he⟩ | ⟨h1, he⟩
    · rw [he]
      refine ⟨rfl, h, hw, by simp [h], by simp [h], by simp [h], ?_⟩
      intro k hk
      simp [h] at hk
      simpa [hk] using h1
    · rw [he]
      exact ⟨rfl, rfl, hw, .inr (.inr ⟨h, h1, rfl, rfl⟩)⟩
  · rw [if_neg h]
    have hlt := s.wrCnt.isLt
    have hne : s.wrCnt.val ≠ 0 := fun e => h (Fin.ext e)
    rcases sinkStep_outEmit_cases s.wrCache (s.setWriter 0x00#8 0) with ⟨h1, he⟩ | ⟨h1, bytes, hb, he⟩
    · rw [he]
      simp only [State.setWriter_outBytes, State.setWriter_outEvents] at he ⊢
      rcases sinkStep_outFlush_cases
        ((s.setWriter 0x00#8 0).setOut (s.outBytes ++ [s.wrCache]) (s.outEvents ++ [.emit s.wrCache])) with
        ⟨h2, he2⟩ | ⟨h2, he2⟩
      · simp only [Res.andThen_ok, he2, Res.post_ok]
        refine ⟨rfl, rfl, by simp [State.WriterInv], by omega, by simp [h], by simp [h], ?_⟩
        intro k hk
        simp [h] at hk
        interval_cases k
        · simpa using h1
        · simpa using h2
      · simp only [Res.andThen_ok, he2, Res.andThen_raise, Res.post_raise]
        refine ⟨trivial, rfl, by simp [State.WriterInv], .inr (.inl ⟨h, by simpa using h1, by simpa using h2, by simp, by simp⟩)⟩
    · rw [he]
      exact ⟨rfl, rfl, by simp [State.WriterInv], .inl ⟨h, by simpa using h1, by simp, by simpa using hb⟩⟩

/-- AlignW returns when the sink answers Ok to the emit it needs and to the flush (R122). -/
theorem alignW_ok {s : State} (hw : s.WriterInv) (hs : s.SinkOkFor ((s.wrCnt.val + 7) / 8 + 1)) :
    ∃ pad t, alignW s = .ok pad t ∧ Aligned s t pad := by
  have h := alignW_post hw
  cases he : alignW s with
  | ok pad t => rw [he] at h; exact ⟨pad, t, rfl, h⟩
  | raise f t =>
    rw [he] at h
    exfalso
    have hlt := s.wrCnt.isLt
    have ne (h : s.wrCnt ≠ 0) : s.wrCnt.val ≠ 0 := fun e => h (Fin.ext e)
    rcases h.2.event with ⟨h0, h1, _⟩ | ⟨h0, _, h1, _⟩ | ⟨_, h1, _⟩
    · have := hs 0 (by omega)
      rw [Nat.add_zero, h1] at this; cases this
    · have := hs 1 (by have := ne h0; omega)
      rw [h1] at this; cases this
    · have := hs 0 (by omega)
      rw [Nat.add_zero, h1] at this; cases this

/-- What AlignW leaves in OUT, in bits: the written stream, then zeros (R122). -/
theorem Aligned.bits {s t : State} {pad : Nat} (h : Aligned s t pad) (hw : s.WriterInv) :
    bitsOf t.outBytes = s.writtenBits ++ List.replicate pad false := by
  rw [h.bytes, h.padding]
  by_cases h0 : s.wrCnt = 0
  · simp [State.writtenBits, h0]
  · have hlt := s.wrCnt.isLt
    have hne : s.wrCnt.val ≠ 0 := fun e => h0 (Fin.ext e)
    have := padded_bits s.wrCache s.wrCnt.val (by omega) hw
    simp only [State.writtenBits, h0, if_false, bitsOf_append, bitsOf_cons, bitsOf_nil, List.append_nil, List.append_assoc]
    rw [show (8 - s.wrCnt.val) % 8 = 8 - s.wrCnt.val by omega, ← this]

end Sys2Proof.Machine
end

