-- ==== Sys2Proof/Laws/Codec.lean ====
section
/-! SUPPORT. What the codec's helpers can do (43_codec R170 to R177): DecodeOne, one encoded symbol, and the loops of
COMPRESS and DECOMPRESS. -/

namespace Sys2Proof.Machine

theorem CodecFrame.refl (s : State) : CodecFrame s s := rfl

theorem CodecFrame.trans {s t u : State} (h : CodecFrame s t) (h' : CodecFrame t u) : CodecFrame s u := by
  unfold CodecFrame at *
  rw [h'] ; rw [h]

theorem ReaderFrame.codec {s t : State} (h : ReaderFrame s t) : CodecFrame s t := by
  unfold ReaderFrame CodecFrame at *
  rw [h]

theorem WriterFrame.codec {s t : State} (h : WriterFrame s t) : CodecFrame s t := by
  unfold WriterFrame CodecFrame at *
  rw [h]

/-- What a codec frame leaves as it is. -/
theorem CodecFrame.fields {s t : State} (h : CodecFrame s t) :
    t.par = s.par ∧ t.wrClosed = s.wrClosed ∧ t.ctLen = s.ctLen ∧ t.ctBits = s.ctBits ∧ t.nodes = s.nodes ∧
    t.fault = s.fault ∧ t.cmdSeq = s.cmdSeq ∧ t.cmd = s.cmd ∧ t.resp = s.resp := by
  unfold CodecFrame at h
  rw [h]
  simp

/-! ### DecodeOne -/

/-- DecodeOne's loop, said once (R170): it ends at the leaf that the consumed bits name, or raises CORRUPT_DICTIONARY where
the branch of the last consumed bit is absent or leads to a childless non-leaf, or finds the bits at an end. -/
theorem decodeWalk_post (fuel : Nat) {i : Nat} {s : State} (hfuel : s.unreadBits.length < fuel) :
    (decodeWalk fuel i s).Post
      (fun x t => ReaderFrame s t ∧ ∃ used e, used ≠ [] ∧ s.unreadBits = used ++ t.unreadBits ∧
        s.follow i used = some e ∧ (s.node e).leaf = true ∧ (s.node e).childless = true ∧ (s.node e).sym = x)
      fun f t => ReaderFrame s t ∧ ∃ used, s.unreadBits = used ++ t.unreadBits ∧
        ((f = .corruptDictionary ∧ ∃ pre b j, used = pre ++ [b] ∧ s.follow i pre = some j ∧
            (pre = [] ∨ (s.node j).childless = false) ∧
            ((s.node j).child b = none ∨
              ∃ c, (s.node j).child b = some c ∧ (s.node c).childless = true ∧ (s.node c).leaf = false)) ∨
          (f = terminalFault s.par.inTerm ∧ t.unreadBits = [] ∧ ∃ j, s.follow i used = some j)) := by
  induction fuel generalizing i s with
  | zero => omega
  | succ fuel ih =>
    unfold decodeWalk
    cases hu : s.unreadBits with
    | nil =>
      rw [readBit_none hu]
      exact ⟨rfl, [], by simp [hu], .inr ⟨rfl, hu, i, rfl⟩⟩
    | cons b rest =>
      obtain ⟨t, ht, hbits, hf⟩ := readBit_next hu
      have hnodes : t.nodes = s.nodes := hf.fields.2.2.2.2.2.2.1
      have hpar : t.par = s.par := hf.fields.1
      simp only [ht, Res.andThen_ok, State.node_congr hnodes]
      split
      · rename_i hc
        exact ⟨hf, [b], by simp [hbits], .inl ⟨rfl, [], b, i, rfl, rfl, .inl rfl, .inl hc⟩⟩
      · rename_i c hc
        have hstep (p : List Bool) : s.follow i (b :: p) = s.follow c p := by simp [State.follow, hc]
        split
        · rename_i hcl
          split
          · rename_i hl
            exact ⟨hf, [b], c, by simp, by simp [hbits], by rw [hstep]; rfl, hl, hcl, rfl⟩
          · rename_i hl
            exact ⟨hf, [b], by simp [hbits], .inl ⟨rfl, [], b, i, rfl, rfl, .inl rfl, .inr ⟨c, hc, hcl, by simpa using hl⟩⟩⟩
        · rename_i hcl
          have := ih (i := c) (s := t) (by rw [hbits]; rw [hu] at hfuel; simpa using hfuel)
          refine Res.Post.mono this ?_ ?_
          · rintro x u ⟨h1, used, e, h2, h3, h4, h5, h6, h7⟩
            rw [State.follow_congr hnodes] at h4
            rw [State.node_congr hnodes] at h5 h6 h7
            exact ⟨hf.trans h1, b :: used, e, by simp, by rw [← hbits, h3]; rfl, by rw [hstep]; exact h4, h5, h6, h7⟩
          · rintro f u ⟨h1, used, h2, h3⟩
            refine ⟨hf.trans h1, b :: used, by rw [← hbits, h2]; rfl, ?_⟩
            rcases h3 with ⟨rfl, pre, a, j, rfl, h5, h6', h6⟩ | ⟨h4, h5, j, h6⟩
            · refine .inl ⟨rfl, b :: pre, a, j, rfl, ?_, .inr ?_, ?_⟩
              · rw [hstep, ← State.follow_congr hnodes]; exact h5
              · rw [State.node_congr hnodes] at h6'
                rcases h6' with rfl | h6'
                · simp [State.follow] at h5
                  subst h5
                  simpa using hcl
                · exact h6'
              · simpa only [State.node_congr hnodes] using h6
            · refine .inr ⟨by rw [h4, hpar], h5, j, ?_⟩
              rw [hstep, ← State.follow_congr hnodes]; exact h6

/-- The bound on the bits never shows: any two bounds above the bits the reader can deliver give the same walk. -/
theorem decodeWalk_fuel {m n i : Nat} {s : State} (hm : s.unreadBits.length < m) (hn : s.unreadBits.length < n) :
    decodeWalk m i s = decodeWalk n i s := by
  induction m generalizing n i s with
  | zero => omega
  | succ m ih =>
    cases n with
    | zero => omega
    | succ n =>
      unfold decodeWalk
      cases hu : s.unreadBits with
      | nil => simp [readBit_none hu]
      | cons b rest =>
        obtain ⟨t, ht, hbits, _⟩ := readBit_next hu
        rw [hu] at hm hn
        simp only [ht, Res.andThen_ok]
        split
        · rfl
        · split
          · rfl
          · exact ih (by rw [hbits]; simpa using hm) (by rw [hbits]; simpa using hn)

/-- DecodeOne's loop along the bits to a childless leaf. -/
theorem decodeWalk_leaf (bs : List Bool) {fuel i e : Nat} {s : State} {rest : List Bool} (hne : bs ≠ [])
    (hu : s.unreadBits = bs ++ rest) (hf : s.follow i bs = some e) (hl : (s.node e).leaf = true)
    (hc : (s.node e).childless = true) (hfuel : bs.length ≤ fuel) :
    ∃ t, decodeWalk fuel i s = .ok (s.node e).sym t ∧ t.unreadBits = rest ∧ ReaderFrame s t := by
  induction bs generalizing fuel i s with
  | nil => exact absurd rfl hne
  | cons b bs ih =>
    obtain ⟨fuel, rfl⟩ : ∃ n, fuel = n + 1 := ⟨fuel - 1, by simp at hfuel; omega⟩
    obtain ⟨t, ht, hbits, hfr⟩ := readBit_next (s := s) (b := b) (rest := bs ++ rest) hu
    have hn : t.nodes = s.nodes := hfr.fields.2.2.2.2.2.2.1
    simp only [decodeWalk, ht, Res.andThen_ok, State.node_congr hn]
    simp only [State.follow] at hf
    cases hch : (s.node i).child b with
    | none => simp [hch] at hf
    | some c =>
      simp only [hch] at hf
      cases bs with
      | nil =>
        simp [State.follow] at hf
        subst hf
        exact ⟨t, by simp [hc, hl], by simpa using hbits, hfr⟩
      | cons a bs =>
        have hcc : (s.node c).childless = false := by
          cases hcc : (s.node c).childless with
          | false => rfl
          | true => simp [State.follow, Node.childless_iff.1 hcc a] at hf
        obtain ⟨u, h1, h2, h3⟩ := ih (fuel := fuel) (i := c) (s := t) (by simp) hbits
          (by rw [State.follow_congr hn]; exact hf) (by rw [State.node_congr hn]; exact hl)
          (by rw [State.node_congr hn]; exact hc) (by simpa using hfuel)
        exact ⟨u, by simpa [hcc, State.node_congr hn] using h1, h2, hfr.trans h3⟩

/-- A code names a leaf: what the follow ends at. -/
theorem State.leafAt_some {s : State} {code : List Bool} {x : Byte} (h : s.leafAt code = some x) :
    ∃ e, s.follow 0 code = some e ∧ (s.node e).leaf = true ∧ (s.node e).sym = x := by
  unfold State.leafAt at h
  split at h
  · rename_i e he
    split at h
    · rename_i hle
      exact ⟨e, he, hle, by simpa using h⟩
    · cases h
  · cases h

/-- DecodeOne of a leaf's code delivers its symbol and consumes exactly the code (R170, R175). -/
theorem decodeOne_leaf {s : State} {code rest : List Bool} {x : Byte} (h : TrieShape s.nodes)
    (hu : s.unreadBits = code ++ rest) (hl : s.leafAt code = some x) :
    ∃ t, decodeOne s = .ok x t ∧ t.unreadBits = rest ∧ ReaderFrame s t := by
  have h0 := h.2.2.2.2.1
  obtain ⟨e, he, hle, rfl⟩ := State.leafAt_some hl
  have hel := ((h.walk h0).follow_lt h0 he).1
  have hcl : (s.node e).childless = true := by
    rw [State.node_lt hel] at hle ⊢
    exact h.2.2.1 e hel hle
  refine decodeWalk_leaf code ?_ hu he hle hcl ?_
  · rintro rfl
    simp [State.follow] at he
    subst he
    have := h.2.2.2.2.2
    rw [State.node_lt h0, this] at hle
    cases hle
  · rw [← State.unreadBits_length, hu]
    simp
    omega

/-- DecodeOne keeps the reader's invariant, whatever the trie. -/
theorem decodeWalk_keeps (fuel : Nat) {i : Nat} {s : State} (hr : s.ReaderInv) (hp : s.inPos ≤ s.par.inBytes.length) :
    (decodeWalk fuel i s).Post (fun _ t => ReaderFrame s t ∧ t.ReaderInv ∧ t.inPos ≤ t.par.inBytes.length)
      fun _ t => ReaderFrame s t ∧ t.ReaderInv ∧ t.inPos ≤ t.par.inBytes.length := by
  induction fuel generalizing i s with
  | zero => exact ⟨rfl, hr, hp⟩
  | succ fuel ih =>
    unfold decodeWalk
    refine Res.Post.andThen (P := fun _ t => ReaderFrame s t ∧ t.ReaderInv ∧ t.inPos ≤ t.par.inBytes.length) ?_ ?_
    · refine Res.Post.mono ((readBit_post s).and (readBit_keeps hr hp)) ?_ ?_
      · rintro b t ⟨⟨_, h1⟩, h2, h3⟩
        exact ⟨h1, h2, h3⟩
      · rintro f t ⟨⟨_, rfl, _⟩, h2, h3⟩
        exact ⟨rfl, h2, h3⟩
    · rintro b t ⟨h1, h2, h3⟩
      split
      · exact ⟨h1, h2, h3⟩
      · split
        · split
          · exact ⟨h1, h2, h3⟩
          · exact ⟨h1, h2, h3⟩
        · exact Res.Post.mono (ih h2 h3) (fun _ u hu => ⟨h1.trans hu.1, hu.2⟩) fun _ u hu => ⟨h1.trans hu.1, hu.2⟩

/-! ### The writer beside a reader step -/

theorem ReaderFrame.wrote {s t u : State} {bs : List Bool} (h : ReaderFrame s t) (hw : Wrote t u bs) : Wrote s u bs := by
  have f := h.fields
  exact hw.congr ⟨f.1.symm, f.2.1.symm, f.2.2.1.symm, f.2.2.2.2.2.2.2.2.2.2.2.1.symm, f.2.2.2.2.2.2.2.2.2.2.2.2.1.symm⟩
    ⟨rfl, rfl, rfl, rfl, rfl⟩

theorem ReaderFrame.writeFailed {s t u : State} {n : Nat} (h : ReaderFrame s t) (hw : WriteFailed t u n) :
    WriteFailed s u n := by
  have f := h.fields
  exact hw.congr ⟨f.1.symm, f.2.1.symm, f.2.2.1.symm, f.2.2.2.2.2.2.2.2.2.2.2.1.symm, f.2.2.2.2.2.2.2.2.2.2.2.2.1.symm⟩
    ⟨rfl, rfl, rfl, rfl, rfl⟩

theorem ReaderFrame.writerInv {s t : State} (h : ReaderFrame s t) (hw : s.WriterInv) : t.WriterInv := by
  have f := h.fields
  simpa [State.WriterInv, f.2.1, f.2.2.1] using hw

theorem WriterFrame.readerInv {s t : State} (h : WriterFrame s t) (hr : s.ReaderInv) : t.ReaderInv := by
  have f := h.fields
  simpa [State.ReaderInv, f.2.1, f.2.2.1] using hr

theorem WriterFrame.unreadBits {s t : State} (h : WriterFrame s t) : t.unreadBits = s.unreadBits := by
  have f := h.fields
  simp [State.unreadBits, f.1, f.2.1, f.2.2.1, f.2.2.2.2.2.2.2.2.2.2.2.1]

/-! ### One encoded symbol -/

theorem State.codeOf_length (s : State) (sym : Byte) : (s.codeOf sym).length = (s.codeLen sym).toNat := by
  simp [State.codeOf]

theorem State.codeOf_congr {s t : State} (h1 : t.ctLen = s.ctLen) (h2 : t.ctBits = s.ctBits) (sym : Byte) :
    t.codeOf sym = s.codeOf sym := by
  simp [State.codeOf, State.codeLen, h1, h2]

theorem State.codeLen_congr {s t : State} (h1 : t.ctLen = s.ctLen) (sym : Byte) : t.codeLen sym = s.codeLen sym := by
  simp [State.codeLen, h1]

/-- One symbol's code, said once (R172): nothing happens without a code, else its bits are written. -/
theorem encodeOne_post (sym : Byte) {s : State} (hw : s.WriterInv) :
    (encodeOne sym s).Post (fun _ t => s.codeLen sym ≠ 0#8 ∧ WriterFrame s t ∧ Wrote s t (s.codeOf sym))
      fun f t => (f = .symbolNotInTable ∧ t = s ∧ s.codeLen sym = 0#8) ∨
        (f = .ioError ∧ s.codeLen sym ≠ 0#8 ∧ WriterFrame s t ∧ WriteFailed s t (s.codeLen sym).toNat) := by
  unfold encodeOne
  split
  · rename_i h
    exact .inl ⟨rfl, rfl, h⟩
  · rename_i h
    refine Res.Post.mono (writeBits_post _ hw) (fun _ t ht => ⟨h, ht.1, ht.2⟩) fun f t ht => .inr ⟨ht.1, h, ht.2.1, ?_⟩
    simpa [State.codeOf_length] using ht.2.2

end Sys2Proof.Machine
end

