-- ==== Sys2Proof/Laws/Decode.lean ====
section
/-! SUPPORT. Byte order and code packing (30_encoding R73, R74): each is undone by its reading. -/

namespace Sys2Proof

@[simp] theorem toBigEndian_length (k v : Nat) : (toBigEndian k v).length = k := by
  induction k generalizing v with
  | zero => rfl
  | succ k ih => simp [toBigEndian, ih]

theorem ofBigEndian_foldl (bs : List Byte) (acc : Nat) :
    bs.foldl (fun acc b => acc * 256 + b.toNat) acc = acc * 256 ^ bs.length + ofBigEndian bs := by
  induction bs generalizing acc with
  | nil => simp [ofBigEndian]
  | cons b bs ih =>
    simp only [ofBigEndian, List.foldl_cons, List.length_cons] at *
    rw [ih, ih (0 * 256 + b.toNat)]
    ring

@[simp] theorem ofBigEndian_nil : ofBigEndian [] = 0 := rfl

theorem ofBigEndian_cons (b : Byte) (bs : List Byte) :
    ofBigEndian (b :: bs) = b.toNat * 256 ^ bs.length + ofBigEndian bs := by
  have := ofBigEndian_foldl bs b.toNat
  simpa [ofBigEndian] using this

/-- Reading the big-endian bytes of a value gives the value, modulo their width (R73). -/
theorem ofBigEndian_toBigEndian (k v : Nat) : ofBigEndian (toBigEndian k v) = v % 256 ^ k := by
  induction k generalizing v with
  | zero => simp [toBigEndian, Nat.mod_one]
  | succ k ih =>
    have hm : v % 256 ^ (k + 1) = v % 256 ^ k + 256 ^ k * (v / 256 ^ k % 256) := by rw [Nat.pow_succ, Nat.mod_mul]
    rw [toBigEndian, ofBigEndian_cons, toBigEndian_length, ih, BitVec.toNat_ofNat, hm, Nat.add_comm, Nat.mul_comm]

theorem ofBigEndian_lt (bs : List Byte) : ofBigEndian bs < 256 ^ bs.length := by
  induction bs with
  | nil => simp
  | cons b bs ih =>
    have := b.isLt
    rw [ofBigEndian_cons, List.length_cons, Nat.pow_succ]
    have hp : 0 < 256 ^ bs.length := Nat.pow_pos (by omega)
    nlinarith

@[simp] theorem packCode_length (code : List Bool) : (packCode code).length = codeBytes code.length := by simp [packCode]

@[simp] theorem unpackCode_length (len : Nat) (bytes : List Byte) : (unpackCode len bytes).length = len := by
  simp [unpackCode]

/-- Reading a packed code gives the code (R74). -/
theorem unpackCode_packCode (code : List Bool) : unpackCode code.length (packCode code) = code := by
  apply List.ext_getElem
  · simp
  · intro i h1 h2
    have hj : i / 8 < codeBytes code.length := by unfold codeBytes; omega
    simp only [unpackCode, List.getElem_map, List.getElem_range, codeBit, packCode, List.getD_eq_getElem?_getD,
      List.getElem?_map, List.getElem?_range hj, Option.map_some, Option.getD_some]
    rw [Machine.byteOfBits_getLsbD _ _ (by omega), List.getD_eq_getElem?_getD, List.getElem?_take, if_pos (by omega),
      List.getElem?_drop, show 8 * (i / 8) + i % 8 = i by omega, List.getElem?_eq_getElem h2, Option.getD_some]

/-- Only the first `len` bits of the code bytes matter (R74: padding bits are ignored). -/
theorem unpackCode_congr {len : Nat} {a b : List Byte} (h : ∀ i < len, codeBit a i = codeBit b i) :
    unpackCode len a = unpackCode len b := by
  apply List.map_congr_left
  intro i hi
  exact h i (by simpa using hi)

/-- Every first byte: the opcodes of R76 with their operand decoders, and the reserved bytes (R77). -/
theorem decode_cases (op : Byte) (rest : List Byte) :
  (op = 0x01 ∧ decode (op :: rest) = .command .getStatus rest) ∨ (op = 0x10 ∧ decode (op :: rest) = .command .rdBit rest) ∨
  (op = 0x11 ∧ decode (op :: rest) = decodeF4 .rdBytes rest) ∨ (op = 0x12 ∧ decode (op :: rest) = .command .rdAlign rest) ∨
  (op = 0x20 ∧ decode (op :: rest) = decodeF1 .wrBit rest) ∨ (op = 0x21 ∧ decode (op :: rest) = decodeF5 .wrBytes rest) ∨
  (op = 0x22 ∧ decode (op :: rest) = .command .wrAlign rest) ∨ (op = 0x23 ∧ decode (op :: rest) = .command .wrClose rest) ∨
  (op = 0x30 ∧ decode (op :: rest) = .command .ctClear rest) ∨ (op = 0x31 ∧ decode (op :: rest) = decodeF3 .ctLoad rest) ∨
  (op = 0x40 ∧ decode (op :: rest) = .command .trClear rest) ∨ (op = 0x41 ∧ decode (op :: rest) = decodeF2 .trInsertStream rest) ∨
  (op = 0x42 ∧ decode (op :: rest) = decodeF3 .trInsertCode rest) ∨ (op = 0x50 ∧ decode (op :: rest) = decodeF1 .encSym rest) ∨
  (op = 0x51 ∧ decode (op :: rest) = .command .compress rest) ∨ (op = 0x60 ∧ decode (op :: rest) = .command .decSym rest) ∨
  (op = 0x61 ∧ decode (op :: rest) = decodeF6 .decompress rest) ∨
  (Machine.reservedByte op = true ∧ formatOf op = none ∧ decode (op :: rest) = .reserved op rest) := by
  have key : ∀ op : Byte, op = 0x01 ∨ op = 0x10 ∨ op = 0x11 ∨ op = 0x12 ∨ op = 0x20 ∨ op = 0x21 ∨ op = 0x22 ∨ op = 0x23 ∨
      op = 0x30 ∨ op = 0x31 ∨ op = 0x40 ∨ op = 0x41 ∨ op = 0x42 ∨ op = 0x50 ∨ op = 0x51 ∨ op = 0x60 ∨ op = 0x61 ∨
      (Machine.reservedByte op = true ∧ formatOf op = none) := by decide +kernel
  rcases key op with rfl|rfl|rfl|rfl|rfl|rfl|rfl|rfl|rfl|rfl|rfl|rfl|rfl|rfl|rfl|rfl|rfl|⟨h1, h2⟩
  all_goals first | (simp [decode]; done) | skip
  iterate 17 right
  refine ⟨h1, h2, ?_⟩
  simp only [decode]
  split <;> first | rfl | (rename_i h; simp [formatOf, h] at h2)

end Sys2Proof
end

