-- ==== Sys2Proof/Laws/Loops.lean ====
section
/-! SUPPORT. What the loops of COMPRESS and DECOMPRESS can do (43_codec R173, R174, R176, R177). -/

namespace Sys2Proof.Machine

/-- Setting a counter changes no port and no cache. -/
theorem Wrote.setEncCount {s t : State} {bs : List Bool} (h : Wrote s t bs) (v : U64) : Wrote s (t.setEncCount v) bs :=
  h.congr ⟨rfl, rfl, rfl, rfl, rfl⟩ ⟨rfl, rfl, rfl, rfl, rfl⟩

theorem Wrote.setDecCount {s t : State} {bs : List Bool} (h : Wrote s t bs) (v : U64) : Wrote s (t.setDecCount v) bs :=
  h.congr ⟨rfl, rfl, rfl, rfl, rfl⟩ ⟨rfl, rfl, rfl, rfl, rfl⟩

/-- Reading whole bytes to the end of the source delivers exactly the unread bytes (R101). -/
theorem unreadBytes_eq {s : State} {xs : List Byte} {rest : List Bool} (h : s.unreadBits = bitsOf xs ++ rest)
    (hl : xs.length = s.inLeft) : xs = s.unreadBytes := by
  apply List.ext_getElem
  · simp [State.unreadBytes, hl]
  · intro j h1 h2
    simp only [State.unreadBytes, List.getElem_map, List.getElem_range]
    have : (s.unreadBits.drop (8 * j)).take 8 = bitsOfByte xs[j] := by
      have hs : xs = xs.take j ++ xs[j] :: xs.drop (j + 1) := by simp
      rw [h]
      conv_lhs => rw [hs]
      rw [bitsOf_append, List.append_assoc, List.drop_append_of_le_length (by simp; omega),
        List.drop_of_length_le (by simp), List.nil_append, bitsOf_cons, List.append_assoc,
        List.take_append_of_le_length (by simp), take_eight_bits]
    rw [this, byteOfBits_bitsOfByte]

/-- What COMPRESS's loop leaves when it returns (R173, R174): every byte of the source was encoded, in order. -/
structure Compressed (s t : State) (xs : List Byte) : Prop where
  frame : CodecFrame s t
  read : s.unreadBits = bitsOf xs ++ t.unreadBits
  present : ∀ x ∈ xs, s.codeLen x ≠ 0#8
  wrote : Wrote s t (xs.flatMap s.codeOf)
  encCount : t.encCount = s.encCount + BitVec.ofNat 64 xs.length
  decCount : t.decCount = s.decCount
  reader : t.ReaderInv ∧ t.rdRem = s.rdRem ∧ t.inPos = s.inPos + xs.length ∧ t.inPos ≤ t.par.inBytes.length

theorem Compressed.refl {s : State} (hr : s.ReaderInv) (hw : s.WriterInv) (hp : s.inPos ≤ s.par.inBytes.length) :
    Compressed s s [] :=
  ⟨rfl, rfl, by simp, Wrote.refl hw, by simp, rfl, hr, rfl, rfl, hp⟩

/-- How COMPRESS's loop raises (R173, R174): at an input Error after everything was encoded, at a byte with no code after it
is consumed, or at a failing emit. -/
def CompressRaised (s : State) (f : FaultKind) (t : State) : Prop :=
  CodecFrame s t ∧ t.ReaderInv ∧ t.WriterInv ∧ t.inPos ≤ t.par.inBytes.length ∧ t.decCount = s.decCount ∧
  ∃ xs : List Byte, t.encCount = s.encCount + BitVec.ofNat 64 xs.length ∧ (∀ x ∈ xs, s.codeLen x ≠ 0#8) ∧
    ((f = .ioError ∧ s.par.inTerm = .error ∧ xs.length = s.inLeft ∧ s.unreadBits = bitsOf xs ++ t.unreadBits ∧
        Wrote s t (xs.flatMap s.codeOf)) ∨
      ∃ x, s.unreadBits = bitsOf (xs ++ [x]) ++ t.unreadBits ∧ xs.length + 1 ≤ s.inLeft ∧
        t.inPos = s.inPos + xs.length + 1 ∧
        ((f = .symbolNotInTable ∧ s.codeLen x = 0#8 ∧ Wrote s t (xs.flatMap s.codeOf)) ∨
          (f = .ioError ∧ s.codeLen x ≠ 0#8 ∧ WriteFailed s t ((xs ++ [x]).flatMap s.codeOf).length)))

theorem compressLoop_post (fuel : Nat) {s : State} (hr : s.ReaderInv) (hw : s.WriterInv)
    (hp : s.inPos ≤ s.par.inBytes.length) (hfuel : s.inLeft < fuel) :
    (compressLoop fuel s).Post
      (fun _ t => s.par.inTerm = .endOfSource ∧ ∃ xs, xs.length = s.inLeft ∧ Compressed s t xs)
      fun f t => CompressRaised s f t := by
  induction fuel generalizing s with
  | zero => omega
  | succ fuel ih =>
    unfold compressLoop
    by_cases hin : s.inPos < s.par.inBytes.length
    · obtain ⟨x, t, ht, hbits, hf, hpos, hrem, hr'⟩ := tryReadByte_byte hr hin
      have ff := hf.fields
      have hct : t.codeOf = s.codeOf := funext fun y => State.codeOf_congr ff.2.2.2.2.1 ff.2.2.2.2.2.1 y
      have hcl : t.codeLen = s.codeLen := funext fun y => State.codeLen_congr ff.2.2.2.2.1 y
      have henc := encodeOne_post x (hf.writerInv hw)
      simp only [ht]
      rw [hct, hcl] at henc
      have hleft : t.inLeft + 1 = s.inLeft := by simp [State.inLeft, ff.1, hpos]; omega
      cases he : encodeOne x t with
      | raise f u =>
        rw [he] at henc
        rcases henc with ⟨rfl, rfl, h0⟩ | ⟨rfl, h0, hwf, hfail⟩
        · refine ⟨hf.codec, hr', hf.writerInv hw, by rw [hpos, ff.1]; exact hin, ff.2.2.2.2.2.2.2.1, [],
            by simp [ff.2.2.2.2.2.2.2.2.1], by simp, .inr ⟨x, by simpa using hbits, by simp; omega, by simpa using hpos,
              .inl ⟨rfl, h0, ?_⟩⟩⟩
          exact hf.wrote (Wrote.refl (hf.writerInv hw))
        · have fw := hwf.fields
          refine ⟨hf.codec.trans hwf.codec, hwf.readerInv hr', hfail.inv, ?_, ?_, [], ?_, by simp,
            .inr ⟨x, ?_, by simp; omega, ?_, .inr ⟨rfl, h0, ?_⟩⟩⟩
          · rw [fw.2.2.2.2.2.2.2.2.2.2.2.1, fw.1, hpos, ff.1]; exact hin
          · rw [fw.2.2.2.2.2.2.2.1, ff.2.2.2.2.2.2.2.1]
          · rw [fw.2.2.2.2.2.2.2.2.1, ff.2.2.2.2.2.2.2.2.1]; simp
          · rw [hwf.unreadBits]; simpa using hbits
          · rw [fw.2.2.2.2.2.2.2.2.2.2.2.1]; simpa using hpos
          · have := hf.writeFailed hfail
            simpa [State.codeOf_length] using this
      | ok a u =>
        rw [he] at henc
        obtain ⟨h0, hwf, hwr⟩ := henc
        have fw := hwf.fields
        simp only [Res.andThen_ok]
        have hcu : (u.setEncCount (u.encCount + 1#64)).codeOf = s.codeOf := by
          rw [← hct]
          exact funext fun y => State.codeOf_congr (by simpa using fw.2.2.2.2.1) (by simpa using fw.2.2.2.2.2.1) y
        have hclu : (u.setEncCount (u.encCount + 1#64)).codeLen = s.codeLen := by
          rw [← hcl]
          exact funext fun y => State.codeLen_congr (by simpa using fw.2.2.2.2.1) y
        have hinu : u.inPos = t.inPos := fw.2.2.2.2.2.2.2.2.2.2.2.1
        have hparu : u.par = s.par := by rw [fw.1, ff.1]
        have hfr : CodecFrame s (u.setEncCount (u.encCount + 1#64)) := (hf.codec.trans hwf.codec).trans rfl
        have hw1 : Wrote s (u.setEncCount (u.encCount + 1#64)) (s.codeOf x) := (hf.wrote hwr).setEncCount _
        have hbu : (u.setEncCount (u.encCount + 1#64)).unreadBits = t.unreadBits := hwf.unreadBits
        have henc : u.encCount = s.encCount := by rw [fw.2.2.2.2.2.2.2.2.1, ff.2.2.2.2.2.2.2.2.1]
        have hdec : u.decCount = s.decCount := by rw [fw.2.2.2.2.2.2.2.1, ff.2.2.2.2.2.2.2.1]
        have hleftu : (u.setEncCount (u.encCount + 1#64)).inLeft + 1 = s.inLeft := by
          simp [State.inLeft, hparu, hinu, hpos]; omega
        have hadd (n : Nat) : u.encCount + 1#64 + BitVec.ofNat 64 n = s.encCount + BitVec.ofNat 64 (n + 1) := by
          rw [henc, BitVec.add_assoc]
          congr 1
          apply BitVec.eq_of_toNat_eq
          simp [Nat.add_comm]
        have := ih (s := u.setEncCount (u.encCount + 1#64)) (hwf.readerInv hr') hwr.inv
          (by simp [hparu, hinu, hpos]; exact hin) (by omega)
        refine Res.Post.mono this ?_ ?_
        · rintro _ v ⟨hterm, xs, hlen, c1, c2, c3, c4, c5, c6, c7, c8, c9, c10⟩
          rw [hclu] at c3
          rw [hcu] at c4
          refine ⟨by simpa [hparu] using hterm, x :: xs, by simp; omega, hfr.trans c1, ?_, ?_, ?_, ?_, ?_, c7, ?_, ?_, c10⟩
          · rw [hbits, ← hbu, c2]; simp
          · simpa [h0] using c3
          · simpa using hw1.trans c4
          · rw [c5]; simpa using hadd xs.length
          · rw [c6]; simpa using hdec
          · rw [c8]; simp [fw.2.2.1, hrem]
          · rw [c9]; simp [hinu, hpos]; omega
        · rintro f v ⟨c1, c2, c3, c4, c5, xs, c6, c7, c8⟩
          rw [hclu] at c7
          refine ⟨hfr.trans c1, c2, c3, c4, by rw [c5]; simpa using hdec, x :: xs, ?_, by simpa [h0] using c7, ?_⟩
          · rw [c6]; simpa using hadd xs.length
          · rw [hclu, hcu, hbu] at c8
            rcases c8 with ⟨d1, d2, d3, d4, d5⟩ | ⟨y, d1, d2, d3, d4⟩
            · refine .inl ⟨d1, by simpa [hparu] using d2, by simp; omega, by rw [hbits, d4]; simp, ?_⟩
              simpa using hw1.trans d5
            · refine .inr ⟨y, by rw [hbits, d1]; simp, by simp; omega, by rw [d3]; simp [hinu, hpos]; omega, ?_⟩
              rcases d4 with ⟨e1, e2, e3⟩ | ⟨e1, e2, e3⟩
              · exact .inl ⟨e1, e2, by simpa using hw1.trans e3⟩
              · exact .inr ⟨e1, e2, by simpa [Nat.add_assoc] using hw1.failed e3⟩
    · have hleft : s.inLeft = 0 := by simp [State.inLeft]; omega
      rw [tryReadByte_term (by omega)]
      cases hterm : s.par.inTerm with
      | endOfSource => exact ⟨rfl, [], by simp [hleft], Compressed.refl hr hw hp⟩
      | error =>
        exact ⟨rfl, hr, hw, hp, rfl, [], by simp, by simp, .inl ⟨rfl, hterm, by simp [hleft], rfl, Wrote.refl hw⟩⟩

/-- The bound on the bytes never shows: any two bounds above the bytes IN still holds give the same loop. -/
theorem compressLoop_fuel {m n : Nat} {s : State} (hm : s.inLeft < m) (hn : s.inLeft < n) :
    compressLoop m s = compressLoop n s := by
  have left_encode (x : Byte) (u v : State) (h : encodeOne x u = .ok () v) : v.inLeft = u.inLeft := by
    have bit (b : Bool) (u v : State) (h : writeBit b u = .ok () v) : v.par = u.par ∧ v.inPos = u.inPos := by
      unfold writeBit at h
      split at h
      · rcases sinkStep_outEmit_cases (cacheWithBit u b) (u.setWriter 0x00#8 0) with ⟨_, he⟩ | ⟨_, _, _, he⟩
        · rw [he] at h; cases h; exact ⟨rfl, rfl⟩
        · rw [he] at h; cases h
      · cases h; exact ⟨rfl, rfl⟩
    have bits (bs : List Bool) : ∀ u v : State, writeBits bs u = .ok () v → v.par = u.par ∧ v.inPos = u.inPos := by
      induction bs with
      | nil => intro u v h; cases h; exact ⟨rfl, rfl⟩
      | cons b bs ih =>
        intro u v h
        unfold writeBits at h
        cases he : writeBit b u with
        | raise f w => rw [he] at h; cases h
        | ok a w =>
          rw [he] at h
          have h1 := bit b u w he
          have h2 := ih w v h
          exact ⟨h2.1.trans h1.1, h2.2.trans h1.2⟩
    unfold encodeOne at h
    split at h
    · cases h
    · have := bits _ u v h
      simp [State.inLeft, this.1, this.2]
  induction m generalizing n s with
  | zero => omega
  | succ m ih =>
    cases n with
    | zero => omega
    | succ n =>
      unfold compressLoop
      by_cases hin : s.inPos < s.par.inBytes.length
      · have step (v : Byte) (t : State) (h : t.inLeft + 1 = s.inLeft) :
            ((encodeOne v t).andThen fun _ s2 => compressLoop m (s2.setEncCount (s2.encCount + 1#64))) =
              (encodeOne v t).andThen fun _ s2 => compressLoop n (s2.setEncCount (s2.encCount + 1#64)) := by
          cases he : encodeOne v t with
          | raise f u => rfl
          | ok a u =>
            have : u.inLeft = t.inLeft := left_encode v t u he
            have hs : (u.setEncCount (u.encCount + 1#64)).inLeft = u.inLeft := rfl
            exact ih (by omega) (by omega)
        rcases tryReadByte_cases s with ⟨_, _, he⟩ | ⟨_, _, he⟩ | ⟨h, _⟩
        · simp only [he]
          exact step _ _ (by simp [State.inLeft]; omega)
        · simp only [he]
          exact step _ _ (by simp [State.inLeft]; omega)
        · omega
      · rw [tryReadByte_term (by omega)]
        cases s.par.inTerm <;> rfl

/-! ### DECOMPRESS -/

/-- What DECOMPRESS's loop leaves when it returns (R176): every decoded symbol was written, in order, and counted. -/
structure Decompressed (s t : State) (xs : List Byte) : Prop where
  frame : CodecFrame s t
  wrote : Wrote s t (bitsOf xs)
  decCount : t.decCount = s.decCount + BitVec.ofNat 64 xs.length
  encCount : t.encCount = s.encCount
  reader : t.ReaderInv ∧ t.inPos ≤ t.par.inBytes.length
  read : ∃ used, s.unreadBits = used ++ t.unreadBits

/-- How DECOMPRESS's loop raises (R176, R177): in DecodeOne after some symbols were written, or at a failing emit. -/
def DecompressRaised (s : State) (n : Nat) (f : FaultKind) (t : State) : Prop :=
  CodecFrame s t ∧ t.ReaderInv ∧ t.WriterInv ∧ t.inPos ≤ t.par.inBytes.length ∧ t.encCount = s.encCount ∧
  ∃ xs : List Byte, xs.length < n ∧ t.decCount = s.decCount + BitVec.ofNat 64 xs.length ∧
    ((Wrote s t (bitsOf xs) ∧ (f = .corruptDictionary ∨ (f = terminalFault s.par.inTerm ∧ t.unreadBits = []))) ∨
      (f = .ioError ∧ WriteFailed s t (8 * (xs.length + 1))))

theorem decompressLoop_post (n : Nat) {s : State} (hr : s.ReaderInv) (hw : s.WriterInv)
    (hp : s.inPos ≤ s.par.inBytes.length) :
    (decompressLoop n s).Post (fun _ t => ∃ xs, xs.length = n ∧ Decompressed s t xs) fun f t => DecompressRaised s n f t := by
  induction n generalizing s with
  | zero => exact ⟨[], rfl, rfl, Wrote.refl hw, by simp, rfl, ⟨hr, hp⟩, [], rfl⟩
  | succ n ih =>
    unfold decompressLoop
    have hd := (decodeWalk_post (s.bitsLeft + 1) (i := 0) (s := s) (by rw [State.unreadBits_length]; omega)).and
      (decodeWalk_keeps (s.bitsLeft + 1) (i := 0) hr hp)
    cases hde : decodeOne s with
    | raise f t =>
      unfold decodeOne at hde
      rw [hde] at hd
      obtain ⟨⟨hf, used, h1, h2⟩, _, hr', hp'⟩ := hd
      have ff := hf.fields
      refine ⟨hf.codec, hr', hf.writerInv hw, hp', ff.2.2.2.2.2.2.2.2.1, [], by simp, by simp [ff.2.2.2.2.2.2.2.1], .inl ⟨?_, ?_⟩⟩
      · exact hf.wrote (Wrote.refl (hf.writerInv hw))
      · rcases h2 with ⟨h2, _⟩ | ⟨h2, h3, _⟩
        · exact .inl h2
        · exact .inr ⟨h2, h3⟩
    | ok x t =>
      unfold decodeOne at hde
      rw [hde] at hd
      obtain ⟨⟨hf, used, _, _, h1, _⟩, _, hr', hp'⟩ := hd
      have ff := hf.fields
      simp only [Res.andThen_ok]
      have hwb := writeByte_post x (hf.writerInv hw)
      cases hwe : writeByte x t with
      | raise f u =>
        rw [hwe] at hwb
        obtain ⟨rfl, hwf, hfail⟩ := hwb
        have fw := hwf.fields
        refine ⟨hf.codec.trans hwf.codec, hwf.readerInv hr', hfail.inv, ?_, ?_, [], by simp, ?_, .inr ⟨rfl, hf.writeFailed hfail⟩⟩
        · rw [fw.2.2.2.2.2.2.2.2.2.2.2.1, fw.1]; exact hp'
        · rw [fw.2.2.2.2.2.2.2.2.1, ff.2.2.2.2.2.2.2.2.1]
        · rw [fw.2.2.2.2.2.2.2.1, ff.2.2.2.2.2.2.2.1]; simp
      | ok a u =>
        rw [hwe] at hwb
        obtain ⟨hwf, hwr⟩ := hwb
        have fw := hwf.fields
        simp only [Res.andThen_ok]
        have hparu : u.par = s.par := by rw [fw.1, ff.1]
        have hfr : CodecFrame s (u.setDecCount (u.decCount + 1#64)) := (hf.codec.trans hwf.codec).trans rfl
        have hw1 : Wrote s (u.setDecCount (u.decCount + 1#64)) (bitsOfByte x) := (hf.wrote hwr).setDecCount _
        have hbu : (u.setDecCount (u.decCount + 1#64)).unreadBits = t.unreadBits := hwf.unreadBits
        have hdec : u.decCount = s.decCount := by rw [fw.2.2.2.2.2.2.2.1, ff.2.2.2.2.2.2.2.1]
        have henc : u.encCount = s.encCount := by rw [fw.2.2.2.2.2.2.2.2.1, ff.2.2.2.2.2.2.2.2.1]
        have hadd (n : Nat) : u.decCount + 1#64 + BitVec.ofNat 64 n = s.decCount + BitVec.ofNat 64 (n + 1) := by
          rw [hdec, BitVec.add_assoc]
          congr 1
          apply BitVec.eq_of_toNat_eq
          simp [Nat.add_comm]
        have := ih (s := u.setDecCount (u.decCount + 1#64)) (hwf.readerInv hr') hwr.inv
          (by simp only [State.setDecCount_inPos, State.setDecCount_par]; rw [fw.2.2.2.2.2.2.2.2.2.2.2.1, fw.1]; exact hp')
        refine Res.Post.mono this ?_ ?_
        · rintro _ v ⟨xs, hlen, c1, c2, c3, c4, c5, used', c6⟩
          refine ⟨x :: xs, by simp [hlen], hfr.trans c1, hw1.trans c2, ?_, by rw [c4]; simpa using henc, c5, used ++ used', ?_⟩
          · rw [c3]; simpa using hadd xs.length
          · rw [h1, ← hbu, c6, List.append_assoc]
        · rintro f v ⟨c1, c2, c3, c4, c5, xs, c6, c7, c8⟩
          refine ⟨hfr.trans c1, c2, c3, c4, by rw [c5]; simpa using henc, x :: xs, by simp; omega, ?_, ?_⟩
          · rw [c7]; simpa using hadd xs.length
          · rcases c8 with ⟨d1, d2⟩ | ⟨d1, d2⟩
            · refine .inl ⟨hw1.trans d1, ?_⟩
              simpa [hparu] using d2
            · refine .inr ⟨d1, (hw1.failed d2).mono ?_⟩
              simp; omega

/-- DECOMPRESS's loop along a stream of codes that the trie holds, each with its symbol, with `n` bytes to go after them
(R176). -/
theorem decompressLoop_along (ps : List (List Bool × Byte)) (n : Nat) {s : State} {rest : List Bool} (hr : s.ReaderInv)
    (hw : s.WriterInv) (hp : s.inPos ≤ s.par.inBytes.length) (h : TrieShape s.nodes)
    (hcode : ∀ p ∈ ps, s.leafAt p.1 = some p.2) (hu : s.unreadBits = ps.flatMap Prod.fst ++ rest)
    (hs : s.SinkOkFor ps.length) :
    ∃ t, decompressLoop (ps.length + n) s = decompressLoop n t ∧ Decompressed s t (ps.map Prod.snd) ∧
      t.unreadBits = rest := by
  induction ps generalizing s with
  | nil => exact ⟨s, by simp, ⟨rfl, Wrote.refl hw, by simp, rfl, ⟨hr, hp⟩, [], rfl⟩, by simpa using hu⟩
  | cons p ps ih =>
    obtain ⟨t, ht, hbt, hf⟩ := decodeOne_leaf (rest := ps.flatMap Prod.fst ++ rest) h (by simpa using hu) (hcode p (by simp))
    have ff := hf.fields
    have hkeep := decodeWalk_keeps (s.bitsLeft + 1) (i := 0) hr hp
    have ht' : decodeWalk (s.bitsLeft + 1) 0 s = .ok p.2 t := ht
    rw [ht'] at hkeep
    obtain ⟨_, hr', hp'⟩ := hkeep
    have hst : t.SinkOkFor (ps.length + 1) := by
      intro k hk
      have := hs k (by simpa using hk)
      simpa [State.sinkOk, ff.1, ff.2.2.2.2.2.2.2.2.2.2.2.2.1] using this
    obtain ⟨u, hu1, hwf, hwr⟩ := writeByte_ok p.2 (hf.writerInv hw) (hst.mono (by omega))
    have fw := hwf.fields
    have hnu : (u.setDecCount (u.decCount + 1#64)).nodes = s.nodes := by
      simp only [State.setDecCount_nodes]; rw [fw.2.2.2.2.2.2.1, ff.2.2.2.2.2.2.1]
    have hdec : u.decCount = s.decCount := by rw [fw.2.2.2.2.2.2.2.1, ff.2.2.2.2.2.2.2.1]
    have henc : u.encCount = s.encCount := by rw [fw.2.2.2.2.2.2.2.2.1, ff.2.2.2.2.2.2.2.2.1]
    have hbu : (u.setDecCount (u.decCount + 1#64)).unreadBits = t.unreadBits := hwf.unreadBits
    have hsu : u.SinkOkFor ps.length := by
      have := hwr.sinkOkFor (m := 0) (k := ps.length) (hst.mono (by have := t.wrCnt.isLt; simp; omega))
      exact this.mono (by omega)
    obtain ⟨v, hv, ⟨c1, c2, c3, c4, c5, used, c6⟩, hvb⟩ := ih (s := u.setDecCount (u.decCount + 1#64))
      (hwf.readerInv hr') hwr.inv
      (by simp only [State.setDecCount_inPos, State.setDecCount_par]; rw [fw.2.2.2.2.2.2.2.2.2.2.2.1, fw.1]; exact hp')
      (by rw [hnu]; exact h) (fun q hq => by rw [State.leafAt_congr hnu]; exact hcode q (by simp [hq])) (by rw [hbu, hbt])
      hsu
    have hlen : (p :: ps).length + n = (ps.length + n) + 1 := by simp; omega
    refine ⟨v, by rw [hlen]; simp [decompressLoop, ht, hu1, hv], ⟨?_, ?_, ?_, by rw [c4]; simpa using henc, c5, p.1 ++ used, ?_⟩,
      hvb⟩
    · exact ((hf.codec.trans hwf.codec).trans (show CodecFrame u (u.setDecCount _) from rfl)).trans c1
    · exact ((hf.wrote hwr).setDecCount _).trans c2
    · rw [c3]
      simp only [State.setDecCount_decCount, hdec, BitVec.add_assoc]
      congr 1
      apply BitVec.eq_of_toNat_eq
      simp [Nat.add_comm]
    · rw [hu, List.append_assoc, ← c6, hbu, hbt]; simp

end Sys2Proof.Machine
end

