-- ==== Sys2Proof/Laws/Frames.lean ====
section
/-! SUPPORT. What each helper may touch and raise, in every state, with no invariant as a premise: the frames of Safety,
that the ports only advance, and the fault kinds. -/

namespace Sys2Proof.Machine

/-- IN is read forwards only and stays within the source once it is; OUT and its events only grow (R52, R53, R59). -/
def PortsGrow (s t : State) : Prop :=
  s.inPos ≤ t.inPos ∧ t.inPos ≤ max s.inPos s.par.inBytes.length ∧ s.outBytes <+: t.outBytes ∧ s.outEvents <+: t.outEvents

theorem PortsGrow.refl (s : State) : PortsGrow s s := ⟨le_refl _, le_max_left _ _, List.prefix_rfl, List.prefix_rfl⟩

theorem PortsGrow.trans {s t u : State} (h : PortsGrow s t) (h' : PortsGrow t u) (hp : t.par = s.par) : PortsGrow s u := by
  obtain ⟨a1, a2, a3, a4⟩ := h
  obtain ⟨b1, b2, b3, b4⟩ := h'
  rw [hp] at b2
  exact ⟨le_trans a1 b1, le_trans b2 (max_le a2 (le_max_right _ _)), a3.trans b3, a4.trans b4⟩

/-- A helper stays within a relation to its start state and raises only the given faults. -/
def Res.Within {α : Type} (r : Res α) (R : State → Prop) (Q : FaultKind → Prop) : Prop :=
  r.Post (fun _ t => R t) fun f t => R t ∧ Q f

theorem Res.Within.mono {α : Type} {r : Res α} {R R' : State → Prop} {Q Q' : FaultKind → Prop} (h : r.Within R Q)
    (hR : ∀ t, R t → R' t) (hQ : ∀ f, Q f → Q' f) : r.Within R' Q' :=
  Res.Post.mono h (fun _ t ht => hR t ht) fun f t ht => ⟨hR t ht.1, hQ f ht.2⟩

theorem Res.Within.andThen {α β : Type} {r : Res α} {k : α → State → Res β} {R R' : State → Prop} {Q : FaultKind → Prop}
    (h : r.Within R Q) (hR : ∀ t, R t → R' t) (hk : ∀ a t, R t → (k a t).Within R' Q) : (r.andThen k).Within R' Q := by
  cases r with
  | ok a t => exact hk a t h
  | raise f t => exact ⟨hR t h.1, h.2⟩

theorem Res.within_ok {α : Type} {a : α} {t : State} {R : State → Prop} {Q : FaultKind → Prop} (h : R t) :
    (Res.ok a t).Within R Q := h

/-! ### Reader -/

/-- The reader's frame with the ports. -/
def ReaderMoves (s t : State) : Prop := ReaderFrame s t ∧ PortsGrow s t

theorem ReaderMoves.refl (s : State) : ReaderMoves s s := ⟨rfl, PortsGrow.refl s⟩

theorem ReaderMoves.trans {s t u : State} (h : ReaderMoves s t) (h' : ReaderMoves t u) : ReaderMoves s u :=
  ⟨h.1.trans h'.1, h.2.trans h'.2 h.1.fields.1⟩

theorem readBit_within (s : State) : (readBit s).Within (ReaderMoves s) fun f => f = terminalFault s.par.inTerm := by
  rcases readBit_cases s with ⟨_, he⟩ | ⟨_, hp, he⟩ | ⟨_, _, he⟩ <;> rw [he]
  · exact ⟨rfl, PortsGrow.refl s⟩
  · exact ⟨rfl, Nat.le_succ _, le_trans hp (le_max_right _ _), List.prefix_rfl, List.prefix_rfl⟩
  · exact ⟨ReaderMoves.refl s, rfl⟩

theorem tryReadByte_moves (s : State) : ReaderMoves s (tryReadByte s).2 := by
  rcases tryReadByte_cases s with ⟨hp, _, he⟩ | ⟨hp, _, he⟩ | ⟨_, he⟩ <;> rw [he]
  · exact ⟨rfl, Nat.le_succ _, le_trans hp (le_max_right _ _), List.prefix_rfl, List.prefix_rfl⟩
  · exact ⟨rfl, Nat.le_succ _, le_trans hp (le_max_right _ _), List.prefix_rfl, List.prefix_rfl⟩
  · exact ReaderMoves.refl s

theorem tryReadByte_term_eq {s t : State} {x : Terminal} (h : tryReadByte s = (.term x, t)) : x = s.par.inTerm ∧ t = s := by
  rcases tryReadByte_cases s with ⟨_, _, he⟩ | ⟨_, _, he⟩ | ⟨_, he⟩ <;> rw [he] at h <;> simp at h
  exact ⟨h.1.symm, h.2.symm⟩

theorem readByte_within (s : State) : (readByte s).Within (ReaderMoves s) fun f => f = terminalFault s.par.inTerm := by
  unfold readByte
  have hm := tryReadByte_moves s
  cases h : tryReadByte s with
  | mk item t =>
    rw [h] at hm
    cases item with
    | byte v => exact hm
    | term x =>
      obtain ⟨rfl, rfl⟩ := tryReadByte_term_eq h
      exact ⟨hm, rfl⟩

theorem readBytes_within (n : Nat) (s : State) :
    (readBytes n s).Within (ReaderMoves s) fun f => f = terminalFault s.par.inTerm := by
  induction n generalizing s with
  | zero => exact ReaderMoves.refl s
  | succ n ih =>
    refine (readByte_within s).andThen (fun _ h => h) fun b t ht => ?_
    refine Res.Within.andThen (R := ReaderMoves s) ((ih t).mono (fun _ h => ht.trans h) fun f hf => ?_) (fun _ h => h)
      fun _ _ h => h
    rw [hf, ht.1.fields.1]

/-! ### Writer -/

/-- The writer's frame with the ports. -/
def WriterMoves (s t : State) : Prop := WriterFrame s t ∧ PortsGrow s t

theorem WriterMoves.refl (s : State) : WriterMoves s s := ⟨rfl, PortsGrow.refl s⟩

theorem WriterMoves.trans {s t u : State} (h : WriterMoves s t) (h' : WriterMoves t u) : WriterMoves s u :=
  ⟨h.1.trans h'.1, h.2.trans h'.2 h.1.fields.1⟩

theorem WriterMoves.setWriter (s : State) (c : Byte) (n : Fin 8) : WriterMoves s (s.setWriter c n) :=
  ⟨rfl, PortsGrow.refl s⟩

theorem emit_within (b : Byte) (s : State) : (sinkStep (outEmit b s)).Within (WriterMoves s) fun f => f = .ioError := by
  rcases sinkStep_outEmit_cases b s with ⟨_, he⟩ | ⟨_, bytes, hb, he⟩ <;> rw [he]
  · exact ⟨rfl, le_refl _, le_max_left _ _, List.prefix_append _ _, List.prefix_append _ _⟩
  · refine ⟨⟨rfl, le_refl _, le_max_left _ _, ?_, List.prefix_append _ _⟩, rfl⟩
    rcases hb with rfl | rfl
    · exact List.prefix_rfl
    · exact List.prefix_append _ _

theorem flush_within (s : State) : (sinkStep (outFlush s)).Within (WriterMoves s) fun f => f = .ioError := by
  rcases sinkStep_outFlush_cases s with ⟨_, he⟩ | ⟨_, he⟩ <;> rw [he]
  · exact ⟨rfl, le_refl _, le_max_left _ _, List.prefix_rfl, List.prefix_append _ _⟩
  · exact ⟨⟨rfl, le_refl _, le_max_left _ _, List.prefix_rfl, List.prefix_append _ _⟩, rfl⟩

theorem writeBit_within (b : Bool) (s : State) : (writeBit b s).Within (WriterMoves s) fun f => f = .ioError := by
  unfold writeBit
  split
  · exact (emit_within _ _).mono (fun t ht => (WriterMoves.setWriter s _ _).trans ht) fun _ h => h
  · exact WriterMoves.setWriter s _ _

theorem writeBits_within (bs : List Bool) (s : State) :
    (writeBits bs s).Within (WriterMoves s) fun f => f = .ioError := by
  induction bs generalizing s with
  | nil => exact WriterMoves.refl s
  | cons b bs ih =>
    exact (writeBit_within b s).andThen (fun _ h => h) fun _ t ht => (ih t).mono (fun _ h => ht.trans h) fun _ h => h

theorem writeByte_within (d : Byte) (s : State) : (writeByte d s).Within (WriterMoves s) fun f => f = .ioError := by
  unfold writeByte
  split
  · exact emit_within d s
  · exact writeBits_within _ s

theorem writeBytes_within (ds : List Byte) (s : State) :
    (writeBytes ds s).Within (WriterMoves s) fun f => f = .ioError := by
  induction ds generalizing s with
  | nil => exact WriterMoves.refl s
  | cons d ds ih =>
    exact (writeByte_within d s).andThen (fun _ h => h) fun _ t ht => (ih t).mono (fun _ h => ht.trans h) fun _ h => h

theorem alignW_within (s : State) : (alignW s).Within (WriterMoves s) fun f => f = .ioError := by
  unfold alignW
  split
  · exact (flush_within s).andThen (fun _ h => h) fun _ _ h => h
  · refine Res.Within.andThen (R := WriterMoves s)
      ((emit_within _ _).mono (fun t ht => (WriterMoves.setWriter s _ _).trans ht) fun _ h => h) (fun _ h => h)
      fun _ t ht => ?_
    exact ((flush_within t).mono (fun _ h => ht.trans h) fun _ h => h).andThen (fun _ h => h) fun _ _ h => h

/-! ### Trie -/

/-- The insert frame with the ports. -/
def InsertMoves (s t : State) : Prop := InsertFrame s t ∧ PortsGrow s t

theorem InsertMoves.refl (s : State) : InsertMoves s s := ⟨rfl, PortsGrow.refl s⟩

theorem InsertMoves.trans {s t u : State} (h : InsertMoves s t) (h' : InsertMoves t u) : InsertMoves s u :=
  ⟨h.1.trans h'.1, h.2.trans h'.2 h.1.fields.1⟩

theorem ReaderMoves.insert {s t : State} (h : ReaderMoves s t) : InsertMoves s t := ⟨h.1.insert, h.2⟩

/-- What an insert may raise: a fault of its bits, an overlap, or a full store (R143). -/
def InsertRaises (Q : FaultKind → Prop) (f : FaultKind) : Prop := Q f ∨ f = .corruptDictionary ∨ f = .nodeOverflow

theorem trieWalk_within {nextBit : Nat → State → Res Bool} {M : State → State → Prop} {Q : FaultKind → Prop}
    (hrefl : ∀ s, M s s) (htrans : ∀ s t u, M s t → M t u → M s u) (halloc : ∀ s i b, M s (s.allocChild i b))
    (hnb : ∀ j s, (nextBit j s).Within (M s) Q) (n j i : Nat) (s : State) :
    (trieWalk nextBit n j i s).Within (M s) (InsertRaises Q) := by
  induction n generalizing j i s with
  | zero => exact hrefl s
  | succ n ih =>
    unfold trieWalk
    refine Res.Within.andThen (R := M s) ((hnb j s).mono (fun _ h => h) fun _ h => .inl h) (fun _ h => h) fun bit t ht => ?_
    split
    · exact ⟨ht, .inr (.inl rfl)⟩
    · split
      · exact (ih _ _ t).mono (fun u hu => htrans _ _ _ ht hu) fun _ h => h
      · split
        · exact ⟨ht, .inr (.inr rfl)⟩
        · exact (ih _ _ _).mono (fun u hu => htrans _ _ _ ht (htrans _ _ _ (halloc t i bit) hu)) fun _ h => h

theorem trieInsert_within {nextBit : Nat → State → Res Bool} {M : State → State → Prop} {Q : FaultKind → Prop}
    (hrefl : ∀ s, M s s) (htrans : ∀ s t u, M s t → M t u → M s u) (hnodes : ∀ s v, M s (s.setNodes v))
    (hnb : ∀ j s, (nextBit j s).Within (M s) Q) (sym : Byte) (len : Nat) (s : State) :
    (trieInsert sym len nextBit s).Within (M s) (InsertRaises Q) := by
  unfold trieInsert
  split
  · exact hrefl s
  · refine (trieWalk_within hrefl htrans (fun s i b => hnodes s _) hnb len 0 0 s).andThen (fun _ h => h) fun i t ht => ?_
    unfold trieMark
    split
    · exact ⟨ht, .inr (.inl rfl)⟩
    · exact htrans _ _ _ ht (hnodes t _)

theorem insertStream_within (sym : Byte) (len : Nat) (s : State) :
    (trieInsert sym len nextStreamBit s).Within (InsertMoves s)
      (InsertRaises fun f => f = .ioError ∨ f = .endOfInput) :=
  trieInsert_within InsertMoves.refl (fun _ _ _ => InsertMoves.trans) (fun s _ => ⟨rfl, PortsGrow.refl s⟩)
    (fun _ s => (readBit_within s).mono (fun _ h => h.insert) fun f hf => by
      rw [hf]; cases s.par.inTerm <;> simp [terminalFault]) sym len s

theorem insertCode_within (sym : Byte) (len : Nat) (code : List Bool) (s : State) :
    (trieInsert sym len (nextCodeBit code) s).Within (fun t => t = s.setNodes t.nodes)
      (InsertRaises fun _ => False) :=
  trieInsert_within (nextBit := nextCodeBit code) (M := fun s t => t = s.setNodes t.nodes) (Q := fun _ => False)
    (fun _ => rfl) (fun s t u h h' => by rw [h', h]; rfl) (fun _ _ => rfl)
    (fun _ s => Res.within_ok (rfl : s = s.setNodes s.nodes)) sym len s

/-! ### Codec -/

theorem decodeWalk_within (fuel i : Nat) (s : State) :
    (decodeWalk fuel i s).Within (ReaderMoves s) fun f => f = .corruptDictionary ∨ f = terminalFault s.par.inTerm := by
  induction fuel generalizing i s with
  | zero => exact ⟨ReaderMoves.refl s, .inr rfl⟩
  | succ fuel ih =>
    unfold decodeWalk
    refine Res.Within.andThen (R := ReaderMoves s) ((readBit_within s).mono (fun _ h => h) fun _ h => .inr h) (fun _ h => h)
      fun bit t ht => ?_
    split
    · exact ⟨ht, .inl rfl⟩
    · split
      · split
        · exact ht
        · exact ⟨ht, .inl rfl⟩
      · refine (ih _ t).mono (fun _ h => ht.trans h) fun f hf => ?_
        rwa [← ht.1.fields.1]

theorem decodeOne_within (s : State) :
    (decodeOne s).Within (ReaderMoves s) fun f => f = .corruptDictionary ∨ f = terminalFault s.par.inTerm :=
  decodeWalk_within _ _ s

theorem encodeOne_within (sym : Byte) (s : State) :
    (encodeOne sym s).Within (WriterMoves s) fun f => f = .symbolNotInTable ∨ f = .ioError := by
  unfold encodeOne
  split
  · exact ⟨WriterMoves.refl s, .inl rfl⟩
  · exact (writeBits_within _ s).mono (fun _ h => h) fun _ h => .inr h

/-- The codec frame with the ports. -/
def CodecMoves (s t : State) : Prop := CodecFrame s t ∧ PortsGrow s t

theorem CodecMoves.refl (s : State) : CodecMoves s s := ⟨rfl, PortsGrow.refl s⟩

theorem CodecMoves.trans {s t u : State} (h : CodecMoves s t) (h' : CodecMoves t u) : CodecMoves s u :=
  ⟨h.1.trans h'.1, h.2.trans h'.2 h.1.fields.1⟩

theorem ReaderMoves.codec {s t : State} (h : ReaderMoves s t) : CodecMoves s t := ⟨h.1.codec, h.2⟩

theorem WriterMoves.codec {s t : State} (h : WriterMoves s t) : CodecMoves s t := ⟨h.1.codec, h.2⟩

theorem compressLoop_within (fuel : Nat) (s : State) :
    (compressLoop fuel s).Within (fun t => CodecMoves s t ∧ t.decCount = s.decCount)
      fun f => f = .symbolNotInTable ∨ f = .ioError := by
  induction fuel generalizing s with
  | zero => exact ⟨CodecMoves.refl s, rfl⟩
  | succ fuel ih =>
    unfold compressLoop
    have hm := tryReadByte_moves s
    cases h : tryReadByte s with
    | mk item t =>
      rw [h] at hm
      cases item with
      | term x =>
        cases x with
        | endOfSource => exact ⟨hm.codec, hm.1.fields.2.2.2.2.2.2.2.1⟩
        | error => exact ⟨⟨hm.codec, hm.1.fields.2.2.2.2.2.2.2.1⟩, .inr rfl⟩
      | byte sym =>
        refine Res.Within.andThen (R := fun u => CodecMoves s u ∧ u.decCount = s.decCount)
          ((encodeOne_within sym t).mono (fun u hu => ⟨hm.codec.trans hu.codec, ?_⟩) fun _ h => h) (fun _ h => h)
          fun _ u hu => (ih _).mono (fun v hv => ⟨hu.1.trans ?_, by rw [hv.2]; exact hu.2⟩) fun _ h => h
        · rw [hu.1.fields.2.2.2.2.2.2.2.1, hm.1.fields.2.2.2.2.2.2.2.1]
        · exact CodecMoves.trans (t := u.setEncCount (u.encCount + 1#64)) ⟨rfl, PortsGrow.refl u⟩ hv.1

theorem decompressLoop_within (n : Nat) (s : State) :
    (decompressLoop n s).Within (fun t => CodecMoves s t ∧ t.encCount = s.encCount)
      fun f => f = .corruptDictionary ∨ f = .ioError ∨ f = .endOfInput := by
  induction n generalizing s with
  | zero => exact ⟨CodecMoves.refl s, rfl⟩
  | succ n ih =>
    unfold decompressLoop
    refine Res.Within.andThen (R := fun u => ReaderMoves s u)
      ((decodeOne_within s).mono (fun _ h => h) fun f hf => ?_)
      (fun u hu => ⟨hu.codec, hu.1.fields.2.2.2.2.2.2.2.2.1⟩) fun sym t ht => ?_
    · rcases hf with rfl | rfl
      · exact .inl rfl
      · cases s.par.inTerm <;> simp [terminalFault]
    · refine Res.Within.andThen (R := fun u => CodecMoves s u ∧ u.encCount = s.encCount)
        ((writeByte_within sym t).mono (fun u hu => ⟨ht.codec.trans hu.codec, ?_⟩) fun _ h => .inr (.inl h)) (fun _ h => h)
        fun _ u hu => (ih _).mono (fun v hv => ⟨hu.1.trans ?_, by rw [hv.2]; exact hu.2⟩) fun _ h => h
      · rw [hu.1.fields.2.2.2.2.2.2.2.2.1, ht.1.fields.2.2.2.2.2.2.2.2.1]
      · exact CodecMoves.trans (t := u.setDecCount (u.decCount + 1#64)) ⟨rfl, PortsGrow.refl u⟩ hv.1

end Sys2Proof.Machine
end

