-- ==== Sys2Proof/Laws/Exec.lean ====
section
/-! SUPPORT. Facts about every command's execution: all but GET_STATUS go through the command template, none stops, and what
each may touch and raise. -/

namespace Sys2Proof.Machine

/-- Every command but GET_STATUS is its pseudocode under the entry check (R253). -/
theorem exec_command (i : Instr) : i = .getStatus ∨ ∃ body, ∀ s, exec i s = command body s := by
  cases i with
  | getStatus => exact .inl rfl
  | rdBit => exact .inr ⟨_, fun s => by unfold exec execRdBit; rfl⟩
  | rdBytes n => exact .inr ⟨_, fun s => by unfold exec execRdBytes; rfl⟩
  | rdAlign => exact .inr ⟨_, fun s => by unfold exec execRdAlign; rfl⟩
  | wrBit b => exact .inr ⟨_, fun s => by unfold exec execWrBit; rfl⟩
  | wrBytes data => exact .inr ⟨_, fun s => by unfold exec execWrBytes; rfl⟩
  | wrAlign => exact .inr ⟨_, fun s => by unfold exec execWrAlign; rfl⟩
  | wrClose => exact .inr ⟨_, fun s => by unfold exec execWrClose; rfl⟩
  | ctClear => exact .inr ⟨_, fun s => by unfold exec execCtClear; rfl⟩
  | ctLoad sym code => exact .inr ⟨_, fun s => by unfold exec execCtLoad; rfl⟩
  | trClear => exact .inr ⟨_, fun s => by unfold exec execTrClear; rfl⟩
  | trInsertStream sym len => exact .inr ⟨_, fun s => by unfold exec execTrInsertStream; rfl⟩
  | trInsertCode sym code => exact .inr ⟨_, fun s => by unfold exec execTrInsertCode; rfl⟩
  | encSym sym => exact .inr ⟨_, fun s => by unfold exec execEncSym; rfl⟩
  | compress => exact .inr ⟨_, fun s => by unfold exec execCompress; rfl⟩
  | decSym => exact .inr ⟨_, fun s => by unfold exec execDecSym; rfl⟩
  | decompress size => exact .inr ⟨_, fun s => by unfold exec execDecompress; rfl⟩

theorem command_next (body : State → Res (List Byte)) (s : State) : ∃ t, command body s = .next t := by
  rcases command_cases body s with ⟨_, h⟩ | ⟨_, _, _, _, h⟩ | ⟨_, _, _, _, h⟩ <;> exact ⟨_, h⟩

/-- No command stops the machine. -/
theorem exec_next (i : Instr) (s : State) : ∃ t, exec i s = .next t := by
  rcases exec_command i with rfl | ⟨body, h⟩
  · exact ⟨_, rfl⟩
  · rw [h]
    exact command_next body s

/-- What a command may touch before it answers, WR_CLOSED apart. -/
def Touches : Instr → State → State → Prop
  | .getStatus, s, u => u = s
  | .rdBit, s, u => ReaderMoves s u
  | .rdBytes _, s, u => ReaderMoves s u
  | .rdAlign, s, u => ReaderMoves s u ∧ u.inPos = s.inPos
  | .wrBit _, s, u => WriterMoves s u
  | .wrBytes _, s, u => WriterMoves s u
  | .wrAlign, s, u => WriterMoves s u
  | .wrClose, s, u => WriterMoves s u
  | .ctClear, s, u => u = { s with ctLen := u.ctLen }
  | .ctLoad _ _, s, u => u = { s with ctLen := u.ctLen, ctBits := u.ctBits }
  | .trClear, s, u => u = s.setNodes u.nodes
  | .trInsertStream _ _, s, u => InsertMoves s u
  | .trInsertCode _ _, s, u => u = s.setNodes u.nodes
  | .encSym _, s, u => WriterMoves s u
  | .compress, s, u => CodecMoves s u ∧ u.decCount = s.decCount
  | .decSym, s, u => ReaderMoves s u
  | .decompress _, s, u => CodecMoves s u ∧ u.encCount = s.encCount

/-- The closing of the writer at the end of WR_CLOSE and COMPRESS (R128, R173). -/
def closing : Instr → State → State
  | .wrClose, u => u.close
  | .compress, u => u.close
  | _, u => u

/-- What no command touches before it answers, and that the ports only advance. -/
theorem Touches.core {i : Instr} {s u : State} (h : Touches i s u) :
    u.par = s.par ∧ u.wrClosed = s.wrClosed ∧ u.fault = s.fault ∧ u.cmdSeq = s.cmdSeq ∧ u.cmd = s.cmd ∧
    u.resp = s.resp ∧ PortsGrow s u := by
  have hr {v : State} (h : ReaderMoves s v) : v.par = s.par ∧ v.wrClosed = s.wrClosed ∧ v.fault = s.fault ∧
      v.cmdSeq = s.cmdSeq ∧ v.cmd = s.cmd ∧ v.resp = s.resp ∧ PortsGrow s v := by
    have f := h.1.fields
    exact ⟨f.1, f.2.2.2.1, f.2.2.2.2.2.2.2.2.2.1, f.2.2.2.2.2.2.2.2.2.2.1, f.2.2.2.2.2.2.2.2.2.2.2.2.2.1,
      f.2.2.2.2.2.2.2.2.2.2.2.2.2.2, h.2⟩
  have hw {v : State} (h : WriterMoves s v) : v.par = s.par ∧ v.wrClosed = s.wrClosed ∧ v.fault = s.fault ∧
      v.cmdSeq = s.cmdSeq ∧ v.cmd = s.cmd ∧ v.resp = s.resp ∧ PortsGrow s v := by
    have f := h.1.fields
    exact ⟨f.1, f.2.2.2.1, f.2.2.2.2.2.2.2.2.2.1, f.2.2.2.2.2.2.2.2.2.2.1, f.2.2.2.2.2.2.2.2.2.2.2.2.1,
      f.2.2.2.2.2.2.2.2.2.2.2.2.2, h.2⟩
  have hc {v : State} (h : CodecMoves s v) : v.par = s.par ∧ v.wrClosed = s.wrClosed ∧ v.fault = s.fault ∧
      v.cmdSeq = s.cmdSeq ∧ v.cmd = s.cmd ∧ v.resp = s.resp ∧ PortsGrow s v := by
    have f := h.1.fields
    exact ⟨f.1, f.2.1, f.2.2.2.2.2.1, f.2.2.2.2.2.2.1, f.2.2.2.2.2.2.2.1, f.2.2.2.2.2.2.2.2, h.2⟩
  have hn {v : State} (h : v = s.setNodes v.nodes) : v.par = s.par ∧ v.wrClosed = s.wrClosed ∧ v.fault = s.fault ∧
      v.cmdSeq = s.cmdSeq ∧ v.cmd = s.cmd ∧ v.resp = s.resp ∧ PortsGrow s v := by
    rw [h]
    exact ⟨rfl, rfl, rfl, rfl, rfl, rfl, PortsGrow.refl s⟩
  cases i with
  | getStatus => cases h; exact ⟨rfl, rfl, rfl, rfl, rfl, rfl, PortsGrow.refl s⟩
  | rdBit => exact hr h
  | rdBytes n => exact hr h
  | rdAlign => exact hr h.1
  | wrBit b => exact hw h
  | wrBytes data => exact hw h
  | wrAlign => exact hw h
  | wrClose => exact hw h
  | ctClear => rw [show u = _ from h]; exact ⟨rfl, rfl, rfl, rfl, rfl, rfl, PortsGrow.refl s⟩
  | ctLoad sym code => rw [show u = _ from h]; exact ⟨rfl, rfl, rfl, rfl, rfl, rfl, PortsGrow.refl s⟩
  | trClear => exact hn h
  | trInsertStream sym len =>
    have f := InsertFrame.fields h.1
    exact ⟨f.1, f.2.2.2.1, f.2.2.2.2.2.2.2.2.1, f.2.2.2.2.2.2.2.2.2.1, f.2.2.2.2.2.2.2.2.2.2.2.2.1,
      f.2.2.2.2.2.2.2.2.2.2.2.2.2, h.2⟩
  | trInsertCode sym code => exact hn h
  | encSym sym => exact hw h
  | compress => exact hc h.1
  | decSym => exact hr h
  | decompress size => exact hc h.1

@[simp] theorem closing_frame (i : Instr) (u : State) :
    (closing i u).par = u.par ∧ (closing i u).fault = u.fault ∧ (closing i u).cmdSeq = u.cmdSeq ∧
    (closing i u).cmd = u.cmd ∧ (closing i u).resp = u.resp := by cases i <;> exact ⟨rfl, rfl, rfl, rfl, rfl⟩

/-- The body of a command stays within what the command may touch and raises what its row of R251 marks. -/
theorem command_within {i : Instr} {body : State → Res (List Byte)} {s t : State} (h0 : s.fault = 0x00#8)
    (hb : (body s).Post (fun _ u => ∃ v, Touches i s v ∧ u = closing i v) fun f u => Touches i s u ∧ f ∈ canRaise i)
    (h : command body s = .next t) :
    ∃ u, Touches i s u ∧
      ((∃ p, t = (closing i u).answer (0x00#8 :: p)) ∨ ∃ f ∈ canRaise i, t = takeFault f u) := by
  rcases command_cases body s with ⟨hn, _⟩ | ⟨_, p, u, he, hc⟩ | ⟨_, f, u, he, hc⟩
  · exact absurd h0 hn
  · rw [he] at hb
    obtain ⟨v, hv, rfl⟩ := hb
    rw [hc] at h
    cases h
    exact ⟨v, hv, .inl ⟨p, rfl⟩⟩
  · rw [he] at hb
    rw [hc] at h
    cases h
    exact ⟨u, hb.1, .inr ⟨f, hb.2, rfl⟩⟩

theorem Res.Within.body {α : Type} {i : Instr} {s : State} {r : Res α} {R : State → Prop} {Q : FaultKind → Prop}
    {k : α → State → List Byte} {g : State → State} (h : r.Within R Q) (hR : ∀ u, R u → Touches i s u)
    (hQ : ∀ f, Q f → f ∈ canRaise i) (hg : ∀ u, g u = closing i u) :
    (r.andThen fun a u => .ok (k a u) (g u)).Post (fun _ u => ∃ v, Touches i s v ∧ u = closing i v)
      fun f u => Touches i s u ∧ f ∈ canRaise i := by
  cases r with
  | ok a u => exact ⟨u, hR u h, hg u⟩
  | raise f u => exact ⟨hR u h.1, hQ f h.2⟩

theorem terminalFault_cases (x : Terminal) : terminalFault x = .ioError ∨ terminalFault x = .endOfInput := by
  cases x <;> simp [terminalFault]

/-- Every command, said once: what it touches, whether it closes the writer, what it answers and what it raises. -/
theorem exec_touches (i : Instr) {s t : State} (h0 : s.fault = 0x00#8) (h : exec i s = .next t) :
    ∃ u, Touches i s u ∧
      ((∃ p, t = (closing i u).answer (0x00#8 :: p)) ∨ ∃ f ∈ canRaise i, t = takeFault f u) := by
  have closed (k : State → Res (List Byte)) (i : Instr) (hi : .writerUnusable ∈ canRaise i)
      (hs : Touches i s s)
      (hk : (k s).Post (fun _ u => ∃ v, Touches i s v ∧ u = closing i v) fun f u => Touches i s u ∧ f ∈ canRaise i) :
      ((checkWriter s).andThen fun _ s1 => k s1).Post (fun _ u => ∃ v, Touches i s v ∧ u = closing i v)
        fun f u => Touches i s u ∧ f ∈ canRaise i := by
    cases hc : s.wrClosed with
    | true => rw [checkWriter_closed hc]; exact ⟨hs, hi⟩
    | false => rw [checkWriter_open hc]; exact hk
  cases i with
  | getStatus => cases h; exact ⟨s, rfl, .inl ⟨_, rfl⟩⟩
  | rdBit =>
    simp only [exec, execRdBit] at h
    refine command_within (i := .rdBit) h0 ?_ h
    exact (readBit_within s).body (g := id) (fun _ h => h)
      (fun f hf => by rcases terminalFault_cases s.par.inTerm with e | e <;> simp [canRaise, hf, e]) fun _ => rfl
  | rdBytes n =>
    simp only [exec, execRdBytes] at h
    refine command_within (i := .rdBytes n) h0 ?_ h
    refine Res.Post.mono (readBytes_within n.toNat s) (fun _ u hu => ⟨u, hu, rfl⟩) fun f u hu => ⟨hu.1, ?_⟩
    rcases terminalFault_cases s.par.inTerm with e | e <;> simp [canRaise, hu.2, e]
  | rdAlign =>
    simp only [exec, execRdAlign] at h
    refine command_within (i := .rdAlign) h0 ?_ h
    exact ⟨s.setReader 0x00#8 0, ⟨⟨rfl, PortsGrow.refl s⟩, rfl⟩, rfl⟩
  | wrBit b =>
    simp only [exec, execWrBit] at h
    refine command_within (i := .wrBit b) h0 ?_ h
    split
    · exact ⟨WriterMoves.refl s, by simp [canRaise]⟩
    · refine closed (fun s1 => (writeBit (b.getLsbD 0) s1).andThen fun _ s2 => .ok [] s2) (.wrBit b) (by simp [canRaise])
        (WriterMoves.refl s) ?_
      exact (writeBit_within _ s).body (g := id) (fun _ h => h) (fun f hf => by simp [canRaise, hf]) fun _ => rfl
  | wrBytes data =>
    simp only [exec, execWrBytes] at h
    refine command_within (i := .wrBytes data) h0 (closed (fun s1 => (writeBytes data s1).andThen fun _ s2 => .ok [] s2) (.wrBytes data)
      (by simp [canRaise]) (WriterMoves.refl s) ?_) h
    exact (writeBytes_within _ s).body (g := id) (fun _ h => h) (fun f hf => by simp [canRaise, hf]) fun _ => rfl
  | wrAlign =>
    simp only [exec, execWrAlign] at h
    refine command_within (i := .wrAlign) h0 (closed (fun s1 => (alignW s1).andThen fun pad s2 => .ok [countByte pad] s2) (.wrAlign)
      (by simp [canRaise]) (WriterMoves.refl s) ?_) h
    exact (alignW_within s).body (g := id) (fun _ h => h) (fun f hf => by simp [canRaise, hf]) fun _ => rfl
  | wrClose =>
    simp only [exec, execWrClose] at h
    refine command_within (i := .wrClose) h0 (closed (fun s1 => (alignW s1).andThen fun pad s2 => .ok [countByte pad] s2.close) (.wrClose)
      (by simp [canRaise]) (WriterMoves.refl s) ?_) h
    exact (alignW_within s).body (g := State.close) (fun _ h => h) (fun f hf => by simp [canRaise, hf]) fun _ => rfl
  | ctClear =>
    simp only [exec, execCtClear] at h
    refine command_within (i := .ctClear) h0 ?_ h
    exact ⟨s.clearCodes, rfl, rfl⟩
  | ctLoad sym code =>
    simp only [exec, execCtLoad] at h
    refine command_within (i := .ctLoad sym code) h0 ?_ h
    exact ⟨s.setCode sym (codeOperandLen code) code, rfl, rfl⟩
  | trClear =>
    simp only [exec, execTrClear] at h
    refine command_within (i := .trClear) h0 ?_ h
    exact ⟨s.clearTrie, rfl, rfl⟩
  | trInsertStream sym len =>
    simp only [exec, execTrInsertStream] at h
    refine command_within (i := .trInsertStream sym len) h0 ?_ h
    refine (insertStream_within sym len.toNat s).body (g := id) (fun _ h => h) (fun f hf => ?_) fun _ => rfl
    rcases hf with (rfl | rfl) | rfl | rfl <;> simp [canRaise]
  | trInsertCode sym code =>
    simp only [exec, execTrInsertCode] at h
    refine command_within (i := .trInsertCode sym code) h0 ?_ h
    refine (insertCode_within sym code.length code s).body (g := id) (fun _ h => h) (fun f hf => ?_) fun _ => rfl
    rcases hf with h | rfl | rfl
    · exact h.elim
    · simp [canRaise]
    · simp [canRaise]
  | encSym sym =>
    simp only [exec, execEncSym] at h
    refine command_within (i := .encSym sym) h0 (closed (fun s1 => (encodeOne sym s1).andThen fun _ s2 => .ok [] s2) (.encSym sym)
      (by simp [canRaise]) (WriterMoves.refl s) ?_) h
    refine (encodeOne_within sym s).body (g := id) (fun _ h => h) (fun f hf => ?_) fun _ => rfl
    rcases hf with rfl | rfl <;> simp [canRaise]
  | compress =>
    simp only [exec, execCompress] at h
    refine command_within (i := .compress) h0 (closed (fun s1 => (compressLoop (s1.inLeft + 1) (s1.setEncCount 0#64)).andThen
      fun _ s2 => (alignW s2).andThen fun pad s3 => .ok (u64Payload s3.encCount ++ [countByte pad]) s3.close) (.compress)
      (by simp [canRaise]) ⟨CodecMoves.refl s, rfl⟩ ?_) h
    have h1 : (compressLoop (s.inLeft + 1) (s.setEncCount 0#64)).Within
        (fun t => CodecMoves s t ∧ t.decCount = s.decCount) fun f => f = .symbolNotInTable ∨ f = .ioError :=
      (compressLoop_within _ _).mono (fun u hu =>
        ⟨CodecMoves.trans (t := s.setEncCount 0#64) ⟨rfl, PortsGrow.refl s⟩ hu.1, hu.2⟩) fun _ h => h
    cases hl : compressLoop (s.inLeft + 1) (s.setEncCount 0#64) with
    | raise f u =>
      rw [hl] at h1
      refine ⟨h1.1, ?_⟩
      rcases h1.2 with rfl | rfl <;> simp [canRaise]
    | ok a u =>
      rw [hl] at h1
      exact Res.Within.body (k := fun pad s3 => u64Payload s3.encCount ++ [countByte pad]) (g := State.close)
        (alignW_within u)
        (fun v hv => ⟨h1.1.trans hv.codec, by rw [hv.1.fields.2.2.2.2.2.2.2.1]; exact h1.2⟩)
        (fun f hf => by simp [canRaise, hf]) fun _ => rfl
  | decSym =>
    simp only [exec, execDecSym] at h
    refine command_within (i := .decSym) h0 ?_ h
    refine (decodeOne_within s).body (g := id) (fun _ h => h) (fun f hf => ?_) fun _ => rfl
    rcases hf with rfl | rfl
    · simp [canRaise]
    · rcases terminalFault_cases s.par.inTerm with e | e <;> simp [canRaise, e]
  | decompress size =>
    simp only [exec, execDecompress] at h
    refine command_within (i := .decompress size) h0 (closed (fun s1 => (decompressLoop size.toNat (s1.setDecCount 0#64)).andThen
      fun _ s2 => .ok (u64Payload s2.decCount) s2) (.decompress size) (by simp [canRaise]) ⟨CodecMoves.refl s, rfl⟩ ?_) h
    refine (decompressLoop_within size.toNat (s.setDecCount 0#64)).body (g := id) (k := fun _ u => u64Payload u.decCount)
      (fun u hu => ⟨CodecMoves.trans (t := s.setDecCount 0#64) ⟨rfl, PortsGrow.refl s⟩ hu.1, hu.2⟩) (fun f hf => ?_)
      fun _ => rfl
    rcases hf with rfl | rfl | rfl <;> simp [canRaise]

end Sys2Proof.Machine
end

