-- ==== Sys2Proof/Laws/Keeps.lean ====
section
/-! SUPPORT. The induction behind the invariants of the two caches, packaged once: what the elementary moves keep, every
command and every step keeps. -/

namespace Sys2Proof.Machine

/-- A helper returns in states that meet `I` and raises a fault in states that meet `J` for it. -/
def Res.Keeps {α : Type} (r : Res α) (I : State → Prop) (J : FaultKind → State → Prop) : Prop :=
  r.Post (fun _ t => I t) J

theorem Res.Keeps.andThen {α β : Type} {r : Res α} {k : α → State → Res β} {I : State → Prop} {J : FaultKind → State → Prop} (h : r.Keeps I J)
    (hk : ∀ a t, I t → (k a t).Keeps I J) : (r.andThen k).Keeps I J := by
  cases r with
  | ok a t => exact hk a t h
  | raise f t => exact h

theorem checkWriter_keeps {α : Type} {I : State → Prop} {J : FaultKind → State → Prop} {k : Unit → State → Res α} (s : State) (hs : I s)
    (imp : ∀ f s, I s → J f s) (hk : (k () s).Keeps I J) : ((checkWriter s).andThen k).Keeps I J := by
  cases hc : s.wrClosed with
  | true => rw [checkWriter_closed hc]; exact imp _ s hs
  | false => rw [checkWriter_open hc]; exact hk

/-- What the elementary moves of the block keep. -/
structure Kept (I : State → Prop) (J : FaultKind → State → Prop) : Prop where
  imp : ∀ f s, I s → J f s
  readBit : ∀ s, I s → (readBit s).Keeps I J
  tryReadByte : ∀ s, I s → I (tryReadByte s).2
  writeBit : ∀ b s, I s → (writeBit b s).Keeps I J
  emit : ∀ d s, I s → s.wrCnt = 0 → (sinkStep (outEmit d s)).Keeps I J
  alignW : ∀ s, I s → (alignW s).Keeps I J
  setReader : ∀ s, I s → I (s.setReader 0x00#8 0)
  setNodes : ∀ s v, I s → I (s.setNodes v)
  setCode : ∀ s sym len code, I s → I (s.setCode sym len code)
  clearCodes : ∀ s, I s → I s.clearCodes
  setEncCount : ∀ s v, I s → I (s.setEncCount v)
  setDecCount : ∀ s v, I s → I (s.setDecCount v)
  close : ∀ s, I s → I s.close
  answer : ∀ s r, I s → I (s.answer r)
  setCmd : ∀ s c, I s → I (s.setCmd c)

variable {I : State → Prop} {J : FaultKind → State → Prop} (h : Kept I J)
include h

theorem Kept.readBytes (n : Nat) (s : State) (hs : I s) : (readBytes n s).Keeps I J := by
  induction n generalizing s with
  | zero => exact hs
  | succ n ih =>
    refine Res.Keeps.andThen ?_ fun b t ht => (ih t ht).andThen fun _ _ h => h
    have ht := h.tryReadByte s hs
    unfold readByte
    cases hr : Machine.tryReadByte s with
    | mk item t =>
      rw [hr] at ht
      cases item
      · exact ht
      · exact h.imp _ t ht

theorem Kept.writeBits (bs : List Bool) (s : State) (hs : I s) : (writeBits bs s).Keeps I J := by
  induction bs generalizing s with
  | nil => exact hs
  | cons b bs ih => exact (h.writeBit b s hs).andThen fun _ t ht => ih t ht

theorem Kept.writeByte (d : Byte) (s : State) (hs : I s) : (writeByte d s).Keeps I J := by
  unfold Machine.writeByte
  split
  · rename_i h0
    exact h.emit d s hs h0
  · exact h.writeBits _ s hs

theorem Kept.writeBytes (ds : List Byte) (s : State) (hs : I s) : (writeBytes ds s).Keeps I J := by
  induction ds generalizing s with
  | nil => exact hs
  | cons d ds ih => exact (h.writeByte d s hs).andThen fun _ t ht => ih t ht

theorem Kept.trieWalk {nextBit : Nat → State → Res Bool} (hnb : ∀ j s, I s → (nextBit j s).Keeps I J) (n j i : Nat) (s : State)
    (hs : I s) : (trieWalk nextBit n j i s).Keeps I J := by
  induction n generalizing j i s with
  | zero => exact hs
  | succ n ih =>
    refine (hnb j s hs).andThen fun bit t ht => ?_
    split
    · exact h.imp _ t ht
    · split
      · exact ih _ _ t ht
      · split
        · exact h.imp _ t ht
        · exact ih _ _ _ (h.setNodes t _ ht)

theorem Kept.trieInsert {nextBit : Nat → State → Res Bool} (hnb : ∀ j s, I s → (nextBit j s).Keeps I J) (sym : Byte) (len : Nat)
    (s : State) (hs : I s) : (trieInsert sym len nextBit s).Keeps I J := by
  unfold Machine.trieInsert
  split
  · exact hs
  · refine (h.trieWalk hnb len 0 0 s hs).andThen fun i t ht => ?_
    unfold trieMark
    split
    · exact h.imp _ t ht
    · exact h.setNodes t _ ht

theorem Kept.decodeWalk (fuel i : Nat) (s : State) (hs : I s) : (decodeWalk fuel i s).Keeps I J := by
  induction fuel generalizing i s with
  | zero => exact h.imp _ s hs
  | succ fuel ih =>
    refine (h.readBit s hs).andThen fun bit t ht => ?_
    split
    · exact h.imp _ t ht
    · split
      · split
        · exact ht
        · exact h.imp _ t ht
      · exact ih _ t ht

theorem Kept.encodeOne (sym : Byte) (s : State) (hs : I s) : (encodeOne sym s).Keeps I J := by
  unfold Machine.encodeOne
  split
  · exact h.imp _ s hs
  · exact h.writeBits _ s hs

theorem Kept.compressLoop (fuel : Nat) (s : State) (hs : I s) : (compressLoop fuel s).Keeps I J := by
  induction fuel generalizing s with
  | zero => exact hs
  | succ fuel ih =>
    have ht := h.tryReadByte s hs
    unfold Machine.compressLoop
    cases hr : Machine.tryReadByte s with
    | mk item t =>
      rw [hr] at ht
      cases item with
      | term x =>
        cases x
        · exact ht
        · exact h.imp _ t ht
      | byte sym => exact (h.encodeOne sym t ht).andThen fun _ u hu => ih _ (h.setEncCount u _ hu)

theorem Kept.decompressLoop (n : Nat) (s : State) (hs : I s) : (decompressLoop n s).Keeps I J := by
  induction n generalizing s with
  | zero => exact hs
  | succ n ih =>
    exact (h.decodeWalk _ _ s hs).andThen fun sym t ht =>
      (h.writeByte sym t ht).andThen fun _ u hu => ih _ (h.setDecCount u _ hu)

theorem Kept.command {body : State → Res (List Byte)} {s t : State} (hs : I s) (hb : (body s).Keeps I J)
    (ht : command body s = .next t) : I t ∨ ∃ f u, J f u ∧ t = takeFault f u := by
  rcases command_cases body s with ⟨_, he⟩ | ⟨_, p, u, hu, he⟩ | ⟨_, f, u, hu, he⟩ <;> rw [he] at ht <;> cases ht
  · exact .inl (h.answer s _ hs)
  · rw [hu] at hb
    exact .inl (h.answer u _ hb)
  · rw [hu] at hb
    exact .inr ⟨f, u, hb, rfl⟩

/-- Every command keeps it. -/
theorem Kept.exec (i : Instr) {s t : State} (hs : I s) (ht : exec i s = .next t) :
    I t ∨ ∃ f u, J f u ∧ t = takeFault f u := by
  cases i with
  | getStatus => cases ht; exact .inl (h.answer s _ hs)
  | rdBit =>
    simp only [Machine.exec, execRdBit] at ht
    refine h.command hs ?_ ht
    exact (h.readBit s hs).andThen fun _ _ h => h
  | rdBytes n =>
    simp only [Machine.exec, execRdBytes] at ht
    refine h.command hs ?_ ht
    exact h.readBytes n.toNat s hs
  | rdAlign =>
    simp only [Machine.exec, execRdAlign] at ht
    refine h.command hs ?_ ht
    exact h.setReader s hs
  | wrBit b =>
    simp only [Machine.exec, execWrBit] at ht
    refine h.command hs ?_ ht
    split
    · exact h.imp _ s hs
    · exact checkWriter_keeps s hs h.imp ((h.writeBit _ s hs).andThen fun _ _ h => h)
  | wrBytes data =>
    simp only [Machine.exec, execWrBytes] at ht
    refine h.command hs ?_ ht
    exact checkWriter_keeps s hs h.imp ((h.writeBytes data s hs).andThen fun _ _ h => h)
  | wrAlign =>
    simp only [Machine.exec, execWrAlign] at ht
    refine h.command hs ?_ ht
    exact checkWriter_keeps s hs h.imp ((h.alignW s hs).andThen fun _ _ h => h)
  | wrClose =>
    simp only [Machine.exec, execWrClose] at ht
    refine h.command hs ?_ ht
    exact checkWriter_keeps s hs h.imp ((h.alignW s hs).andThen fun _ t ht => h.close t ht)
  | ctClear =>
    simp only [Machine.exec, execCtClear] at ht
    refine h.command hs ?_ ht
    exact h.clearCodes s hs
  | ctLoad sym code =>
    simp only [Machine.exec, execCtLoad] at ht
    refine h.command hs ?_ ht
    exact h.setCode s sym _ code hs
  | trClear =>
    simp only [Machine.exec, execTrClear] at ht
    refine h.command hs ?_ ht
    exact h.setNodes s _ hs
  | trInsertStream sym len =>
    simp only [Machine.exec, execTrInsertStream] at ht
    refine h.command hs ?_ ht
    exact (h.trieInsert (fun _ s hs => h.readBit s hs) sym _ s hs).andThen fun _ _ h => h
  | trInsertCode sym code =>
    simp only [Machine.exec, execTrInsertCode] at ht
    refine h.command hs ?_ ht
    exact (h.trieInsert (nextBit := nextCodeBit code) (fun _ _ hs => hs) sym _ s hs).andThen fun _ _ h => h
  | encSym sym =>
    simp only [Machine.exec, execEncSym] at ht
    refine h.command hs ?_ ht
    exact checkWriter_keeps s hs h.imp ((h.encodeOne sym s hs).andThen fun _ _ h => h)
  | compress =>
    simp only [Machine.exec, execCompress] at ht
    refine h.command hs ?_ ht
    exact checkWriter_keeps s hs h.imp ((h.compressLoop _ _ (h.setEncCount s _ hs)).andThen fun _ t ht =>
      (h.alignW t ht).andThen fun _ u hu => h.close u hu)
  | decSym =>
    simp only [Machine.exec, execDecSym] at ht
    refine h.command hs ?_ ht
    exact (h.decodeWalk _ _ s hs).andThen fun _ _ h => h
  | decompress size =>
    simp only [Machine.exec, execDecompress] at ht
    refine h.command hs ?_ ht
    exact checkWriter_keeps s hs h.imp ((h.decompressLoop _ _ (h.setDecCount s _ hs)).andThen fun _ _ h => h)

/-- Every step keeps it. -/
theorem Kept.step {s t : State} (hs : I s) (ht : step s = .next t) :
    I t ∨ ∃ f u, J f u ∧ t = takeFault f u := by
  unfold Machine.step at ht
  split at ht
  · exact h.exec _ (h.setCmd s _ hs) ht
  · exact h.command (body := fun s => .raise .illegalCommand s) (h.setCmd s _ hs)
      (h.imp _ _ (h.setCmd s _ hs)) ht
  · cases ht

end Sys2Proof.Machine
end

