-- ==== Sys2Proof/Laws/PerInstr.lean ====
section
/-! SUPPORT. Facts about every command as syntax, one lemma per constructor. -/

namespace Sys2Proof.Laws.EncodedLength

/-- The length rule (R75) finds exactly the bytes of a command's encoding, from any channel that starts with them. -/
def Statement (i : Instr) : Prop :=
  i.wf = true → ∀ rest, commandLength (encode i ++ rest) = some (encode i).length

theorem getStatus : Statement .getStatus := fun _ _ => rfl

theorem rdBit : Statement .rdBit := fun _ _ => rfl

theorem rdBytes (n : U32) : Statement (.rdBytes n) := fun _ _ => by
  simp [encode, commandLength, formatOf]

theorem rdAlign : Statement .rdAlign := fun _ _ => rfl

theorem wrBit (b : Byte) : Statement (.wrBit b) := fun _ _ => rfl

theorem wrBytes (data : List Byte) : Statement (.wrBytes data) := by
  intro h rest
  have hd : data.length < 2 ^ 32 := by simpa [Instr.wf, dataFits] using h
  have he := ofBigEndian_toBigEndian 4 data.length
  rw [Nat.mod_eq_of_lt (by omega)] at he
  show some (5 + ofBigEndian (toBigEndian 4 data.length)) = _
  rw [he]
  simp [encode, encodeF5]
  omega

theorem wrAlign : Statement .wrAlign := fun _ _ => rfl

theorem wrClose : Statement .wrClose := fun _ _ => rfl

theorem ctClear : Statement .ctClear := fun _ _ => rfl

theorem ctLoad (sym : Byte) (code : List Bool) : Statement (.ctLoad sym code) := by
  intro h rest
  have hc : code.length ≤ 255 := by simpa [Instr.wf, codeFits] using h
  have hm : code.length % 256 = code.length := Nat.mod_eq_of_lt (by omega)
  simp [encode, encodeF3, commandLength, formatOf, hm]
  omega

theorem trClear : Statement .trClear := fun _ _ => rfl

theorem trInsertStream (sym len : Byte) : Statement (.trInsertStream sym len) := fun _ _ => rfl

theorem trInsertCode (sym : Byte) (code : List Bool) : Statement (.trInsertCode sym code) := by
  intro h rest
  have hc : code.length ≤ 255 := by simpa [Instr.wf, codeFits] using h
  have hm : code.length % 256 = code.length := Nat.mod_eq_of_lt (by omega)
  simp [encode, encodeF3, commandLength, formatOf, hm]
  omega

theorem encSym (sym : Byte) : Statement (.encSym sym) := fun _ _ => rfl

theorem compress : Statement .compress := fun _ _ => rfl

theorem decSym : Statement .decSym := fun _ _ => rfl

theorem decompress (size : U64) : Statement (.decompress size) := fun _ _ => by
  simp [encode, commandLength, formatOf]

end Sys2Proof.Laws.EncodedLength
end

