-- ==== Sys2Proof/Laws/Run.lean ====
section
/-! SUPPORT. The host's reset and a run's steps, each said once (R267, R268, R280, R281). -/

namespace Sys2Proof.Machine

theorem hostReset_boundary (p : Params) {s : State} (h : s.atBoundary = true) :
    hostReset p s = some (State.resetWith { p with nodeCap := s.par.nodeCap }) := by simp [hostReset, h]

theorem hostReset_half (p : Params) {s : State} (h : s.atBoundary = false) : hostReset p s = none := by
  simp [hostReset, h]

/-- A reset that happens happens at a boundary, and what it leaves does not depend on the state but for NODE_CAP. -/
theorem hostReset_some {p : Params} {s t : State} (h : hostReset p s = some t) :
    s.atBoundary = true ∧ t = State.resetWith { p with nodeCap := s.par.nodeCap } := by
  cases hb : s.atBoundary with
  | true => rw [hostReset_boundary p hb] at h; exact ⟨rfl, (Option.some.inj h).symm⟩
  | false => rw [hostReset_half p hb] at h; cases h

@[simp] theorem steps_zero (s : State) : steps 0 s = some s := rfl

theorem steps_succ (n : Nat) {s t : State} (h : step s = .next t) : steps (n + 1) s = steps n t := by simp [steps, h]

/-- The states that steps in a row lead to are states of the epoch. -/
theorem epoch_steps {p : Params} {sent : List Byte} (n : Nat) {s t : State} (hs : Epoch p sent s)
    (h : steps n s = some t) : Epoch p sent t := by
  induction n generalizing s with
  | zero => cases h; exact hs
  | succ n ih =>
    cases hst : step s with
    | next u => rw [steps_succ n hst] at h; exact ih (hs.step hst) h
    | fault f => simp [steps, hst] at h
    | refused r => simp [steps, hst] at h

/-- What holds at reset, and what the host's sends and the block's steps keep, holds all through an epoch. -/
theorem epoch_invariant {p : Params} {I : State → Prop} (h0 : I (State.resetWith p))
    (hsend : ∀ bytes s, I s → I (hostSend bytes s)) (hstep : ∀ s t, I s → step s = .next t → I t) {sent : List Byte} {s : State}
    (h : Epoch p sent s) : I s := by
  induction h with
  | start => exact h0
  | send bytes _ ih => exact hsend bytes _ ih
  | step _ ht ih => exact hstep _ _ ih ht

end Sys2Proof.Machine
end

