-- ==== Sys2Proof/Machine/Assembler.lean ====
section
/-! DEFINITION. The assembler of the command set (30_encoding R83, R84): one command a line, from text to a command and to
its bytes.  Text is a list of characters.  What R83 leaves open about the text (what ends a line, which characters are blanks
and where they may stand, how digits are written, what is refused) is a DESIGN CHOICE, log entry 17. -/

namespace Sys2Proof.Machine

/-- A blank inside a line: a space, a tab or a carriage return, so that a line may end in CR LF.  R83 names no blank
character and no line end (DESIGN CHOICE, log entry 17). -/
def isBlank (c : Char) : Bool := c = ' ' || c = '\t' || c = '\r'

/-- The text without the spaces at its two ends. -/
def trimBlanks (cs : List Char) : List Char := ((cs.dropWhile isBlank).reverse.dropWhile isBlank).reverse

/-- The pieces of a text between the occurrences of a separator. -/
def splitAtChar (sep : Char) : List Char → List (List Char)
  | [] => [[]]
  | c :: cs =>
    if c = sep then [] :: splitAtChar sep cs
    else
      match splitAtChar sep cs with
      | [] => [[c]]
      | w :: ws => (c :: w) :: ws

/-- The value of a digit, a hexadecimal one in either case (DESIGN CHOICE, log entry 17). -/
def digitValue (c : Char) : Option Nat :=
  if 48 ≤ c.toNat ∧ c.toNat ≤ 57 then some (c.toNat - 48)
  else if 97 ≤ c.toNat ∧ c.toNat ≤ 102 then some (c.toNat - 87)
  else if 65 ≤ c.toNat ∧ c.toNat ≤ 70 then some (c.toNat - 55)
  else none

/-- The number that digits in a base write, most significant digit first, after `acc`. -/
def digitsFrom (base : Nat) : Nat → List Char → Option Nat
  | acc, [] => some acc
  | acc, c :: cs =>
    match digitValue c with
    | some d => if d < base then digitsFrom base (acc * base + d) cs else none
    | none => none

/-- A decimal number, or a hexadecimal one with the prefix `0x` (R83), leading zeros allowed, below `2^width`; any other is
refused (DESIGN CHOICE, log entry 17). -/
def parseNumber (width : Nat) (cs : List Char) : Option Nat :=
  match
    (match cs with
    | [] => none
    | ['0', 'x'] => none
    | '0' :: 'x' :: ds => digitsFrom 16 0 ds
    | ds => digitsFrom 10 0 ds) with
  | some v => if v < 2 ^ width then some v else none
  | none => none

/-- A byte operand. -/
def parseByte (cs : List Char) : Option Byte := (parseNumber 8 (trimBlanks cs)).map (BitVec.ofNat 8)

/-- The bits of a quoted code after its opening quote (R83). -/
def parseCodeTail : List Char → Option (List Bool)
  | [] => none
  | [c] => if c.toNat = 39 then some [] else none
  | c :: cs =>
    if c = '0' then (parseCodeTail cs).map (false :: ·)
    else if c = '1' then (parseCodeTail cs).map (true :: ·)
    else none

/-- A quoted code `'c0c1…'`, root-to-leaf (R83); one of more than 255 bits is refused (DESIGN CHOICE, log entry 17). -/
def parseCode (cs : List Char) : Option (List Bool) :=
  match trimBlanks cs with
  | c :: rest =>
    if c.toNat = 39 then
      match parseCodeTail rest with
      | some code => if codeFits code then some code else none
      | none => none
    else none
  | [] => none

/-- Each of several byte operands. -/
def parseBytes : List (List Char) → Option (List Byte)
  | [] => some []
  | w :: ws =>
    match parseByte w, parseBytes ws with
    | some b, some bs => some (b :: bs)
    | _, _ => none

/-- A bracketed list of bytes `[d0, d1, …]` (R83).  A list of 2^32 or more bytes has no encoding, and R83 does not say
what the assembler does with it: it is refused (DESIGN CHOICE, log entry 17). -/
def parseByteList (cs : List Char) : Option (List Byte) :=
  match trimBlanks cs with
  | '[' :: rest =>
    match rest.reverse with
    | ']' :: inner =>
      if trimBlanks inner = [] then some []
      else
        match parseBytes (splitAtChar ',' inner.reverse) with
        | some data => if dataFits data then some data else none
        | none => none
    | _ => none
  | _ => none

/-- A mnemonic of the command set, a pseudo-instruction included, with the text of its operands. -/
def assembleCommand (name operands : List Char) : Option Instr :=
  let noOperand (i : Instr) : Option Instr := if operands = [] then some i else none
  let oneNumber (width : Nat) (mk : Nat → Instr) : Option Instr := (parseNumber width operands).map mk
  let symCode (mk : Byte → List Bool → Instr) : Option Instr :=
    match splitAtChar ',' operands with
    | [a, b] =>
      match parseByte a, parseCode b with
      | some sym, some code => some (mk sym code)
      | _, _ => none
    | _ => none
  if name = "GET_STATUS".toList then noOperand .getStatus
  else if name = "RD_BIT".toList then noOperand .rdBit
  else if name = "RD_BYTES".toList then oneNumber 32 fun n => .rdBytes (BitVec.ofNat 32 n)
  else if name = "RD_ALIGN".toList then noOperand .rdAlign
  else if name = "WR_BIT".toList then oneNumber 8 fun b => .wrBit (BitVec.ofNat 8 b)
  else if name = "WR_BYTES".toList then (parseByteList operands).map .wrBytes
  else if name = "WR_ALIGN".toList then noOperand .wrAlign
  else if name = "WR_CLOSE".toList then noOperand .wrClose
  else if name = "CT_CLEAR".toList then noOperand .ctClear
  else if name = "CT_LOAD".toList then symCode .ctLoad
  else if name = "TR_CLEAR".toList then noOperand .trClear
  else if name = "TR_INSERT_STREAM".toList then
    match parseBytes (splitAtChar ',' operands) with
    | some [sym, len] => some (.trInsertStream sym len)
    | _ => none
  else if name = "TR_INSERT_CODE".toList then symCode .trInsertCode
  else if name = "ENC_SYM".toList then oneNumber 8 fun s => .encSym (BitVec.ofNat 8 s)
  else if name = "COMPRESS".toList then noOperand .compress
  else if name = "DEC_SYM".toList then noOperand .decSym
  else if name = "DECOMPRESS".toList then oneNumber 64 fun n => .decompress (BitVec.ofNat 64 n)
  else if name = "WR_U8".toList then oneNumber 8 fun v => pseudoWrU8 (BitVec.ofNat 8 v)
  else if name = "WR_U16".toList then oneNumber 16 fun v => pseudoWrU16 (BitVec.ofNat 16 v)
  else if name = "WR_U32".toList then oneNumber 32 fun v => pseudoWrU32 (BitVec.ofNat 32 v)
  else if name = "WR_U64".toList then oneNumber 64 fun v => pseudoWrU64 (BitVec.ofNat 64 v)
  else if name = "RD_U8".toList then noOperand pseudoRdU8
  else if name = "RD_U16".toList then noOperand pseudoRdU16
  else if name = "RD_U32".toList then noOperand pseudoRdU32
  else if name = "RD_U64".toList then noOperand pseudoRdU64
  else none

/-- One line of assembler text (R83): `none` for a line the assembler refuses, no command for a line that holds only blanks
or a comment, one command otherwise.  The comment runs to the line's end and the mnemonic to its first blank (DESIGN CHOICE,
log entry 17). -/
def assembleLine (line : List Char) : Option (List Instr) :=
  match trimBlanks (line.takeWhile fun c => c ≠ ';') with
  | [] => some []
  | c :: cs =>
    (assembleCommand ((c :: cs).takeWhile fun c => !isBlank c)
      (trimBlanks ((c :: cs).dropWhile fun c => !isBlank c))).map fun i => [i]

/-- The commands of several lines, in order. -/
def assembleLines : List (List Char) → Option (List Instr)
  | [] => some []
  | l :: ls =>
    match assembleLine l, assembleLines ls with
    | some is, some rest => some (is ++ rest)
    | _, _ => none

/-- The commands of an assembler text.  A line feed ends a line, and the last line needs none; a text with a refused line is
refused whole (DESIGN CHOICE, log entry 17: R83 says one command a line, not what ends a line). -/
def assemble (text : List Char) : Option (List Instr) := assembleLines (splitAtChar '\n' text)

/-- The bytes the host sends for an assembler text. -/
def assembleBytes (text : List Char) : Option (List Byte) := (assemble text).map fun is => is.flatMap encode

end Sys2Proof.Machine
end

