-- ==== Sys2Proof/Tests/Slice0.lean ====
section
/-! SUPPORT. Tests of the model: the checks of WellFormed, words written out from the spec's encodings, and at most two
single steps a command, with results from spec/95_test_vectors.md (the vector's name stands at each test) or computed by
hand from the rule named. -/

namespace Sys2Proof.Tests

set_option Elab.async false

open Sys2Proof Sys2Proof.Machine

/-! ### States and observations -/

/-- Reset with a source (R52). -/
def withIn (bytes : List Byte) (term : Terminal) : State :=
  State.resetWith { Params.default with inBytes := bytes, inTerm := term }

/-- Reset with a sink whose first answer is Fail (R53). -/
def firstFails : State := State.resetWith { Params.default with sinkAnswers := [.fail] }

/-- The trie of table "abaa" (95_test_vectors, Codec). -/
def abaaNodes : List Node :=
  [{ z := some 1, o := some 2, leaf := false, sym := 0x00 }, { z := none, o := none, leaf := true, sym := 0x62 },
    { z := none, o := none, leaf := true, sym := 0x61 }]

/-- Table "abaa": 0x61 has the code 1, 0x62 the code 0. -/
def withAbaaTable (s : State) : State := (s.setCode 0x61 1 [true]).setCode 0x62 1 [false]

def withAbaaTrie (s : State) : State := s.setNodes abaaNodes

/-- The state after one step on the given command bytes. -/
def after (s : State) (bytes : List Byte) : Option State :=
  match step (hostSend bytes s) with
  | .next t => some t
  | .fault _ => none
  | .refused _ => none

/-- Something seen after one step. -/
def seen {α : Type} (s : State) (bytes : List Byte) (f : State → α) : Option α := (after s bytes).map f

/-! ### WellFormed: an ill-formed term for each check -/

/-- R9: a code has at most 255 bits. -/
theorem test_wf_code_of_256_bits :
    (Instr.ctLoad 0x61 (List.replicate 256 true)).wf = false ∧ (Instr.trInsertCode 0x61 (List.replicate 256 true)).wf = false ∧
    (Instr.ctLoad 0x61 (List.replicate 255 true)).wf = true ∧ (Instr.trInsertCode 0x61 (List.replicate 255 true)).wf = true := by
  decide +kernel

/-- R11: a data operand has a u32 length. -/
theorem test_wf_data_of_2_to_the_32_bytes : ∃ data : List Byte, data.length = 2 ^ 32 ∧ (Instr.wrBytes data).wf = false := by
  obtain ⟨data, h⟩ : ∃ data : List Byte, data.length = 2 ^ 32 := ⟨List.replicate (2 ^ 32) 0, List.length_replicate⟩
  exact ⟨data, h, decide_eq_false (by rw [h]; exact Nat.lt_irrefl _)⟩

theorem test_wf_accepts_the_rest :
    Instr.getStatus.wf && (Instr.rdBytes 0xFFFFFFFF).wf && (Instr.wrBit 0xFF).wf && (Instr.wrBytes []).wf &&
      (Instr.trInsertStream 0xFF 0xFF).wf && (Instr.decompress 0xFFFFFFFFFFFFFFFF).wf = true := by decide

/-! ### Decoding: one word per constructor, from R72, R74 and R76 -/

theorem test_decode_getStatus : decode [0x01] = .command .getStatus [] := by decide
theorem test_decode_rdBit : decode [0x10, 0x10] = .command .rdBit [0x10] := by decide
theorem test_decode_rdBytes : decode [0x11, 0x01, 0x02, 0x03, 0x04] = .command (.rdBytes 0x01020304) [] := by decide
theorem test_decode_rdAlign : decode [0x12] = .command .rdAlign [] := by decide
theorem test_decode_wrBit : decode [0x20, 0x02, 0x01] = .command (.wrBit 2) [0x01] := by decide
/-- Vector W10's third command. -/
theorem test_decode_wrBytes :
    decode [0x21, 0x00, 0x00, 0x00, 0x02, 0x00, 0xFF, 0x22] = .command (.wrBytes [0x00, 0xFF]) [0x22] := by decide
theorem test_decode_wrAlign : decode [0x22] = .command .wrAlign [] := by decide
theorem test_decode_wrClose : decode [0x23] = .command .wrClose [] := by decide
theorem test_decode_ctClear : decode [0x30] = .command .ctClear [] := by decide
/-- Vector T15: nine bits take two code bytes, 0x55 then 0x01. -/
theorem test_decode_ctLoad :
    decode [0x31, 0x41, 0x09, 0x55, 0x01] =
      .command (.ctLoad 0x41 [true, false, true, false, true, false, true, false, true]) [] := by decide
theorem test_decode_trClear : decode [0x40] = .command .trClear [] := by decide
/-- Vector T10's second command. -/
theorem test_decode_trInsertStream : decode [0x41, 0x62, 0x03] = .command (.trInsertStream 0x62 3) [] := by decide
/-- Vector T5's first command; the high six bits of the code byte are padding, here not 0 (R74, R78). -/
theorem test_decode_trInsertCode : decode [0x42, 0x62, 0x02, 0xFE] = .command (.trInsertCode 0x62 [false, true]) [] := by
  decide
theorem test_decode_encSym : decode [0x50, 0x72] = .command (.encSym 0x72) [] := by decide
theorem test_decode_compress : decode [0x51] = .command .compress [] := by decide
theorem test_decode_decSym : decode [0x60] = .command .decSym [] := by decide
theorem test_decode_decompress :
    decode [0x61, 0x01, 0x02, 0x03, 0x04, 0x05, 0x06, 0x07, 0x08] = .command (.decompress 0x0102030405060708) [] := by
  decide
/-- R77: the edges of the reserved ranges. -/
theorem test_decode_reserved :
    [0x00, 0x02, 0x0F, 0x13, 0x1F, 0x24, 0x2F, 0x32, 0x3F, 0x43, 0x4F, 0x52, 0x5F, 0x62, 0xFF].all
      (fun op : Byte => decode [op, 0x10] == .reserved op [0x10]) = true := by decide +kernel
/-- R82: a command with a byte missing, of each format with operands. -/
theorem test_decode_incomplete :
    [[], [0x20], [0x41, 0x61], [0x31, 0x62, 0x09, 0x55], [0x11, 0, 0, 0], [0x21, 0, 0, 0, 1], [0x21, 0, 0, 0],
      [0x61, 0, 0, 0, 0, 0, 0, 0]].all (fun bs : List Byte => decode bs == .incomplete) = true := by decide +kernel
/-- The table numbers bits from the first byte: its opcode is the low byte of the word. -/
theorem test_decodeTableWord : decodeTableWord 16 0x0120 = some (.wrBit 1) := by decide +kernel
theorem test_encode_ctLoad : encode (.ctLoad 0x62 [true, true, false]) = [0x31, 0x62, 0x03, 0x03] := by decide

/-! ### Control and the channel -/

/-- Vector G1. -/
theorem test_getStatus_at_reset :
    seen State.reset [0x01] (·.resp) =
      some [[0x00, 0, 0, 0, 0, 0, 0, 0x00, 0x01, 0, 0, 0, 0, 0, 0, 0, 0, 0, 0, 0, 0, 0, 0, 0, 0]] := by decide +kernel
/-- R200: it answers with a fault pending, with NODE_COUNT and the counters big-endian. -/
theorem test_getStatus_with_fault :
    seen
      { State.reset with
        fault := 0x05
        rdRem := 3
        rdCache := 0x05
        wrCnt := 2
        wrCache := 0x01
        wrClosed := true
        nodes := List.replicate 258 Node.fresh
        decCount := 0x0102
        encCount := 0x0304 }
      [0x01] (·.resp) =
      some [[0x00, 5, 3, 5, 2, 1, 1, 0x01, 0x02, 0, 0, 0, 0, 0, 0, 1, 2, 0, 0, 0, 0, 0, 0, 3, 4]] := by decide +kernel
/-- Vector X1's first command. -/
theorem test_reserved_opcode_faults :
    seen State.reset [0x00, 0x01, 0x10] (fun t => (t.resp, t.fault, t.cmdSeq, t.cmd)) = some ([[0x07]], 7, 1, [0x01, 0x10]) := by
  decide +kernel
/-- Vector X3's second command: the skipped WR_BYTES still consumes its 8 bytes. -/
theorem test_sticky_fault_consumes_the_bytes :
    seen (State.reset.setFault 7) [0x21, 0, 0, 0, 3, 1, 2, 3, 0x01] (fun t => (t.resp, t.cmd, t.outEvents, t.cmdSeq)) =
      some ([[0x07]], [0x01], [], 1) := by decide +kernel
/-- R82: the block waits for a missing byte. -/
theorem test_incomplete_command_waits : after State.reset [0x11, 0, 0, 0] = none := by decide +kernel

/-- R280, R281: the host can reset with two whole commands unread, and not with a third half sent. -/
theorem test_hostReset_at_a_boundary :
    (hostReset Params.default { State.reset with cmd := [0x10, 0xFF] }).isSome = true ∧
    hostReset Params.default { State.reset with cmd := [0x10, 0xFF, 0x11, 0, 0] } = none := by decide +kernel
/-- Vector T1 as a run (R268): it ends with both responses. -/
theorem test_run_of_two_commands :
    (runProgram Params.default [.known (.ctLoad 0x62 [true, true, false]), .known (.encSym 0x62)]).map
      (fun t => ((outcomeOf t).responses, (outcomeOf t).registers.wrCache)) = some ([[0x00], [0x00]], 0x03) := by
  decide +kernel

/-! ### Bit reader -/

/-- Vector R1's first command. -/
theorem test_rdBit_fetches :
    seen (withIn [0xB5] .endOfSource) [0x10] (fun t => (t.resp, t.rdCache, t.rdRem, t.inPos)) =
      some ([[0x00, 0x01]], 0x5A, 7, 1) := by decide +kernel
/-- Vector R2. -/
theorem test_rdBit_error :
    seen (withIn [] .error) [0x10] (fun t => (t.resp, t.fault, t.inPos, t.rdRem)) = some ([[0x01]], 1, 0, 0) := by
  decide +kernel
/-- Vector R3's second command. -/
theorem test_rdBytes_reassembles :
    seen { withIn [0xB5, 0x3D] .endOfSource with inPos := 1, rdCache := 0x5A, rdRem := 7 } [0x11, 0, 0, 0, 1]
      (fun t => (t.resp, t.rdCache, t.rdRem)) = some ([[0x00, 0xDA]], 0x1E, 7) := by decide +kernel
/-- Vector R6's second command: a short input. -/
theorem test_rdBytes_short :
    seen { withIn [0xAA] .endOfSource with inPos := 1, rdCache := 0x55, rdRem := 7 } [0x11, 0, 0, 0, 2]
      (fun t => (t.resp, t.fault, t.rdCache, t.rdRem)) = some ([[0x02]], 2, 0x55, 7) := by decide +kernel
/-- Vector R3's third command. -/
theorem test_rdAlign_discards :
    seen { withIn [0xB5, 0x3D] .endOfSource with inPos := 2, rdCache := 0x1E, rdRem := 7 } [0x12]
      (fun t => (t.resp, t.rdCache, t.rdRem, t.inPos)) = some ([[0x00, 0x07]], 0, 0, 2) := by decide +kernel

/-! ### Bit writer -/

/-- Vector W2's last command. -/
theorem test_wrBit_fills_the_byte :
    seen { State.reset with wrCache := 0x35, wrCnt := 7 } [0x20, 0x01]
      (fun t => (t.outBytes, t.outEvents, t.wrCache, t.wrCnt)) = some ([0xB5], [.emit 0xB5], 0, 0) := by decide +kernel
/-- Vectors W4 and X4: an illegal operand, found before the closed writer, with its byte consumed. -/
theorem test_wrBit_illegal :
    seen { State.reset with wrClosed := true } [0x20, 0x02, 0x01] (fun t => (t.resp, t.cmd)) = some ([[0x07]], [0x01]) := by
  decide +kernel
/-- Vector W3's second command. -/
theorem test_wrBytes_splits :
    seen { State.reset with wrCache := 0x01, wrCnt := 1 } [0x21, 0, 0, 0, 1, 0xDA]
      (fun t => (t.resp, t.outBytes, t.wrCache, t.wrCnt)) = some ([[0x00]], [0xB5], 0x01, 1) := by decide +kernel
/-- Vector W9's second command. -/
theorem test_wrBytes_closed :
    seen { State.reset with wrClosed := true } [0x21, 0, 0, 0, 0] (·.resp) = some [[0x05]] := by decide +kernel
/-- Vector W1's last command. -/
theorem test_wrAlign_pads :
    seen { State.reset with wrCache := 0x0D, wrCnt := 4 } [0x22] (fun t => (t.resp, t.outBytes, t.outEvents, t.wrCnt)) =
      some ([[0x00, 0x04]], [0x0D], [.emit 0x0D, .flush], 0) := by decide +kernel
/-- Vector W11. -/
theorem test_wrAlign_flush_fails :
    seen firstFails [0x22] (fun t => (t.resp, t.fault, t.outEvents)) = some ([[0x01]], 1, [.flush]) := by decide +kernel
/-- Vector W3's third command. -/
theorem test_wrClose_closes :
    seen { State.reset with wrCache := 0x01, wrCnt := 1 } [0x23] (fun t => (t.resp, t.outBytes, t.wrClosed)) =
      some ([[0x00, 0x07]], [0x01], true) := by decide +kernel
/-- Vector W7's second command. -/
theorem test_wrClose_twice :
    seen { State.reset with wrClosed := true } [0x23] (fun t => (t.resp, t.outEvents)) = some ([[0x05]], []) := by
  decide +kernel

/-! ### Tables -/

/-- Vector T2's second command. -/
theorem test_ctClear_makes_absent :
    seen (withAbaaTable State.reset) [0x30] (fun t => (t.resp, t.codeLen 0x61, t.codeLen 0x62)) = some ([[0x00]], 0, 0) := by
  decide +kernel
/-- Vector T1's first command. -/
theorem test_ctLoad_stores :
    seen State.reset [0x31, 0x62, 0x03, 0x03] (fun t => (t.codeLen 0x62, t.codeOf 0x62, t.codeLen 0x61)) =
      some (3, [true, true, false], 0) := by decide +kernel
/-- Vector T3's second command. -/
theorem test_ctLoad_length_0 :
    seen (withAbaaTable State.reset) [0x31, 0x61, 0x00] (fun t => (t.codeLen 0x61, t.codeLen 0x62)) = some (0, 1) := by
  decide +kernel
/-- Vector T13's second command. -/
theorem test_trClear : seen (withAbaaTrie State.reset) [0x40] (·.nodes) = some [Node.fresh] := by decide +kernel
/-- Vector T10's first command. -/
theorem test_trInsertStream_reads_its_bits :
    seen (withIn [0x96] .endOfSource) [0x41, 0x61, 0x01] (fun t => (t.nodes, t.rdRem)) =
      some ([{ z := some 1, o := none, leaf := false, sym := 0 }, { z := none, o := none, leaf := true, sym := 0x61 }], 7) := by
  decide +kernel
/-- Vector T12. -/
theorem test_trInsertStream_end_of_input :
    seen State.reset [0x41, 0x61, 0x02] (fun t => (t.resp, t.nodeCount)) = some ([[0x02]], 1) := by decide +kernel
/-- Vector T4's second command. -/
theorem test_trInsertCode_builds_abaa :
    seen (State.reset.setNodes
        [{ z := some 1, o := none, leaf := false, sym := 0 }, { z := none, o := none, leaf := true, sym := 0x62 }])
      [0x42, 0x61, 0x01, 0x01] (·.nodes) = some abaaNodes := by decide +kernel
/-- Vector T8: NODE_CAP = 2. -/
theorem test_trInsertCode_overflows :
    seen (State.resetWith { Params.default with nodeCap := 2 }) [0x42, 0x62, 0x02, 0x00] (fun t => (t.resp, t.nodeCount)) =
      some ([[0x06]], 2) := by decide +kernel

/-! ### Codec -/

/-- Vector T1's second command. -/
theorem test_encSym_writes :
    seen (State.reset.setCode 0x62 3 [true, true, false]) [0x50, 0x62] (fun t => (t.resp, t.wrCache, t.wrCnt, t.encCount)) =
      some ([[0x00]], 0x03, 3, 0) := by decide +kernel
/-- Vector C6's second command: the closed writer comes before the missing symbol. -/
theorem test_encSym_priority :
    seen { State.reset with wrClosed := true } [0x50, 0x63] (·.resp) = some [[0x05]] := by decide +kernel
/-- Vector C1's last command. -/
theorem test_compress_abaa :
    seen (withAbaaTable (withIn [0x61, 0x62, 0x61, 0x61] .endOfSource)) [0x51]
      (fun t => (t.resp, t.outBytes, t.outEvents, t.wrClosed, t.inPos)) =
      some ([[0x00, 0, 0, 0, 0, 0, 0, 0, 4, 4]], [0x0D], [.emit 0x0D, .flush], true, 4) := by decide +kernel
/-- Vector C4's last command. -/
theorem test_compress_error :
    seen (withAbaaTable (withIn [0x61, 0x62] .error)) [0x51] (fun t => (t.resp, t.encCount, t.wrClosed)) =
      some ([[0x01]], 2, false) := by decide +kernel
/-- Vector C8's first DEC_SYM. -/
theorem test_decSym_follows :
    seen (withAbaaTrie (withIn [0x0D] .endOfSource)) [0x60] (fun t => (t.resp, t.rdRem, t.outEvents)) =
      some ([[0x00, 0x61]], 7, []) := by decide +kernel
/-- Vector C15. -/
theorem test_decSym_empty_trie :
    seen (withIn [0x00] .endOfSource) [0x60] (fun t => (t.resp, t.rdRem)) = some ([[0x03]], 7) := by decide +kernel
/-- Vector C9's DECOMPRESS. -/
theorem test_decompress_abaa :
    seen (withAbaaTrie (withIn [0x0D] .endOfSource)) [0x61, 0, 0, 0, 0, 0, 0, 0, 4]
      (fun t => (t.resp, t.outBytes, t.decCount, t.rdRem)) =
      some ([[0x00, 0, 0, 0, 0, 0, 0, 0, 4]], [0x61, 0x62, 0x61, 0x61], 4, 4) := by decide +kernel
/-- Vector C11's DECOMPRESS. -/
theorem test_decompress_truncated :
    seen (withAbaaTrie (withIn [0x0D] .endOfSource)) [0x61, 0, 0, 0, 0, 0, 0, 0, 9]
      (fun t => (t.resp, t.outBytes, t.decCount)) =
      some ([[0x02]], [0x61, 0x62, 0x61, 0x61, 0x62, 0x62, 0x62, 0x62], 8) := by decide +kernel

/-! ### Assembler -/

/-- The example of R83, with a comment. -/
theorem test_assemble_ctLoad : assembleBytes "CT_LOAD 0x62, '110' ; b".toList = some [0x31, 0x62, 0x03, 0x03] := by
  decide +kernel
/-- R84: WR_U16 and RD_U64, and an empty code. -/
theorem test_assemble_pseudo :
    assembleBytes "WR_U16 258\nRD_U64\nTR_INSERT_CODE 97, ''".toList =
      some [0x21, 0, 0, 0, 2, 0x01, 0x02, 0x11, 0, 0, 0, 8, 0x42, 0x61, 0x00] := by decide +kernel
/-- A mnemonic that R76 and R84 do not list. -/
theorem test_assemble_unknown : assembleBytes "NOP".toList = none := by decide +kernel

end Sys2Proof.Tests
end

