-- ==== Sys2Proof/Tests/Witnesses.lean ====
section
/-! SUPPORT. For each statement of Certificates/Slice0/Obligations.lean that has hypotheses, states and operands that meet
them all together, each clause at a boundary of its range.  O<n> is the statement's id in OBLIGATIONS.json. -/

namespace Sys2Proof.Tests

set_option Elab.async false

open Sys2Proof Sys2Proof.Machine

/-! ### Invariants of concrete states -/

theorem witness_fresh_trie : TrieShape [Node.fresh] := by unfold TrieShape; decide
theorem witness_abaa_trie : TrieShape abaaNodes := by unfold TrieShape; decide

/-- Reset with "abaa" loaded on both sides and the writer closed. -/
def busy : State :=
  { withAbaaTrie (withAbaaTable (withIn [0x0D, 0x61] .endOfSource)) with
    inPos := 1, rdCache := 0x06, rdRem := 7, wrCache := 0x01, wrCnt := 7, cmd := [0x60, 0x22], wrClosed := true }

/-- The same with IO_ERROR pending after its one response. -/
def faulted : State := { busy with fault := 0x01, resp := [[0x01]], cmdSeq := 1, cmd := [0x10] }

/-- O21, O22: the reset state at each end of NODE_CAP. -/
theorem witness_inv_least_cap : (State.resetWith { Params.default with nodeCap := 1 }).Inv :=
  ⟨by simp only [State.ReaderInv]; decide, by simp only [State.WriterInv]; decide,
    by simp only [State.CodeInv]; decide +kernel, fun _ => witness_fresh_trie, by simp only [State.CountInv]; decide,
    by simp only [State.PortInv]; decide, by simp only [State.ResponseInv, State.responsesOk]; decide⟩
theorem witness_inv_greatest_cap : (State.resetWith { Params.default with nodeCap := 65535 }).Inv :=
  ⟨by simp only [State.ReaderInv]; decide, by simp only [State.WriterInv]; decide,
    by simp only [State.CodeInv]; decide +kernel, fun _ => witness_fresh_trie, by simp only [State.CountInv]; decide,
    by simp only [State.PortInv]; decide, by simp only [State.ResponseInv, State.responsesOk]; decide⟩
/-- O17, O55: reset with a sink that fails. -/
theorem witness_inv_first_fails : firstFails.Inv :=
  ⟨by simp only [State.ReaderInv]; decide, by simp only [State.WriterInv]; decide,
    by simp only [State.CodeInv]; decide +kernel, fun _ => witness_fresh_trie, by simp only [State.CountInv]; decide,
    by simp only [State.PortInv]; decide, by simp only [State.ResponseInv, State.responsesOk]; decide⟩
/-- O22 to O26, O33, O35: two states that reset alone does not give. -/
theorem witness_inv_busy : busy.Inv :=
  ⟨by simp only [State.ReaderInv]; decide, by simp only [State.WriterInv]; decide,
    by simp only [State.CodeInv]; decide +kernel, fun _ => witness_abaa_trie, by simp only [State.CountInv]; decide,
    by simp only [State.PortInv]; decide, by simp only [State.ResponseInv, State.responsesOk]; decide⟩
theorem witness_inv_faulted : faulted.Inv :=
  ⟨by simp only [State.ReaderInv]; decide, by simp only [State.WriterInv]; decide,
    by simp only [State.CodeInv]; decide +kernel, fun _ => witness_abaa_trie, by simp only [State.CountInv]; decide,
    by simp only [State.PortInv]; decide, by simp only [State.ResponseInv, State.responsesOk]; decide⟩

/-! ### Encoding and fetch -/

/-- O1, O8, O9: well-formed commands with the longest code and with no data. -/
theorem witness_wf : (Instr.ctLoad 0x62 (List.replicate 255 true)).wf = true ∧ (Instr.wrBytes []).wf = true := by
  decide +kernel
/-- O2, O8: bytes that decode, with bytes after them. -/
theorem witness_decodes : decode [0x20, 0x01, 0x10] = .command (.wrBit 1) [0x10] ∧
    ({ State.reset with cmd := [0x20, 0x01, 0x10] } : State).cmd = encode (.wrBit 1) ++ [0x10] := by decide
/-- O3: each clause's opcodes, both ends of the reserved bytes, and a list of five bytes. -/
theorem witness_lengths : reservedByte 0x00 = true ∧ reservedByte 0xFF = true ∧ reservedByte 0x0F = true ∧
    commandLength [0x31, 0x62, 0xFF] = some 35 ∧ commandLength [0x42, 0x62, 0x00] = some 3 ∧
    commandLength [0x21, 0xFF, 0xFF, 0xFF, 0xFF] = some 4294967300 ∧ 5 ≤ [0x21, 0, 0, 0, (0 : Byte)].length := by
  decide +kernel
/-- O4, O8, O11: a reserved opcode in the channel, without and with a sticky fault. -/
theorem witness_reserved : decode [0xFF, 0x01] = .reserved 0xFF [0x01] ∧
    ({ State.reset with cmd := [0xFF, 0x01] } : State).fault = 0x00 ∧ ({ busy with fault := 7, cmd := [0xFF] } : State).fault ≠ 0x00 := by
  decide
/-- O5, O6, O14: code bytes of the greatest length, of length 0, and two lists that differ in padding only. -/
theorem witness_code_bytes : (List.replicate 32 (0xAA : Byte)).length = ((0xFF : Byte).toNat + 7) / 8 ∧
    ([] : List Byte).length = ((0x00 : Byte).toNat + 7) / 8 ∧ [(0x05 : Byte)].length = ((0x03 : Byte).toNat + 7) / 8 ∧
    [(0xFD : Byte)].length = ((0x03 : Byte).toNat + 7) / 8 ∧
    ∀ i < (0x03 : Byte).toNat, ([0x05].getD (i / 8) 0x00#8).getLsbD (i % 8) = ([0xFD].getD (i / 8) 0x00#8).getLsbD (i % 8) := by
  decide
/-- O6: data of the length that the operand says, none and one byte. -/
theorem witness_data_length : ([] : List Byte).length = (0 : Byte).toNat * 2 ^ 24 + (0 : Byte).toNat * 2 ^ 16 +
      (0 : Byte).toNat * 2 ^ 8 + (0 : Byte).toNat ∧
    [(0xDA : Byte)].length = (0 : Byte).toNat * 2 ^ 24 + (0 : Byte).toNat * 2 ^ 16 + (0 : Byte).toNat * 2 ^ 8 + (1 : Byte).toNat := by
  decide
/-- O9, O10: a channel one byte short, and one with exactly a command. -/
theorem witness_ready : ¬ ({ State.reset with cmd := [0x11, 0, 0, 0] } : State).commandReady ∧
    ({ State.reset with cmd := [0x11, 0, 0, 0, 1] } : State).commandReady ∧ ¬ State.reset.commandReady ∧
    ({ State.reset with cmd := [0x11, 0, 0, 0] } : State).cmd ++ [1] = encode (.rdBytes 1) ++ [] := by
  refine ⟨?_, ⟨5, by decide, by decide⟩, ?_, by decide⟩
  · rintro ⟨n, h, hn⟩
    rw [show commandLength _ = some 5 from rfl] at h
    cases h
    exact absurd hn (by decide)
  · rintro ⟨n, h, hn⟩
    simp [commandLength, State.reset, State.resetWith] at h
/-- O10, O11: the greatest FAULT, with a command ready. -/
theorem witness_sticky : (State.reset.setFault 7).fault.toNat ≤ 7 ∧ (State.reset.setFault 7).fault ≠ 0x00 ∧
    ({ State.reset with fault := 7, cmd := [0x20, 0x01, 0x10] } : State).cmd = encode (.wrBit 1) ++ [0x10] := by decide

/-- O10: a program the host can send, a reserved opcode and an illegal operand in it. -/
theorem witness_sendable : ∀ c ∈ [HostCommand.reserved 0xFF, .known (.wrBit 2), .known .getStatus], sendable c = true := by
  decide
/-- O12: a run that ends and succeeds, the empty one, and a run that ends with a fault. -/
theorem witness_run : RunSucceeds Params.default [] State.reset ∧
    ∃ t, RunEnds Params.default [.reserved 0xFF] t ∧ t.fault = 0x07 :=
  ⟨⟨⟨⟨[], .start, List.prefix_refl _⟩, rfl⟩, fun _ h => absurd h List.not_mem_nil⟩,
    _, ⟨⟨[0xFF], .step (.send [0xFF] .start) rfl, List.prefix_refl _⟩, rfl⟩, rfl⟩
/-- Reset with two whole commands unread and more bytes after them. -/
def queued (half : List Byte) : State := State.reset.setCmd ([0x10, 0xFF] ++ half)

/-- O12, O16, O20: whole commands in the channel, where the host can reset, and the same with a command half sent after
them, where it cannot. -/
theorem witness_reset :
    (∀ c ∈ [HostCommand.known .rdBit, .reserved 0xFF], sendable c = true) ∧
    (∀ half, (queued half).cmd = [HostCommand.known .rdBit, .reserved 0xFF].flatMap hostBytes ++ half) ∧
    (∀ n, commandLength [] = some n → ([] : List Byte).length < n) ∧
    (∀ n, commandLength [0x11, 0] = some n → [(0x11 : Byte), 0].length < n) ∧
    (queued []).atBoundary = true ∧ (queued [0x11, 0]).atBoundary = false ∧
    ∃ t, hostReset Params.default (queued []) = some t := by
  refine ⟨by decide, fun _ => rfl, nofun, fun n h => ?_, by decide +kernel, by decide +kernel, _,
    hostReset_boundary _ (by decide +kernel)⟩
  rw [show commandLength [0x11, 0] = some 5 from rfl] at h
  cases h
  decide

/-! ### Steps that answer a next state -/

/-- O12, O22 to O28: from states with and without a fault a step answers a next state. -/
theorem witness_step : (∃ t, step busy = .next t) ∧ (∃ t, step faulted = .next t) ∧ busy.CountInv ∧ busy.TrieInv := by
  refine ⟨?_, ?_, witness_inv_busy.2.2.2.2.1, witness_inv_busy.2.2.2.1⟩
  · exact exec_next .decSym (busy.setCmd [0x22])
  · exact exec_next .rdBit (faulted.setCmd [])
/-- O13 to O17, O29, O41, O55, O57 to O60: every command answers a next state from every state. -/
theorem witness_exec (i : Instr) : (∃ t, exec i State.reset = .next t) ∧ ∃ t, exec i faulted = .next t :=
  ⟨exec_next i _, exec_next i _⟩
/-- O14, O15, O36: the least and the greatest illegal operand. -/
theorem witness_illegal : 1 < (2 : Byte).toNat ∧ 1 < (0xFF : Byte).toNat ∧ (1 : Byte).toNat ≤ 1 ∧ State.reset.fault = 0x00 ∧
    ({ State.reset with cmd := [0x20, 0x02, 0x01] } : State).cmd = 0x20 :: 2 :: [0x01] ∧
    ((match exec (.wrBit 2) State.reset with | .next t => t.fault | .fault _ => 0 | .refused _ => 0) = 0x07) := by
  decide +kernel
/-- O15, O16, O36 to O40: a closed writer, and an open one with a symbol that has no code. -/
theorem witness_closed : busy.fault = 0x00 ∧ busy.wrClosed = true ∧ usesWriter .compress = true ∧
    State.reset.wrClosed = false ∧ State.reset.codeLen 0x61 = 0x00 := by decide +kernel
/-- O17: a flush that the sink answers Fail, the first event of the epoch. -/
theorem witness_sink_failure : firstFails.Inv ∧ firstFails.fault = 0x00 ∧ firstFails.sinkOk 0 = .fail ∧
    ∃ t, exec .wrAlign firstFails = .next t ∧ firstFails.outEvents.length ≤ 0 ∧ 0 < t.outEvents.length :=
  ⟨witness_inv_first_fails, rfl, rfl, _, rfl, by decide, by decide⟩

/-! ### Ports, reset, trie -/

/-- O18: the last byte of IN, IN exhausted, a sink that answers Ok and one that answers Fail. -/
theorem witness_ports : (withIn [0x0D] .error).inPos < (withIn [0x0D] .error).par.inBytes.length ∧
    State.reset.par.inBytes.length ≤ State.reset.inPos ∧ State.reset.sinkOk State.reset.outEvents.length = .ok ∧
    firstFails.sinkOk firstFails.outEvents.length = .fail := by decide
/-- O21: both ends of NODE_CAP. -/
theorem witness_node_cap : 1 ≤ 1 ∧ 1 < 2 ^ 16 ∧ 1 ≤ 65535 ∧ 65535 < 2 ^ 16 := by decide
/-- O26: a present symbol. -/
theorem witness_present : busy.CodeInv ∧ busy.codeLen 0x61 ≠ 0x00 := ⟨witness_inv_busy.2.2.1, by decide +kernel⟩
/-- O27: a trie with two leaves, its nodes and the codes that name them. -/
theorem witness_leaves : TrieShape busy.nodes ∧ busy.leafAt [true] = some 0x61 ∧ busy.leafAt [false] = some 0x62 ∧
    busy.follow 0 [true] = some 2 ∧ 2 < busy.nodeCount ∧ (busy.node 2).leaf = true ∧ [true] <+: [true] := by
  refine ⟨witness_abaa_trie, ?_⟩; decide +kernel
/-- O29: the root alone with NODE_CAP = 1. -/
theorem witness_bound : TrieShape (State.resetWith { Params.default with nodeCap := 1 }).nodes ∧
    (State.resetWith { Params.default with nodeCap := 1 }).nodeCount ≤ 1 := ⟨witness_fresh_trie, by decide⟩

/-! ### Bit reader and bit writer -/

/-- O31, O32: one cached bit, none with a last byte, none at an end of either kind, and a next bit. -/
theorem witness_rdBit : ({ State.reset with rdRem := 1 } : State).rdRem.val ≠ 0 ∧ (withIn [0x0D] .error).rdRem.val = 0 ∧
    (withIn [0x0D] .error).inPos < (withIn [0x0D] .error).par.inBytes.length ∧ State.reset.rdRem.val = 0 ∧
    State.reset.par.inBytes.length ≤ State.reset.inPos ∧ (withIn [] .error).par.inBytes.length ≤ (withIn [] .error).inPos ∧
    (withIn [0x01] .error).unreadBits = true :: List.replicate 7 false := by decide
/-- O33, O34: exactly the bytes IN holds, and one more, with cached bits. -/
theorem witness_rdBytes : busy.fault = 0x00 ∧ busy.ReaderInv ∧ busy.inPos ≤ busy.par.inBytes.length ∧
    busy.inPos + (1 : U32).toNat ≤ busy.par.inBytes.length ∧ busy.par.inBytes.length < busy.inPos + (2 : U32).toNat ∧
    busy.inPos < busy.par.inBytes.length ∧ State.reset.par.inBytes.length ≤ State.reset.inPos := by
  refine ⟨rfl, witness_inv_busy.1, ?_⟩; decide +kernel
/-- O35: no cached bit and seven. -/
theorem witness_rdAlign : State.reset.ReaderInv ∧ State.reset.rdRem.val = 0 ∧ busy.ReaderInv ∧ busy.rdRem.val = 7 :=
  ⟨by simp only [State.ReaderInv]; decide, rfl, witness_inv_busy.1, rfl⟩

/-- Six and seven cached bits, the sink as given. -/
def cached (n : Fin 8) (answers : List SinkAnswer) : State :=
  { State.resetWith { Params.default with sinkAnswers := answers } with wrCache := 0x01, wrCnt := n }

/-- O32, O36: the clauses of WR_BIT. -/
theorem witness_wrBit : State.reset.WriterInv ∧ State.reset.SinkOkFor 1 ∧ (cached 6 []).wrCnt.val < 7 ∧
    (cached 7 []).wrCnt.val = 7 ∧ (cached 7 []).sinkOk (cached 7 []).outEvents.length = .ok ∧
    (cached 7 [.fail]).sinkOk (cached 7 [.fail]).outEvents.length = .fail ∧ (cached 7 [.fail]).wrClosed = false ∧
    (cached 7 [.fail]).fault = 0x00 := by
  simp only [State.WriterInv, State.SinkOkFor]; decide +kernel
/-- O37: data that is all written, and data whose second emit fails. -/
theorem witness_wrBytes : (cached 7 []).WriterInv ∧ (cached 7 []).SinkOkFor [(0x12 : Byte), 0x34].length ∧
    (cached 1 [.ok, .fail]).WriterInv ∧ (cached 1 [.ok, .fail]).SinkOkFor 1 ∧ 1 < [(0x12 : Byte), 0x34].length ∧
    (cached 1 [.ok, .fail]).sinkOk ((cached 1 [.ok, .fail]).outEvents.length + 1) = .fail := by
  simp only [State.WriterInv, State.SinkOkFor]; decide +kernel
/-- O38: an aligned and an unaligned writer; bits written, aligned and read back. -/
theorem witness_writeByte : State.reset.WriterInv ∧ State.reset.wrCnt.val = 0 ∧ (cached 1 []).WriterInv ∧
    (cached 1 []).wrCnt.val ≠ 0 ∧
    ∃ t u, writeBits [true, false, true, true] State.reset = .ok () t ∧ alignW t = .ok 4 u ∧ u.outBytes = [0x0D] ∧
      (withIn [0x0D] .error).rdRem.val = 0 ∧ (withIn [0x0D] .error).par.inBytes.drop (withIn [0x0D] .error).inPos = [0x0D] :=
  ⟨by simp only [State.WriterInv]; decide, rfl, by simp only [State.WriterInv]; decide, by decide, _, _, rfl, rfl, by decide, rfl,
    rfl⟩
/-- O39, O40: the clauses of WR_ALIGN and WR_CLOSE. -/
theorem witness_wrAlign : (cached 0 []).wrClosed = false ∧ (cached 0 []).wrCnt.val = 0 ∧ (cached 0 []).sinkOk 0 = .ok ∧
    (cached 0 [.fail]).sinkOk 0 = .fail ∧ (cached 7 []).wrCnt.val ≠ 0 ∧ (cached 7 []).sinkOk 0 = .ok ∧
    (cached 7 []).sinkOk 1 = .ok ∧ (cached 7 [.ok, .fail]).sinkOk 0 = .ok ∧ (cached 7 [.ok, .fail]).sinkOk 1 = .fail ∧
    (cached 7 [.fail]).sinkOk 0 = .fail ∧ (cached 7 []).outEvents.length = 0 ∧ (cached 7 []).WriterInv := by
  simp only [State.WriterInv]; decide

/-! ### Tables -/

/-- O41: a bit to read after TR_CLEAR. -/
theorem witness_cleared : (∃ t, exec .trClear (withIn [0x00] .error) = .next t) ∧
    (withIn [0x00] .error).unreadBits = false :: List.replicate 7 false := ⟨exec_next _ _, by decide⟩
/-- O42: the longest code and none. -/
theorem witness_ctLoad : (List.replicate 255 true).length ≤ 255 ∧ ([] : List Bool).length ≤ 255 := by
  decide +kernel

/-- Reset with room for three nodes, and a source that starts with the bits 0, 0. -/
def small : State := State.resetWith { Params.default with nodeCap := 3, inBytes := [0xFC] }

/-- O43, O44: vector T9, a code that exactly fills the store, as an operand and from the stream. -/
theorem witness_insert : small.fault = 0x00 ∧ TrieShape small.nodes ∧ [false, false] ≠ [] ∧ small.codeFree [false, false] ∧
    small.nodeCount + small.newNodes [false, false] ≤ small.par.nodeCap ∧ [false, false].length = (2 : Byte).toNat ∧
    small.unreadBits = [false, false] ++ List.replicate 6 true := by
  refine ⟨rfl, witness_fresh_trie, ?_⟩
  simp only [State.codeFree]; decide +kernel
/-- O44: a stream that is empty (vector T12), and one that ends one bit before the code does. -/
theorem witness_insert_short : TrieShape State.reset.nodes ∧ State.reset.unreadBits.length < (2 : Byte).toNat ∧
    (withIn [0x0D] .error).unreadBits.length < (9 : Byte).toNat ∧
    (∀ n < (withIn [0x0D] .error).unreadBits.length,
      (withIn [0x0D] .error).leafAt ((withIn [0x0D] .error).unreadBits.take n) = none) ∧
    (withIn [0x0D] .error).nodeCount + (withIn [0x0D] .error).newNodes (withIn [0x0D] .error).unreadBits ≤
      (withIn [0x0D] .error).par.nodeCap := by
  refine ⟨witness_fresh_trie, ?_⟩; decide +kernel
/-- O46: vectors T5 to T7, a code through a leaf, one equal to a leaf's, one that ends inside, and one from the stream. -/
theorem witness_overlap : busy.fault = 0x00 ∧ TrieShape busy.nodes ∧
    (∃ n < [false, true].length, (busy.leafAt ([false, true].take n)).isSome) ∧ (busy.follow 0 [false]).isSome ∧
    [false].length = (1 : Byte).toNat ∧ (∀ n < [false].length, busy.leafAt ([false].take n) = none) ∧
    (withAbaaTrie (withIn [0x00] .error)).unreadBits = [false] ++ List.replicate 7 false := by
  refine ⟨rfl, witness_abaa_trie, ⟨1, by decide, by decide +kernel⟩, ?_⟩; decide +kernel
/-- O46: a stream whose code runs through a leaf with bits of its length still to come. -/
theorem witness_overlap_early : [false, false].length < (3 : Byte).toNat ∧
    (∃ n < [false, false].length, ((withAbaaTrie (withIn [0x00] .error)).leafAt ([false, false].take n)).isSome) ∧
    (withAbaaTrie (withIn [0x00] .error)).unreadBits = [false, false] ++ List.replicate 6 false :=
  ⟨by decide, ⟨1, by decide, by decide +kernel⟩, by decide +kernel⟩
/-- O47: one node too many at the third bit, as an operand and from the stream, and none to spare at all. -/
theorem witness_overflow : small.nodeCount ≤ small.par.nodeCap ∧
    (∀ n < 3, small.leafAt ([false, false, true].take n) = none) ∧
    (∀ n < 3, small.nodeCount + small.newNodes ([false, false, true].take n) ≤ small.par.nodeCap) ∧
    small.par.nodeCap < small.nodeCount + small.newNodes ([false, false, true].take 3) ∧
    [false, false, true].length ≤ (3 : Byte).toNat ∧ [false, false, true].length ≤ (255 : Byte).toNat ∧
    small.unreadBits = [false, false, true] ++ List.replicate 5 true ∧
    (State.resetWith { Params.default with nodeCap := 1 }).par.nodeCap <
      (State.resetWith { Params.default with nodeCap := 1 }).nodeCount +
        (State.resetWith { Params.default with nodeCap := 1 }).newNodes ([true].take 1) := by
  decide +kernel

/-! ### Codec -/

/-- O48: a code that fills a byte, and a symbol with none. -/
theorem witness_encSym : (withAbaaTable (cached 7 [])).fault = 0x00 ∧ (withAbaaTable (cached 7 [])).wrClosed = false ∧
    (withAbaaTable (cached 7 [])).codeLen 0x63 = 0x00 ∧ (withAbaaTable (cached 7 [])).codeLen 0x61 ≠ 0x00 ∧
    (withAbaaTable (cached 7 [])).WriterInv ∧ (withAbaaTable (cached 7 [])).CodeInv ∧
    (withAbaaTable (cached 7 [])).SinkOkFor 1 := by
  simp only [State.WriterInv, State.CodeInv, State.SinkOkFor]; decide +kernel

/-- Vector C1's start, with either terminal and any bytes. -/
def source (bytes : List Byte) (term : Terminal) : State := withAbaaTable (withIn bytes term)

/-- O49, O56: vector C1. -/
theorem witness_compress : (source [0x61, 0x62, 0x61, 0x61] .endOfSource).ReaderInv ∧
    (source [0x61, 0x62, 0x61, 0x61] .endOfSource).WriterInv ∧
    (source [0x61, 0x62, 0x61, 0x61] .endOfSource).rdRem.val = 0 ∧
    (source [0x61, 0x62, 0x61, 0x61] .endOfSource).wrCnt.val = 0 ∧
    (source [0x61, 0x62, 0x61, 0x61] .endOfSource).unreadBytes = [0x61, 0x62, 0x61, 0x61] ∧
    (∀ x ∈ [0x61, 0x62, 0x61, (0x61 : Byte)], (source [0x61, 0x62, 0x61, 0x61] .endOfSource).codeLen x ≠ 0x00) ∧
    (source [0x61, 0x62, 0x61, 0x61] .endOfSource).SinkOkFor 2 ∧
    [0x61, 0x62, 0x61, 0x61].flatMap (source [0x61, 0x62, 0x61, 0x61] .endOfSource).codeOf = [true, false, true, true] := by
  simp only [State.ReaderInv, State.WriterInv, State.SinkOkFor]; decide +kernel
/-- O49: one cached bit; the bit left over stays cached. -/
theorem witness_compress_cached :
    ({ source [0x30] .endOfSource with rdCache := 0x01, rdRem := 1 } : State).ReaderInv ∧
    ({ source [0x30] .endOfSource with rdCache := 0x01, rdRem := 1 } : State).unreadBytes = [0x61] ∧
    ({ source [0x30] .endOfSource with rdCache := 0x01, rdRem := 1 } : State).unreadBits.drop
      (8 * ({ source [0x30] .endOfSource with rdCache := 0x01, rdRem := 1 } : State).inLeft) = [false] := by
  simp only [State.ReaderInv]; decide +kernel
/-- O50: vectors C4 and C3. -/
theorem witness_compress_faults : (source [0x61, 0x62] .error).unreadBytes = [0x61, 0x62] ∧
    (source [0x61, 0x62] .error).par.inTerm = .error ∧ (source [0x61, 0x62, 0x63, 0x61] .endOfSource).unreadBytes =
      [0x61, 0x62] ++ 0x63 :: [0x61] ∧ (source [0x61, 0x62, 0x63, 0x61] .endOfSource).codeLen 0x63 = 0x00 ∧
    (source [0x61, 0x62, 0x63, 0x61] .endOfSource).SinkOkFor 0 := by
  simp only [State.SinkOkFor]; decide +kernel

/-- Vector C8's start, with any bytes. -/
def coded (bytes : List Byte) (term : Terminal) : State := withAbaaTrie (withIn bytes term)

/-- O51, O53: vector C8. -/
theorem witness_decSym : (coded [0x0D] .endOfSource).fault = 0x00 ∧ TrieShape (coded [0x0D] .endOfSource).nodes ∧
    (coded [0x0D] .endOfSource).leafAt [true] = some 0x61 ∧
    (coded [0x0D] .endOfSource).unreadBits = [true] ++ [false, true, true, false, false, false, false] := by
  refine ⟨rfl, witness_abaa_trie, ?_⟩; decide +kernel
/-- O52: an absent branch at the root (vector C15), and an end of either kind at the root. -/
theorem witness_decSym_faults : TrieShape State.reset.nodes ∧ State.reset.follow 0 [] = some 0 ∧
    (State.reset.node 0).leaf = false ∧ (withIn [0x00] .endOfSource).unreadBits = [] ++ false :: List.replicate 7 false ∧
    ((withIn [0x00] .endOfSource).node 0).child false = none ∧ State.reset.unreadBits = [] ∧
    (withIn [] .error).unreadBits = [] := by
  refine ⟨witness_fresh_trie, ?_⟩; decide +kernel

/-- The codes of "abaa" in the order vector C9's input holds them. -/
def abaaCodes : List (List Bool × Byte) := [([true], 0x61), ([false], 0x62), ([true], 0x61), ([true], 0x61)]

/-- O54: vector C9. -/
theorem witness_decompress : (coded [0x0D] .endOfSource).wrClosed = false ∧ (coded [0x0D] .endOfSource).ReaderInv ∧
    (coded [0x0D] .endOfSource).WriterInv ∧ (4 : U64).toNat = abaaCodes.length ∧
    (∀ p ∈ abaaCodes, (coded [0x0D] .endOfSource).leafAt p.1 = some p.2) ∧
    (coded [0x0D] .endOfSource).unreadBits = abaaCodes.flatMap Prod.fst ++ List.replicate 4 false ∧
    (coded [0x0D] .endOfSource).SinkOkFor 4 := by
  simp only [State.ReaderInv, State.WriterInv, State.SinkOkFor]; decide +kernel

/-- A trie in which two codes have one symbol. -/
def twoCodes : State :=
  (withIn [0x01] .endOfSource).setNodes
    [{ z := some 1, o := some 2, leaf := false, sym := 0x00 }, { z := none, o := none, leaf := true, sym := 0x61 },
      { z := none, o := none, leaf := true, sym := 0x61 }]

/-- O54: a stream that uses both codes of one symbol. -/
theorem witness_decompress_two_codes : TrieShape twoCodes.nodes ∧
    (∀ p ∈ [([true], (0x61 : Byte)), ([false], 0x61)], twoCodes.leafAt p.1 = some p.2) ∧
    twoCodes.unreadBits = [([true], (0x61 : Byte)), ([false], 0x61)].flatMap Prod.fst ++ List.replicate 6 false := by
  unfold TrieShape; decide +kernel
/-- O55: vectors C11 and C12, one symbol short, for either terminal. -/
theorem witness_truncated :
    8 < (9 : U64).toNat ∧ (coded [0x0D] .error).par.inTerm = .error ∧ (coded [0x0D] .endOfSource).par.inTerm = .endOfSource ∧
    (coded [0x0D] .error).unreadBits =
      (abaaCodes ++ List.replicate 4 ([false], 0x62)).flatMap Prod.fst ++ ([] ++ []) ∧
    (coded [0x0D] .error).follow 0 [] = some 0 ∧ ((coded [0x0D] .error).node 0).leaf = false ∧
    (coded [0x0D] .error).SinkOkFor 8 := by
  simp only [State.SinkOkFor]; decide +kernel

/-- The trie with the one code 0 (vector T4 after its first command), and a stream that leaves it at its second bit. -/
def oneCode : State :=
  (withIn [0x02] .endOfSource).setNodes
    [{ z := some 1, o := none, leaf := false, sym := 0 }, { z := none, o := none, leaf := true, sym := 0x62 }]

/-- O55: an absent branch in mid-stream. -/
theorem witness_absent_branch : TrieShape oneCode.nodes ∧ 1 < (2 : U64).toNat ∧
    (∀ p ∈ [([false], (0x62 : Byte))], oneCode.leafAt p.1 = some p.2) ∧
    oneCode.unreadBits = [([false], (0x62 : Byte))].flatMap Prod.fst ++ ([] ++ true :: List.replicate 6 false) ∧
    oneCode.follow 0 [] = some 0 ∧ (oneCode.node 0).leaf = false ∧ (oneCode.node 0).child true = none ∧
    oneCode.SinkOkFor 1 := by
  simp only [State.SinkOkFor, TrieShape]; decide +kernel
/-- O56: vector C1's output is vector C9's input, under the same codes. -/
theorem witness_round_trip :
    seen (source [0x61, 0x62, 0x61, 0x61] .endOfSource) [0x51] (·.outBytes) = some [0x0D] ∧
    (coded [0x0D] .endOfSource).par.inBytes.drop (coded [0x0D] .endOfSource).inPos = [0x0D] ∧
    (coded [0x0D] .endOfSource).rdRem.val = 0 ∧ (coded [0x0D] .endOfSource).wrCnt.val = 0 ∧
    ∀ x ∈ [0x61, 0x62, 0x61, (0x61 : Byte)],
      (coded [0x0D] .endOfSource).leafAt ((source [0x61, 0x62, 0x61, 0x61] .endOfSource).codeOf x) = some x := by
  decide +kernel

end Sys2Proof.Tests
end

section
/-! PROOFS. The scope statements: no step re-reads input or takes back output (O28), and reset meets the invariants (O21). -/

namespace Sys2Proof.Machine

/-! ### What a decoded command leaves in the channel -/

/-- The bytes after what the decoder found are a suffix of the given ones. -/
def LeavesSuffix (bs : List Byte) : Decoded → Prop
  | .command _ rest => rest <:+ bs
  | .reserved _ rest => rest <:+ bs
  | .incomplete => True

@[simp] theorem leavesSuffix_command (bs : List Byte) (i : Instr) (rest : List Byte) :
    LeavesSuffix bs (.command i rest) ↔ rest <:+ bs := Iff.rfl

@[simp] theorem leavesSuffix_reserved (bs : List Byte) (op : Byte) (rest : List Byte) :
    LeavesSuffix bs (.reserved op rest) ↔ rest <:+ bs := Iff.rfl

@[simp] theorem decodeF1_leavesSuffix (mk : Byte → Instr) (bs : List Byte) : LeavesSuffix bs (decodeF1 mk bs) := by
  unfold decodeF1
  split
  · exact List.suffix_cons _ _
  · trivial

@[simp] theorem decodeF2_leavesSuffix (mk : Byte → Byte → Instr) (bs : List Byte) :
    LeavesSuffix bs (decodeF2 mk bs) := by
  unfold decodeF2
  split
  · next s len rest => exact List.suffix_append [s, len] rest
  · trivial

@[simp] theorem decodeF3_leavesSuffix (mk : Byte → List Bool → Instr) (bs : List Byte) :
    LeavesSuffix bs (decodeF3 mk bs) := by
  unfold decodeF3
  split
  · next s len rest =>
    split
    · trivial
    · exact (List.drop_suffix _ rest).trans (List.suffix_append [s, len] rest)
  · trivial

@[simp] theorem decodeF4_leavesSuffix (mk : U32 → Instr) (bs : List Byte) : LeavesSuffix bs (decodeF4 mk bs) := by
  unfold decodeF4
  split
  · next b1 b2 b3 b4 rest => exact List.suffix_append [b1, b2, b3, b4] rest
  · trivial

@[simp] theorem decodeF5_leavesSuffix (mk : List Byte → Instr) (bs : List Byte) :
    LeavesSuffix bs (decodeF5 mk bs) := by
  unfold decodeF5
  split
  · next b1 b2 b3 b4 rest =>
    split
    · trivial
    · exact (List.drop_suffix _ rest).trans (List.suffix_append [b1, b2, b3, b4] rest)
  · trivial

@[simp] theorem decodeF6_leavesSuffix (mk : U64 → Instr) (bs : List Byte) : LeavesSuffix bs (decodeF6 mk bs) := by
  unfold decodeF6
  split
  · next b1 b2 b3 b4 b5 b6 b7 b8 rest => exact List.suffix_append [b1, b2, b3, b4, b5, b6, b7, b8] rest
  · trivial

/-- Decoding consumes the opcode byte and leaves a suffix of what follows it (R70, R77). -/
theorem decode_leavesSuffix (op : Byte) (bs : List Byte) : LeavesSuffix bs (decode (op :: bs)) := by
  rcases decode_cases op bs with ⟨-, h⟩ | ⟨-, h⟩ | ⟨-, h⟩ | ⟨-, h⟩ | ⟨-, h⟩ | ⟨-, h⟩ | ⟨-, h⟩ | ⟨-, h⟩ | ⟨-, h⟩ |
    ⟨-, h⟩ | ⟨-, h⟩ | ⟨-, h⟩ | ⟨-, h⟩ | ⟨-, h⟩ | ⟨-, h⟩ | ⟨-, h⟩ | ⟨-, h⟩ | ⟨-, -, h⟩ <;> simp [h]

/-- Everything a step can do: some bytes, one at least, leave the front of the channel, and then a command or a reserved
opcode executes (R62, R70, R77). -/
theorem step_cases {s t : State} (h : step s = .next t) :
    ∃ rest, rest <:+ s.cmd ∧ rest.length < s.cmd.length ∧
      ((∃ i, exec i (s.setCmd rest) = .next t) ∨ execReserved (s.setCmd rest) = .next t) := by
  unfold step fetch at h
  cases hc : s.cmd with
  | nil => rw [hc] at h; cases h
  | cons op bs =>
    have hl := decode_leavesSuffix op bs
    rw [hc] at h
    cases hd : decode (op :: bs) with
    | command i rest =>
      rw [hd] at h hl
      exact ⟨rest, hl.trans (List.suffix_cons op bs), Nat.lt_succ_of_le hl.length_le, .inl ⟨i, h⟩⟩
    | reserved b rest =>
      rw [hd] at h hl
      exact ⟨rest, hl.trans (List.suffix_cons op bs), Nat.lt_succ_of_le hl.length_le, .inr h⟩
    | incomplete => rw [hd] at h; cases h

/-! ### What executing a command leaves of the ports and channels -/

/-- The parameters and the command channel stay, the ports only advance and responses are only appended. -/
structure Advances (s t : State) : Prop where
  par : t.par = s.par
  cmd : t.cmd = s.cmd
  ports : PortsGrow s t
  resp : s.resp <+: t.resp

theorem Advances.refl (s : State) : Advances s s := ⟨rfl, rfl, PortsGrow.refl s, List.prefix_rfl⟩

theorem Advances.answer {s u : State} (h : Advances s u) (r : List Byte) : Advances s (u.answer r) :=
  ⟨h.par, h.cmd, h.ports, h.resp.trans (List.prefix_append _ _)⟩

theorem Advances.setFault {s u : State} (h : Advances s u) (v : Byte) : Advances s (u.setFault v) :=
  ⟨h.par, h.cmd, h.ports, h.resp⟩

theorem Advances.takeFault {s u : State} (h : Advances s u) (f : FaultKind) : Advances s (takeFault f u) := by
  unfold Machine.takeFault
  exact (h.setFault _).answer _

theorem Touches.advances {i : Instr} {s u : State} (h : Touches i s u) : Advances s u := by
  obtain ⟨hpar, -, -, -, hcmd, hresp, hports⟩ := h.core
  exact ⟨hpar, hcmd, hports, hresp ▸ List.prefix_rfl⟩

theorem closing_ports (i : Instr) (u : State) :
    (closing i u).inPos = u.inPos ∧ (closing i u).outBytes = u.outBytes ∧ (closing i u).outEvents = u.outEvents := by
  cases i <;> exact ⟨rfl, rfl, rfl⟩

theorem Advances.closing {s u : State} (h : Advances s u) (i : Instr) : Advances s (closing i u) := by
  obtain ⟨hpar, -, -, hcmd, hresp⟩ := closing_frame i u
  obtain ⟨hpos, hbytes, hevents⟩ := closing_ports i u
  refine ⟨hpar.trans h.par, hcmd.trans h.cmd, ?_, hresp ▸ h.resp⟩
  simpa only [PortsGrow, hpos, hbytes, hevents] using h.ports

/-- Every command advances: within its frame while FAULT is 0, by its one response while a fault is pending (R253). -/
theorem exec_advances (i : Instr) {s t : State} (h : exec i s = .next t) : Advances s t := by
  by_cases h0 : s.fault = 0x00#8
  · obtain ⟨u, hu, ⟨p, rfl⟩ | ⟨f, -, rfl⟩⟩ := exec_touches i h0 h
    · exact (hu.advances.closing i).answer _
    · exact hu.advances.takeFault f
  · rcases exec_command i with rfl | ⟨body, hbody⟩
    · cases h
      exact (Advances.refl s).answer _
    · rw [hbody, command_sticky h0] at h
      cases h
      exact (Advances.refl s).answer _

theorem execReserved_advances {s t : State} (h : execReserved s = .next t) : Advances s t := by
  by_cases h0 : s.fault = 0x00#8
  · rw [execReserved, command_raise h0 rfl] at h
    cases h
    exact (Advances.refl s).takeFault _
  · rw [execReserved, command_sticky h0] at h
    cases h
    exact (Advances.refl s).answer _

/-- Settles O28: the fetch takes bytes from the front of the channel, and no command's execution goes back on a port. -/
theorem portsOnlyAdvance : Obligations.PortsOnlyAdvance := by
  intro s t h
  obtain ⟨rest, hsuffix, hlength, hexec⟩ := step_cases h
  have hadv : Advances (s.setCmd rest) t := by
    rcases hexec with ⟨i, hi⟩ | hr
    · exact exec_advances i hi
    · exact execReserved_advances hr
  obtain ⟨hpar, hcmd, ⟨hfwd, hwithin, hbytes, hevents⟩, hresp⟩ := hadv
  have hcmd : t.cmd = rest := hcmd
  exact ⟨hpar, hfwd, hwithin, hbytes, hevents, hresp, hcmd ▸ hsuffix, hcmd ▸ hlength⟩

/-! ### The reset state -/

theorem resetWith_readerInv (p : Params) : (State.resetWith p).ReaderInv :=
  ⟨Nat.zero_le 7, Nat.one_pos⟩

theorem resetWith_writerInv (p : Params) : (State.resetWith p).WriterInv := Nat.one_pos

/-- CT_LEN is 0 everywhere after reset, so no symbol is present. -/
theorem resetWith_codeInv (p : Params) : (State.resetWith p).CodeInv := by
  intro i h hpresent
  exact absurd (Vector.getElem_replicate h) hpresent

/-- The store of TR_CLEAR and reset, a root without children, meets R33. -/
theorem trieShape_fresh : TrieShape [Node.fresh] := by unfold TrieShape; decide

theorem resetWith_trieInv (p : Params) : (State.resetWith p).TrieInv := fun _ => trieShape_fresh

theorem resetWith_countInv {p : Params} (h1 : 1 ≤ p.nodeCap) (h2 : p.nodeCap < 2 ^ 16) :
    (State.resetWith p).CountInv := ⟨h2, le_refl 1, h1⟩

/-- No event has happened after reset, so none failed. -/
theorem resetWith_portInv (p : Params) : (State.resetWith p).PortInv :=
  ⟨Nat.zero_le _, fun _ => ⟨rfl, fun _ hk => absurd hk (Nat.not_lt_zero _)⟩, .inl rfl⟩

theorem resetWith_responseInv (p : Params) : (State.resetWith p).ResponseInv :=
  ⟨rfl, fun _ hr => absurd hr List.not_mem_nil, Nat.zero_le 7, fun _ => rfl, fun _ _ hr => absurd hr List.not_mem_nil⟩

/-- Settles O21, invariant by invariant; only the node count needs the bounds on NODE_CAP. -/
theorem resetMeetsTheInvariants : Obligations.ResetMeetsTheInvariants := fun p h1 h2 =>
  ⟨resetWith_readerInv p, resetWith_writerInv p, resetWith_codeInv p, resetWith_trieInv p, resetWith_countInv h1 h2,
    resetWith_portInv p, resetWith_responseInv p⟩

end Sys2Proof.Machine
end

section
/-! PROOFS. The state statements: what a step does to each invariant (O22 to O26), the first fault (O12), reset (O19). -/

namespace Sys2Proof.Machine

/-! ### The command a step executes -/

/-- A command the decoder finds has an encoding. -/
def CommandWf : Decoded → Prop
  | .command i _ => i.wf = true
  | .reserved _ _ => True
  | .incomplete => True

@[simp] theorem commandWf_command (i : Instr) (rest : List Byte) : CommandWf (.command i rest) ↔ i.wf = true := Iff.rfl

@[simp] theorem commandWf_reserved (op : Byte) (rest : List Byte) : CommandWf (.reserved op rest) := trivial

/-- The length operand of format F3 is a byte. -/
theorem decodeF3_commandWf {mk : Byte → List Bool → Instr} (hmk : ∀ sym code, codeFits code = true → (mk sym code).wf = true)
    (bs : List Byte) : CommandWf (decodeF3 mk bs) := by
  unfold decodeF3
  split
  · next s len rest =>
    split
    · trivial
    · exact hmk _ _ (decide_eq_true (by rw [unpackCode_length]; exact Nat.le_of_lt_succ len.isLt))
  · trivial

/-- The length operand of format F5 is four bytes. -/
theorem decodeF5_commandWf (bs : List Byte) : CommandWf (decodeF5 .wrBytes bs) := by
  unfold decodeF5
  split
  · next b1 b2 b3 b4 rest =>
    split
    · trivial
    · have hn : ofBigEndian [b1, b2, b3, b4] < 2 ^ 32 := by simpa using ofBigEndian_lt [b1, b2, b3, b4]
      exact decide_eq_true (lt_of_le_of_lt (List.length_take_le _ _) hn)
  · trivial

theorem decode_commandWf (op : Byte) (bs : List Byte) : CommandWf (decode (op :: bs)) := by
  have f1 (mk : Byte → Instr) (hmk : ∀ b, (mk b).wf = true) : CommandWf (decodeF1 mk bs) := by
    unfold decodeF1
    split
    · exact hmk _
    · trivial
  have f2 : CommandWf (decodeF2 .trInsertStream bs) := by unfold decodeF2; split <;> trivial
  have f4 : CommandWf (decodeF4 .rdBytes bs) := by unfold decodeF4; split <;> trivial
  have f6 : CommandWf (decodeF6 .decompress bs) := by unfold decodeF6; split <;> trivial
  rcases decode_cases op bs with ⟨-, h⟩ | ⟨-, h⟩ | ⟨-, h⟩ | ⟨-, h⟩ | ⟨-, h⟩ | ⟨-, h⟩ | ⟨-, h⟩ | ⟨-, h⟩ | ⟨-, h⟩ |
    ⟨-, h⟩ | ⟨-, h⟩ | ⟨-, h⟩ | ⟨-, h⟩ | ⟨-, h⟩ | ⟨-, h⟩ | ⟨-, h⟩ | ⟨-, h⟩ | ⟨-, -, h⟩ <;>
    simp [h, f1 .wrBit fun _ => rfl, f1 .encSym fun _ => rfl, f2, f4, f6, decodeF5_commandWf, Instr.wf,
      decodeF3_commandWf (mk := .ctLoad) fun _ _ h => h, decodeF3_commandWf (mk := .trInsertCode) fun _ _ h => h]

/-- While a fault is pending a command only answers (R200, R253). -/
theorem exec_sticky (i : Instr) {s t : State} (h0 : s.fault ≠ 0x00#8) (h : exec i s = .next t) :
    ∃ r, r ≠ [] ∧ t = s.answer r := by
  rcases exec_command i with rfl | ⟨body, hbody⟩
  · cases h
    exact ⟨_, List.cons_ne_nil _ _, rfl⟩
  · rw [hbody, command_sticky h0] at h
    cases h
    exact ⟨_, List.cons_ne_nil _ _, rfl⟩

/-- A reserved opcode's only effect (R77). -/
theorem execReserved_raises {s : State} (h0 : s.fault = 0x00#8) :
    execReserved s = .next (takeFault .illegalCommand s) :=
  command_raise h0 rfl

/-- Everything a step can do once its command's bytes are gone: it only answers while a fault is pending, and otherwise
executes a command that has an encoding, or takes the fault of a reserved opcode (R77, R253). -/
theorem step_effects {s t : State} (h : step s = .next t) : ∃ rest,
    (s.fault ≠ 0x00#8 ∧ ∃ r, r ≠ [] ∧ t = (s.setCmd rest).answer r) ∨
    (s.fault = 0x00#8 ∧ ∃ i, i.wf = true ∧ exec i (s.setCmd rest) = .next t) ∨
    (s.fault = 0x00#8 ∧ t = takeFault .illegalCommand (s.setCmd rest)) := by
  unfold step fetch at h
  cases hc : s.cmd with
  | nil => rw [hc] at h; cases h
  | cons op bs =>
    have hwf := decode_commandWf op bs
    rw [hc] at h
    cases hd : decode (op :: bs) with
    | command i rest =>
      rw [hd] at h hwf
      by_cases h0 : s.fault = 0x00#8
      · exact ⟨rest, .inr (.inl ⟨h0, i, hwf, h⟩)⟩
      · exact ⟨rest, .inl ⟨h0, exec_sticky i h0 h⟩⟩
    | reserved b rest =>
      simp only [hd] at h
      by_cases h0 : s.fault = 0x00#8
      · cases (execReserved_raises (s := s.setCmd rest) h0).symm.trans h
        exact ⟨rest, .inr (.inr ⟨h0, rfl⟩)⟩
      · cases (command_sticky (s := s.setCmd rest) h0).symm.trans h
        exact ⟨rest, .inl ⟨h0, _, List.cons_ne_nil _ _, rfl⟩⟩
    | incomplete => rw [hd] at h; cases h

/-! ### The response and the first fault -/

/-- One response is counted; the fault register and the response go together (R36, R80, R252, R253). -/
def Answers (s t : State) : Prop :=
  t.cmdSeq = s.cmdSeq + 1 ∧
  ((s.fault ≠ 0x00#8 ∧ t.fault = s.fault ∧ ∃ r, r ≠ [] ∧ t.resp = s.resp ++ [r]) ∨
   (s.fault = 0x00#8 ∧ t.fault = 0x00#8 ∧ ∃ payload, t.resp = s.resp ++ [0x00#8 :: payload]) ∨
   (s.fault = 0x00#8 ∧ ∃ f : FaultKind, t.fault = f.code ∧ t.resp = s.resp ++ [[f.code]]))

theorem takeFault_answers {f : FaultKind} {s u : State} (h0 : s.fault = 0x00#8) (hf : u.fault = s.fault)
    (hseq : u.cmdSeq = s.cmdSeq) (hresp : u.resp = s.resp) : Answers s (takeFault f u) := by
  rw [takeFault_fresh (hf.trans h0)]
  exact ⟨congrArg (· + 1) hseq, .inr (.inr ⟨h0, f, rfl, congrArg (· ++ [[f.code]]) hresp⟩)⟩

theorem exec_answers (i : Instr) {s t : State} (h0 : s.fault = 0x00#8) (h : exec i s = .next t) : Answers s t := by
  obtain ⟨u, hu, ht⟩ := exec_touches i h0 h
  obtain ⟨-, -, hf, hseq, -, hresp, -⟩ := hu.core
  rcases ht with ⟨p, rfl⟩ | ⟨f, -, rfl⟩
  · exact ⟨by simp [hseq], .inr (.inl ⟨h0, by simp [hf, h0], p, by simp [hresp]⟩)⟩
  · exact takeFault_answers h0 hf hseq hresp

theorem step_answers {s t : State} (h : step s = .next t) : Answers s t := by
  obtain ⟨rest, ⟨h0, r, hr, rfl⟩ | ⟨h0, i, -, hi⟩ | ⟨h0, rfl⟩⟩ := step_effects h
  · exact ⟨rfl, .inl ⟨h0, rfl, r, hr, rfl⟩⟩
  · exact exec_answers (s := s.setCmd rest) i h0 hi
  · exact takeFault_answers h0 rfl rfl rfl

/-- Every response status is 0x00 exactly while FAULT is 0 (R268). -/
def State.StatusesTellFault (s : State) : Prop := s.responsesOk ↔ s.fault = 0x00#8

theorem responsesOk_snoc {s t : State} {r : List Byte} (h : t.resp = s.resp ++ [r]) :
    t.responsesOk ↔ s.responsesOk ∧ r.head? = some 0x00#8 := by
  simp only [State.responsesOk, h, List.forall_mem_append, List.forall_mem_singleton]

theorem Answers.statusesTellFault {s t : State} (h : Answers s t) (hs : s.StatusesTellFault) : t.StatusesTellFault := by
  unfold State.StatusesTellFault at *
  obtain ⟨-, ⟨h0, hf, r, -, hr⟩ | ⟨h0, hf, p, hr⟩ | ⟨h0, f, hf, hr⟩⟩ := h
  · rw [responsesOk_snoc hr, hs, hf]
    exact ⟨And.left, fun h => absurd h h0⟩
  · rw [responsesOk_snoc hr, hs, hf]
    simp [h0]
  · rw [responsesOk_snoc hr, hf]
    simp [f.code_ne_zero]

/-- Settles O12: a step answers as `Answers` says, and along an epoch the statuses tell the fault. -/
theorem firstFaultIsKept : Obligations.FirstFaultIsKept := by
  refine ⟨fun _ => rfl, fun p s t h => ?_, fun s t h => ?_, fun p program t hends => ?_⟩
  · obtain ⟨-, rfl⟩ := hostReset_some h
    rfl
  · obtain ⟨-, ⟨h0, hf, -⟩ | ⟨h0, hf, p, hr⟩ | ⟨h0, f, hf, hr⟩⟩ := step_answers h
    · exact ⟨fun _ => hf, fun h => absurd h h0⟩
    · exact ⟨fun h => absurd h0 h, fun _ => .inl ⟨hf, p, hr⟩⟩
    · exact ⟨fun h => absurd h0 h, fun _ => .inr ⟨hf ▸ f.code_ne_zero, hf ▸ hr⟩⟩
  · obtain ⟨sent, hepoch, -⟩ := hends.1
    obtain ⟨-, -, -, hreset⟩ := resetWith_responseInv p
    have htell : t.StatusesTellFault :=
      epoch_invariant hreset (fun _ _ h => h) (fun _ _ hs h => (step_answers h).statusesTellFault hs) hepoch
    exact ⟨fun h => htell.1 h.2, fun h => ⟨hends, htell.2 h⟩⟩

theorem step_keeps_responseInv {s t : State} (hs : s.ResponseInv) (h : step s = .next t) : t.ResponseInv := by
  obtain ⟨hlen, hne, hle, htell⟩ := hs
  have hans := step_answers h
  have one {r : List Byte} (hr : t.resp = s.resp ++ [r]) (hr0 : r ≠ []) :
      t.resp.length = t.cmdSeq ∧ ∀ r ∈ t.resp, r ≠ [] := by
    rw [hr, hans.1, List.length_append, hlen]
    exact ⟨rfl, List.forall_mem_append.2 ⟨hne, List.forall_mem_singleton.2 hr0⟩⟩
  refine and_assoc.1 ⟨?_, ?_, hans.statusesTellFault htell⟩
  · obtain ⟨-, ⟨-, -, r, hr0, hr⟩ | ⟨-, -, p, hr⟩ | ⟨-, f, -, hr⟩⟩ := hans
    · exact one hr hr0
    · exact one hr (List.cons_ne_nil _ _)
    · exact one hr (List.cons_ne_nil _ _)
  · obtain ⟨-, ⟨-, hf, -⟩ | ⟨-, hf, -⟩ | ⟨-, f, hf, -⟩⟩ := hans
    · rw [hf]; exact hle
    · rw [hf]; exact Nat.zero_le 7
    · rw [hf]; exact f.code_le_seven

/-! ### The reader and the writer -/

theorem Res.Within.keeps {α : Type} {r : Res α} {R I : State → Prop} {Q : FaultKind → Prop}
    {J : FaultKind → State → Prop} (h : r.Within R Q) (hI : ∀ t, R t → I t) (imp : ∀ f t, I t → J f t) : r.Keeps I J :=
  Res.Post.mono h (fun _ t ht => hI t ht) fun f t ht => imp f t (hI t ht.1)

theorem ushiftRight_one_small {c : Byte} {k : Nat} (h : c.toNat < 2 ^ (k + 1)) : (c >>> 1).toNat < 2 ^ k := by
  rw [BitVec.toNat_ushiftRight, Nat.shiftRight_eq_div_pow]
  rw [Nat.pow_succ] at h
  omega

/-- ReadBit keeps R25 wherever IN stands. -/
theorem readBit_keeps_readerInv {s : State} (hs : s.ReaderInv) :
    (readBit s).Keeps State.ReaderInv fun _ => State.ReaderInv := by
  obtain ⟨h7, hc⟩ := hs
  rcases readBit_cases s with ⟨h0, he⟩ | ⟨-, hp, he⟩ | ⟨-, -, he⟩ <;> rw [he]
  · have hk : s.rdRem.val - 1 + 1 = s.rdRem.val := Nat.sub_add_cancel (Nat.pos_of_ne_zero h0)
    exact ⟨le_trans (Nat.sub_le _ 1) h7, ushiftRight_one_small (k := s.rdRem.val - 1) (hk.symm ▸ hc)⟩
  · exact ⟨le_refl 7, ushiftRight_one_small (k := 7) (s.par.inBytes[s.inPos]).isLt⟩
  · exact ⟨h7, hc⟩

theorem tryReadByte_keeps_readerInv {s : State} (hs : s.ReaderInv) : (tryReadByte s).2.ReaderInv := by
  rcases tryReadByte_cases s with ⟨_, _, he⟩ | ⟨_, _, he⟩ | ⟨_, he⟩ <;> rw [he]
  · exact hs
  · exact ⟨hs.1, shift_small _ _ (le_trans hs.1 (Nat.le_succ 7))⟩
  · exact hs

theorem readerInv_kept : Kept State.ReaderInv fun _ => State.ReaderInv where
  imp _ _ h := h
  readBit _ := readBit_keeps_readerInv
  tryReadByte _ := tryReadByte_keeps_readerInv
  writeBit b s hs := (writeBit_within b s).keeps (fun _ ht => ht.1.readerInv hs) fun _ _ h => h
  emit d s hs _ := (emit_within d s).keeps (fun _ ht => ht.1.readerInv hs) fun _ _ h => h
  alignW s hs := (alignW_within s).keeps (fun _ ht => ht.1.readerInv hs) fun _ _ h => h
  setReader _ _ := ⟨Nat.zero_le 7, Nat.one_pos⟩
  setNodes _ _ h := h
  setCode _ _ _ _ h := h
  clearCodes _ h := h
  setEncCount _ _ h := h
  setDecCount _ _ h := h
  close _ h := h
  answer _ _ h := h
  setCmd _ _ h := h

theorem step_keeps_readerInv {s t : State} (hs : s.ReaderInv) (h : step s = .next t) : t.ReaderInv := by
  rcases readerInv_kept.step hs h with ht | ⟨_, _, hu, rfl⟩
  · exact ht
  · exact hu

theorem writerInv_kept : Kept State.WriterInv fun _ => State.WriterInv where
  imp _ _ h := h
  readBit s hs := (readBit_within s).keeps (fun _ ht => ht.1.writerInv hs) fun _ _ h => h
  tryReadByte s hs := (tryReadByte_moves s).1.writerInv hs
  writeBit b _ hs := Res.Post.mono (writeBit_post b hs) (fun _ _ ht => ht.2.inv) fun _ _ ht => ht.2.2.inv
  emit d s hs _ := by
    rcases sinkStep_outEmit_cases d s with ⟨-, he⟩ | ⟨-, _, -, he⟩ <;> rw [he] <;> exact hs
  alignW _ hs := Res.Post.mono (alignW_post hs) (fun _ _ ht => ht.inv) fun _ _ ht => ht.2.inv
  setReader _ h := h
  setNodes _ _ h := h
  setCode _ _ _ _ h := h
  clearCodes _ h := h
  setEncCount _ _ h := h
  setDecCount _ _ h := h
  close _ h := h
  answer _ _ h := h
  setCmd _ _ h := h

theorem step_keeps_writerInv {s t : State} (hs : s.WriterInv) (h : step s = .next t) : t.WriterInv := by
  rcases writerInv_kept.step hs h with ht | ⟨_, _, hu, rfl⟩
  · exact ht
  · exact hu

/-- Settles O23: no elementary move of the reader breaks the bound, and the bound is what keeps the high bits 0. -/
theorem readerInvariant : Obligations.ReaderInvariant :=
  ⟨resetWith_readerInv, fun _ _ => step_keeps_readerInv, fun _ ⟨h7, hc⟩ => ⟨h7, hc, fun _ => getLsbD_of_small hc⟩⟩

/-- Settles O24: no elementary move of the writer breaks the bound. -/
theorem writerInvariant : Obligations.WriterInvariant :=
  ⟨resetWith_writerInv, fun _ _ => step_keeps_writerInv, fun _ h => h⟩

/-! ### The ports -/

/-- R53, R62 while FAULT is 0: every event was answered Ok, and OUT.bytes is the emitted bytes. -/
def State.SinkDelivered (s : State) : Prop :=
  s.outBytes = emittedBytes s.outEvents ∧ ∀ k < s.outEvents.length, s.sinkOk k = .ok

/-- OUT.bytes is the emitted bytes, or those before the last event (R53, U15). -/
def State.OutIsEmitted (s : State) : Prop :=
  s.outBytes = emittedBytes s.outEvents ∨ s.outBytes = emittedBytes s.outEvents.dropLast

@[simp] theorem emittedBytes_append_emit (es : List SinkEvent) (b : Byte) :
    emittedBytes (es ++ [.emit b]) = emittedBytes es ++ [b] := by simp [emittedBytes]

@[simp] theorem emittedBytes_append_flush (es : List SinkEvent) :
    emittedBytes (es ++ [.flush]) = emittedBytes es := by simp [emittedBytes]

/-- One more event that the sink answers Ok. -/
theorem State.SinkDelivered.setOut {s : State} (hs : s.SinkDelivered) (hok : s.sinkOk s.outEvents.length = .ok)
    {bytes : List Byte} {e : SinkEvent} (hb : bytes = emittedBytes (s.outEvents ++ [e])) :
    (s.setOut bytes (s.outEvents ++ [e])).SinkDelivered := by
  refine ⟨hb, fun k hk => ?_⟩
  rcases Nat.lt_succ_iff_lt_or_eq.1 (by simpa using hk) with hlt | rfl
  · exact hs.2 k hlt
  · exact hok

theorem emit_keeps_sinkDelivered (b : Byte) {s : State} (hs : s.SinkDelivered) :
    (sinkStep (outEmit b s)).Keeps State.SinkDelivered fun _ => State.OutIsEmitted := by
  rcases sinkStep_outEmit_cases b s with ⟨hok, he⟩ | ⟨-, bytes, hb, he⟩ <;> rw [he]
  · exact hs.setOut hok (by simp [hs.1])
  · rcases hb with rfl | rfl
    · exact .inr (by simp [hs.1])
    · exact .inl (by simp [hs.1])

theorem flush_keeps_sinkDelivered {s : State} (hs : s.SinkDelivered) :
    (sinkStep (outFlush s)).Keeps State.SinkDelivered fun _ => State.OutIsEmitted := by
  rcases sinkStep_outFlush_cases s with ⟨hok, he⟩ | ⟨-, he⟩ <;> rw [he]
  · exact hs.setOut hok (by simp [hs.1])
  · exact .inl (by simp [hs.1])

theorem writeBit_keeps_sinkDelivered (b : Bool) {s : State} (hs : s.SinkDelivered) :
    (writeBit b s).Keeps State.SinkDelivered fun _ => State.OutIsEmitted := by
  unfold writeBit
  split
  · exact emit_keeps_sinkDelivered (s := s.setWriter 0x00#8 0) _ hs
  · exact hs

theorem alignW_keeps_sinkDelivered {s : State} (hs : s.SinkDelivered) :
    (alignW s).Keeps State.SinkDelivered fun _ => State.OutIsEmitted := by
  unfold alignW
  split
  · exact (flush_keeps_sinkDelivered hs).andThen fun _ _ h => h
  · exact (emit_keeps_sinkDelivered (s := s.setWriter 0x00#8 0) _ hs).andThen fun _ _ h =>
      (flush_keeps_sinkDelivered h).andThen fun _ _ h => h

theorem ReaderMoves.sinkDelivered {s t : State} (h : ReaderMoves s t) (hs : s.SinkDelivered) : t.SinkDelivered := by
  obtain ⟨hpar, -, -, -, -, -, -, -, -, -, -, hbytes, hevents, -⟩ := h.1.fields
  simpa only [State.SinkDelivered, State.sinkOk, hpar, hbytes, hevents] using hs

theorem sinkDelivered_kept : Kept State.SinkDelivered fun _ => State.OutIsEmitted where
  imp _ _ h := .inl h.1
  readBit s hs := (readBit_within s).keeps (fun _ ht => ht.sinkDelivered hs) fun _ _ h => .inl h.1
  tryReadByte s hs := (tryReadByte_moves s).sinkDelivered hs
  writeBit b _ := writeBit_keeps_sinkDelivered b
  emit d _ hs _ := emit_keeps_sinkDelivered d hs
  alignW _ := alignW_keeps_sinkDelivered
  setReader _ h := h
  setNodes _ _ h := h
  setCode _ _ _ _ h := h
  clearCodes _ h := h
  setEncCount _ _ h := h
  setDecCount _ _ h := h
  close _ h := h
  answer _ _ h := h
  setCmd _ _ h := h

theorem takeFault_fault_ne_zero (f : FaultKind) (s : State) : (takeFault f s).fault ≠ 0x00#8 := by
  by_cases h : s.fault = 0x00#8
  · rw [takeFault_fresh h]
    exact f.code_ne_zero
  · simp [takeFault, h]

/-- While a fault is pending no event happens; before that, the first event that fails is the last. -/
theorem step_keeps_portInv {s t : State} (hs : s.PortInv) (h : step s = .next t) : t.PortInv := by
  obtain ⟨hpar, -, hwithin, -⟩ := portsOnlyAdvance s t h
  have hpos : t.inPos ≤ t.par.inBytes.length := by rw [hpar]; exact le_trans hwithin (max_le hs.1 (le_refl _))
  by_cases h0 : s.fault = 0x00#8
  · rcases sinkDelivered_kept.step (hs.2.1 h0) h with ht | ⟨f, u, hu, rfl⟩
    · exact ⟨hpos, fun _ => ht, .inl ht.1⟩
    · exact ⟨hpos, fun h => absurd h (takeFault_fault_ne_zero f u), hu⟩
  · obtain ⟨_, ⟨-, _, -, rfl⟩ | ⟨h, -⟩ | ⟨h, -⟩⟩ := step_effects h
    · exact hs
    · exact absurd h h0
    · exact absurd h h0

/-! ### The tables that a command leaves as they are -/

/-- Only CT_CLEAR and CT_LOAD touch the code table. -/
theorem Touches.codes {i : Instr} {s u : State} (h : Touches i s u) :
    (u.ctLen = s.ctLen ∧ u.ctBits = s.ctBits) ∨ i = .ctClear ∨ ∃ sym code, i = .ctLoad sym code := by
  cases i with
  | getStatus => cases h; exact .inl ⟨rfl, rfl⟩
  | rdBit | rdBytes _ | wrBit _ | wrBytes _ | wrAlign | wrClose | trInsertStream _ _ | encSym _ | decSym =>
    rw [h.1]; exact .inl ⟨rfl, rfl⟩
  | rdAlign | compress | decompress _ => rw [h.1.1]; exact .inl ⟨rfl, rfl⟩
  | trClear | trInsertCode _ _ => rw [h]; exact .inl ⟨rfl, rfl⟩
  | ctClear => exact .inr (.inl rfl)
  | ctLoad sym code => exact .inr (.inr ⟨sym, code, rfl⟩)

/-- Only TR_CLEAR and the two inserts touch the trie. -/
theorem Touches.nodes {i : Instr} {s u : State} (h : Touches i s u) :
    u.nodes = s.nodes ∨ i = .trClear ∨ (∃ sym len, i = .trInsertStream sym len) ∨ ∃ sym code, i = .trInsertCode sym code := by
  cases i with
  | getStatus => cases h; exact .inl rfl
  | rdBit | rdBytes _ | wrBit _ | wrBytes _ | wrAlign | wrClose | encSym _ | decSym => rw [h.1]; exact .inl rfl
  | rdAlign | compress | decompress _ => rw [h.1.1]; exact .inl rfl
  | ctClear | ctLoad _ _ => rw [h]; exact .inl rfl
  | trClear => exact .inr (.inl rfl)
  | trInsertStream sym len => exact .inr (.inr (.inl ⟨sym, len, rfl⟩))
  | trInsertCode sym code => exact .inr (.inr (.inr ⟨sym, code, rfl⟩))

theorem closing_tables (i : Instr) (u : State) :
    (closing i u).ctLen = u.ctLen ∧ (closing i u).ctBits = u.ctBits ∧ (closing i u).nodes = u.nodes := by
  cases i <;> exact ⟨rfl, rfl, rfl⟩

/-- The tables after a command are those it left before it answered. -/
theorem exec_tables (i : Instr) {s t : State} (h0 : s.fault = 0x00#8) (h : exec i s = .next t) :
    ∃ u, Touches i s u ∧ t.ctLen = u.ctLen ∧ t.ctBits = u.ctBits ∧ t.nodes = u.nodes := by
  obtain ⟨u, hu, ⟨p, rfl⟩ | ⟨f, -, rfl⟩⟩ := exec_touches i h0 h
  · exact ⟨u, hu, closing_tables i u⟩
  · exact ⟨u, hu, rfl, rfl, rfl⟩

/-- CT_CLEAR (R140). -/
theorem exec_ctClear_ok {s : State} (h0 : s.fault = 0x00#8) :
    exec .ctClear s = .next (s.clearCodes.answer [0x00#8]) :=
  command_ok (body := fun s => .ok [] s.clearCodes) h0 rfl

/-- CT_LOAD (R141). -/
theorem exec_ctLoad_ok (sym : Byte) (code : List Bool) {s : State} (h0 : s.fault = 0x00#8) :
    exec (.ctLoad sym code) s = .next ((s.setCode sym (codeOperandLen code) code).answer [0x00#8]) :=
  command_ok (body := fun s => .ok [] (s.setCode sym (codeOperandLen code) code)) h0 rfl

/-- TR_CLEAR (R144). -/
theorem exec_trClear_ok {s : State} (h0 : s.fault = 0x00#8) : exec .trClear s = .next (s.clearTrie.answer [0x00#8]) :=
  command_ok (body := fun s => .ok [] s.clearTrie) h0 rfl

/-! ### The code table -/

theorem State.CodeInv.congr {s t : State} (h : s.CodeInv) (hlen : t.ctLen = s.ctLen) (hbits : t.ctBits = s.ctBits) :
    t.CodeInv := by
  simpa only [State.CodeInv, hlen, hbits] using h

/-- CT_LOAD stores a sequence with its own length, if a byte can hold it (R141). -/
theorem State.CodeInv.setCode {s : State} (h : s.CodeInv) (sym : Byte) {code : List Bool} (hfits : codeFits code = true) :
    (s.setCode sym (codeOperandLen code) code).CodeInv := by
  have hlen : code.length = (codeOperandLen code).toNat := by
    have hle : code.length ≤ 255 := of_decide_eq_true hfits
    rw [codeOperandLen, BitVec.toNat_ofNat, Nat.mod_eq_of_lt (by omega)]
  intro i hi
  simp only [State.setCode_ctLen, State.setCode_ctBits, Vector.getElem_set]
  split
  · exact fun _ => hlen
  · exact h i hi

theorem clearCodes_codeInv (s : State) : s.clearCodes.CodeInv :=
  fun _ hi hpresent => absurd (Vector.getElem_replicate hi) hpresent

theorem exec_keeps_codeInv {i : Instr} (hwf : i.wf = true) {s t : State} (h0 : s.fault = 0x00#8) (hs : s.CodeInv)
    (h : exec i s = .next t) : t.CodeInv := by
  obtain ⟨u, hu, hlen, hbits, -⟩ := exec_tables i h0 h
  rcases hu.codes with ⟨hulen, hubits⟩ | rfl | ⟨sym, code, rfl⟩
  · exact hs.congr (hlen.trans hulen) (hbits.trans hubits)
  · cases (exec_ctClear_ok h0).symm.trans h
    exact clearCodes_codeInv s
  · cases (exec_ctLoad_ok sym code h0).symm.trans h
    exact hs.setCode sym hwf

theorem step_keeps_codeInv {s t : State} (hs : s.CodeInv) (h : step s = .next t) : t.CodeInv := by
  obtain ⟨rest, ⟨-, r, -, rfl⟩ | ⟨h0, i, hwf, hi⟩ | ⟨-, rfl⟩⟩ := step_effects h
  · exact hs
  · exact exec_keeps_codeInv (s := s.setCmd rest) hwf h0 hs hi
  · exact hs

/-- No bit past the stored sequence is read for a present symbol (R30). -/
theorem codeOf_eq_storedBits {s : State} {sym : Byte} (hs : s.CodeInv) (hpresent : s.codeLen sym ≠ 0x00#8) :
    s.codeOf sym = s.storedBits sym := by
  have hlen : (s.storedBits sym).length = (s.codeLen sym).toNat := hs sym.toNat sym.isLt hpresent
  refine List.ext_getElem ((s.codeOf_length sym).trans hlen.symm) fun n _ hn => ?_
  simp only [State.codeOf, List.getElem_map, List.getElem_range]
  exact List.getD_eq_getElem _ _ hn

/-- Settles O26: CT_LOAD, the only command that makes a symbol present, stores a sequence with its own length. -/
theorem codeTableInvariant : Obligations.CodeTableInvariant :=
  ⟨resetWith_codeInv, fun _ _ => step_keeps_codeInv, fun _ _ => codeOf_eq_storedBits⟩

/-! ### The trie and the node count -/

theorem State.CountInv.congr {s t : State} (h : s.CountInv) (hpar : t.par = s.par) (hnodes : t.nodes = s.nodes) :
    t.CountInv := by
  simpa only [State.CountInv, State.nodeCount, hpar, hnodes] using h

/-- An insert command keeps the node count in its range, and R33 unless it raises (R33, R143). -/
theorem insert_keeps_trie {nextBit : Nat → State → Res Bool} (hnb : ReadsOnly nextBit fun _ => True) {sym : Byte} {len : Nat}
    {s t : State} (h0 : s.fault = 0x00#8) (hcount : s.CountInv) (htrie : s.TrieInv)
    (h : command (fun s => (trieInsert sym len nextBit s).andThen fun _ s1 => .ok [] s1) s = .next t) :
    t.CountInv ∧ t.TrieInv := by
  obtain ⟨hcap, hpos, hle⟩ := hcount
  have count (u : State) (hu : Inserted (fun _ => True) s u) : u.CountInv :=
    ⟨by rw [hu.frame.fields.1]; exact hcap, le_trans hpos hu.grows, by rw [hu.frame.fields.1]; exact hu.bounded⟩
  have hpost := trieInsert_post hnb (fun _ _ _ => trivial) sym len trivial (htrie h0) hle
  cases hr : trieInsert sym len nextBit s with
  | ok a u =>
    rw [hr] at hpost
    rw [command_ok (p := []) (t := u) h0 (by simp [hr])] at h
    cases h
    exact ⟨count u hpost.1, fun _ => hpost.2⟩
  | raise f u =>
    rw [hr] at hpost
    rw [command_raise (f := f) (t := u) h0 (by simp [hr])] at h
    cases h
    exact ⟨count u hpost, fun h => absurd h (takeFault_fault_ne_zero f u)⟩

theorem nextStreamBit_readsOnly : ReadsOnly nextStreamBit fun _ => True := fun _ s _ =>
  Res.Post.mono (readBit_within s) (fun _ _ h => ⟨h.1, trivial⟩) fun _ _ h => ⟨h.1.1, trivial⟩

theorem nextCodeBit_readsOnly (code : List Bool) : ReadsOnly (nextCodeBit code) fun _ => True :=
  fun _ s _ => ⟨ReaderFrame.refl s, trivial⟩

theorem exec_keeps_trie (i : Instr) {s t : State} (h0 : s.fault = 0x00#8) (hcount : s.CountInv) (htrie : s.TrieInv)
    (h : exec i s = .next t) : t.CountInv ∧ t.TrieInv := by
  obtain ⟨u, hu, -, -, hnodes⟩ := exec_tables i h0 h
  rcases hu.nodes with hunodes | rfl | ⟨sym, len, rfl⟩ | ⟨sym, code, rfl⟩
  · have hsame : t.nodes = s.nodes := hnodes.trans hunodes
    exact ⟨hcount.congr (exec_advances i h).par hsame, fun _ => hsame ▸ htrie h0⟩
  · cases (exec_trClear_ok h0).symm.trans h
    exact ⟨⟨hcount.1, le_refl 1, le_trans hcount.2.1 hcount.2.2⟩, fun _ => trieShape_fresh⟩
  · exact insert_keeps_trie nextStreamBit_readsOnly h0 hcount htrie h
  · exact insert_keeps_trie (nextCodeBit_readsOnly code) h0 hcount htrie h

theorem step_keeps_trie {s t : State} (hcount : s.CountInv) (htrie : s.TrieInv) (h : step s = .next t) :
    t.CountInv ∧ t.TrieInv := by
  obtain ⟨rest, ⟨-, r, -, rfl⟩ | ⟨h0, i, -, hi⟩ | ⟨-, rfl⟩⟩ := step_effects h
  · exact ⟨hcount, htrie⟩
  · exact exec_keeps_trie (s := s.setCmd rest) i h0 hcount htrie hi
  · exact ⟨hcount, fun h => absurd h (takeFault_fault_ne_zero _ _)⟩

/-- R33 item 2 with the parent branch written out: one node and one of its branches name `c`. -/
theorem TrieShape.exists_unique_parent {s : State} (h : TrieShape s.nodes) {c : Nat} (h0 : 0 < c) (hc : c < s.nodeCount) :
    ∃ i b, i < s.nodeCount ∧ (s.node i).child b = some c ∧
      ∀ i' b', i' < s.nodeCount → (s.node i').child b' = some c → i' = i ∧ b' = b := by
  have hcount := h.2.1 c hc h0
  obtain ⟨n, hn, hcn⟩ := List.mem_flatMap.1 (List.count_pos_iff.1 (by rw [hcount]; exact Nat.one_pos))
  obtain ⟨i, hi, rfl⟩ := List.getElem_of_mem hn
  obtain ⟨b, hb⟩ := Node.mem_children.1 hcn
  refine ⟨i, b, hi, by rw [State.node_lt hi]; exact hb, fun i' b' hi' hb' => ?_⟩
  rw [State.node_lt hi'] at hb'
  obtain rfl : i' = i := parent_unique hcount hi' hi (Node.child_mem hb') hcn
  exact ⟨rfl, branch_unique hcount hi hb' hb⟩

theorem Node.childless_fields {n : Node} : n.childless = true ↔ n.z = none ∧ n.o = none := by simp [Node.childless]

/-- Settles O25: an insert that returns keeps R33, TR_CLEAR establishes it, and no other command touches the trie. -/
theorem trieInvariant : Obligations.TrieInvariant := by
  refine ⟨resetWith_trieInv, fun s t hcount htrie h => (step_keeps_trie hcount htrie h).2, fun s htrie h0 => ?_⟩
  have hshape : TrieShape s.nodes := htrie h0
  obtain ⟨-, -, hleafEnd, hendLeaf, hroot, hrootLeaf⟩ := htrie h0
  refine ⟨fun i hi b c hc => ?_, fun c h0 hc => hshape.exists_unique_parent h0 hc, fun i hi hl => ?_,
    fun i hi h0 hz ho => ?_, ?_⟩
  · exact (hshape.walk hroot).child_lt hi hc
  · rw [State.node_lt hi] at hl ⊢
    exact Node.childless_fields.1 (hleafEnd i hi hl)
  · rw [State.node_lt hi] at hz ho ⊢
    exact hendLeaf i hi h0 (Node.childless_fields.2 ⟨hz, ho⟩)
  · rw [State.node_lt hroot]
    exact hrootLeaf

/-! ### All invariants, and the reset values -/

/-- Settles O22, invariant by invariant; the node count needs the trie's shape and the trie's shape the count. -/
theorem stepKeepsTheInvariants : Obligations.StepKeepsTheInvariants := by
  rintro s t ⟨hreader, hwriter, hcode, htrie, hcount, hport, hresponse⟩ h
  obtain ⟨hcount', htrie'⟩ := step_keeps_trie hcount htrie h
  exact ⟨step_keeps_readerInv hreader h, step_keeps_writerInv hwriter h, step_keeps_codeInv hcode h, htrie', hcount',
    step_keeps_portInv hport h, step_keeps_responseInv hresponse h⟩

theorem resetWith_codeLen (p : Params) (sym : Byte) : (State.resetWith p).codeLen sym = 0x00#8 :=
  Vector.getElem_replicate sym.isLt

/-- Settles O19, register by register. -/
theorem resetValues : Obligations.ResetValues := fun p =>
  ⟨rfl, rfl, rfl, rfl, rfl, resetWith_codeLen p, rfl, rfl, rfl, rfl, rfl, rfl⟩

end Sys2Proof.Machine
end

section
/-! PROOFS. The memory statements: the order of bits in bytes (O32) and what the two ports do (O18). -/

namespace Sys2Proof.Machine

/-! ### The bits of a byte sequence -/

theorem bitsOfByte_getElem? (b : Byte) {j : Nat} (h : j < 8) : (bitsOfByte b)[j]? = some (b.getLsbD j) := by
  rw [List.getElem?_eq_getElem (by simpa using h), bitsOfByte_getElem]

/-- The bits of a sequence are those of its first byte, followed eight places later by those of the other bytes (R54). -/
theorem bitsOf_getElem? (bs : List Byte) {j : Nat} (h : j < 8 * bs.length) :
    (bitsOf bs)[j]? = some ((bs.getD (j / 8) 0x00#8).getLsbD (j % 8)) := by
  induction bs generalizing j with
  | nil => exact absurd h (Nat.not_lt_zero j)
  | cons b bs ih =>
    rw [bitsOf_cons]
    by_cases hj : j < 8
    · rw [List.getElem?_append_left (by simpa using hj), bitsOfByte_getElem? b hj, Nat.div_eq_of_lt hj,
        Nat.mod_eq_of_lt hj, List.getD_cons_zero]
    · obtain ⟨k, rfl⟩ : ∃ k, j = k + 8 := ⟨j - 8, by omega⟩
      have hk : k < 8 * bs.length := by rw [List.length_cons] at h; omega
      rw [List.getElem?_append_right (by simp), bitsOfByte_length, Nat.add_sub_cancel, ih hk,
        Nat.add_div_right k (by omega), Nat.add_mod_right, List.getD_cons_succ]

/-! ### The two bit commands where they succeed -/

/-- RD_BIT answers the bit that ReadBit returns (R103). -/
theorem exec_rdBit_ok {s t : State} {b : Bool} (h0 : s.fault = 0x00#8) (h : readBit s = .ok b t) :
    exec .rdBit s = .next (t.answer [0x00#8, bitByte b]) := by
  unfold exec execRdBit
  exact command_ok h0 (by rw [h, Res.andThen_ok])

/-- WriteBit returns when the sink would answer Ok to the byte it may complete (R120). -/
theorem writeBit_ok (b : Bool) {s : State} (hw : s.WriterInv) (hs : s.SinkOkFor 1) :
    ∃ t, writeBit b s = .ok () t ∧ WriterFrame s t ∧ Wrote s t [b] := by
  have h := writeBit_post b hw
  cases he : writeBit b s with
  | ok _ t => rw [he] at h; exact ⟨t, rfl, h⟩
  | raise f t => rw [he] at h; exact (h.2.2.absurd (hs.mono (by omega))).elim

/-- WR_BIT with a legal operand on an open writer answers an empty payload where WriteBit returns (R125). -/
theorem exec_wrBit_ok {s t : State} {b : Byte} (h0 : s.fault = 0x00#8) (hopen : s.wrClosed = false) (hb : b.toNat ≤ 1)
    (h : writeBit (b.getLsbD 0) s = .ok () t) : exec (.wrBit b) s = .next (t.answer [0x00#8]) := by
  unfold exec execWrBit
  exact command_ok h0 (by rw [if_neg (Nat.not_lt.2 hb), checkWriter_open hopen, Res.andThen_ok, h, Res.andThen_ok])

/-- Settles O32: by induction on the bytes, and from what ReadBit and WriteBit do to the two streams. -/
theorem bitOrderIsLsbFirst : Obligations.BitOrderIsLsbFirst := by
  refine ⟨fun bs _ h => bitsOf_getElem? bs h, fun s b rest h0 hu => ?_, fun s b h0 hopen hw hb hs => ?_⟩
  · obtain ⟨t, ht, hrest, hframe⟩ := readBit_next hu
    have hresp : t.resp = s.resp := by rw [hframe]
    exact ⟨_, exec_rdBit_ok h0 ht, congrArg (· ++ [[0x00#8, bitByte b]]) hresp, hrest⟩
  · obtain ⟨t, ht, hframe, hwrote⟩ := writeBit_ok (b.getLsbD 0) hw hs
    have hfault : t.fault = s.fault := by rw [hframe]
    exact ⟨_, exec_wrBit_ok h0 hopen hb ht, hfault.trans h0, hwrote.bits⟩

/-! ### The ports -/

theorem inFetch_byte {s : State} (h : s.inPos < s.par.inBytes.length) :
    inFetch s = (.byte s.par.inBytes[s.inPos], s.setInPos (s.inPos + 1)) := by
  rcases inFetch_cases s with ⟨_, he⟩ | ⟨hend, -⟩
  · exact he
  · exact absurd h (Nat.not_lt.2 hend)

theorem inFetch_term {s : State} (h : s.par.inBytes.length ≤ s.inPos) : inFetch s = (.term s.par.inTerm, s) := by
  rcases inFetch_cases s with ⟨hlt, -⟩ | ⟨-, he⟩
  · exact absurd hlt (Nat.not_lt.2 h)
  · exact he

/-- Settles O18, port by port; on a failed emit both outcomes for the byte are given, whatever the free value is. -/
theorem portPrimitives : Obligations.PortPrimitives :=
  ⟨fun _ => ⟨inFetch_byte, inFetch_term⟩, fun _ _ => ⟨outEmit_ok, outEmit_fail⟩, fun _ => rfl, fun _ => ⟨rfl, rfl, rfl⟩⟩

end Sys2Proof.Machine
end

section
/-! PROOFS. The encoding statements: the encoder and the decoder agree (O1, O5, O6, O7), the length rule and the reserved
opcodes (O2, O3, O4), and what a step makes of the bytes in the channel (O8, O9, O10, O14). -/

namespace Sys2Proof.Machine

/-! ### Operands of each format, read from their bytes -/

/-- Format F3 on exactly its code bytes, whatever follows them (R72, R74). -/
theorem decodeF3_append (mk : Byte → List Bool → Instr) (sym len : Byte) {bytes : List Byte}
    (h : bytes.length = codeBytes len.toNat) (rest : List Byte) :
    decodeF3 mk (sym :: len :: (bytes ++ rest)) = .command (mk sym (unpackCode len.toNat bytes)) rest := by
  simp [decodeF3, ← h]

/-- Format F5 on exactly its data bytes, whatever follows them (R72). -/
theorem decodeF5_append (mk : List Byte → Instr) (b1 b2 b3 b4 : Byte) {data : List Byte}
    (h : data.length = ofBigEndian [b1, b2, b3, b4]) (rest : List Byte) :
    decodeF5 mk (b1 :: b2 :: b3 :: b4 :: (data ++ rest)) = .command (mk data) rest := by
  simp [decodeF5, ← h]

theorem decodeF4_toBigEndian (mk : U32 → Instr) (n : U32) (rest : List Byte) :
    decodeF4 mk (toBigEndian 4 n.toNat ++ rest) = .command (mk n) rest := by
  have hn : ofBigEndian (toBigEndian 4 n.toNat) = n.toNat :=
    (ofBigEndian_toBigEndian 4 n.toNat).trans (Nat.mod_eq_of_lt n.isLt)
  show Decoded.command (mk (BitVec.ofNat 32 (ofBigEndian (toBigEndian 4 n.toNat)))) rest = _
  rw [hn, BitVec.ofNat_toNat, BitVec.setWidth_eq]

theorem decodeF6_toBigEndian (mk : U64 → Instr) (size : U64) (rest : List Byte) :
    decodeF6 mk (toBigEndian 8 size.toNat ++ rest) = .command (mk size) rest := by
  have hsize : ofBigEndian (toBigEndian 8 size.toNat) = size.toNat :=
    (ofBigEndian_toBigEndian 8 size.toNat).trans (Nat.mod_eq_of_lt size.isLt)
  show Decoded.command (mk (BitVec.ofNat 64 (ofBigEndian (toBigEndian 8 size.toNat)))) rest = _
  rw [hsize, BitVec.ofNat_toNat, BitVec.setWidth_eq]

theorem decodeF3_encodeF3 (mk : Byte → List Bool → Instr) (sym : Byte) {code : List Bool} (h : codeFits code = true)
    (rest : List Byte) : decodeF3 mk (encodeF3 sym code ++ rest) = .command (mk sym code) rest := by
  have hle : code.length ≤ 255 := of_decide_eq_true h
  have hlen : (BitVec.ofNat 8 code.length).toNat = code.length := Nat.mod_eq_of_lt (Nat.lt_succ_of_le hle)
  have hread := decodeF3_append mk sym (BitVec.ofNat 8 code.length) (bytes := packCode code) (by simp [hlen]) rest
  rwa [hlen, unpackCode_packCode] at hread

theorem decodeF5_encodeF5 (mk : List Byte → Instr) {data : List Byte} (h : dataFits data = true) (rest : List Byte) :
    decodeF5 mk (encodeF5 data ++ rest) = .command (mk data) rest := by
  have hlt : data.length < 256 ^ 4 := of_decide_eq_true h
  have hlen : ofBigEndian (toBigEndian 4 data.length) = data.length :=
    (ofBigEndian_toBigEndian 4 data.length).trans (Nat.mod_eq_of_lt hlt)
  rw [encodeF5, List.append_assoc]
  exact decodeF5_append mk _ _ _ _ hlen.symm rest

/-- Settles O1, by the command: the opcode selects the format, and each format's operands are read back. -/
theorem encodeThenDecodeIsIdentity : Obligations.EncodeThenDecodeIsIdentity := by
  intro i rest hwf
  cases i with
  | rdBytes n => exact decodeF4_toBigEndian .rdBytes n rest
  | wrBytes data => exact decodeF5_encodeF5 .wrBytes hwf rest
  | ctLoad sym code => exact decodeF3_encodeF3 .ctLoad sym hwf rest
  | trInsertCode sym code => exact decodeF3_encodeF3 .trInsertCode sym hwf rest
  | decompress size => exact decodeF6_toBigEndian .decompress size rest
  | getStatus | rdBit | rdAlign | wrBit _ | wrAlign | wrClose | ctClear | trClear | trInsertStream _ _ | encSym _ |
    compress | decSym => rfl

/-- Settles O7: each word is the encoding of its command. -/
theorem specEncodingsDecode : Obligations.SpecEncodingsDecode :=
  have read := encodeThenDecodeIsIdentity
  ⟨read (.ctLoad 0x62 [true, true, false]) [] rfl, read (.trInsertCode 0x62 [false]) [0x42, 0x61, 0x01, 0x01] rfl,
    read (.trInsertCode 0x61 [true]) [] rfl, read (.rdBytes 258) [] rfl, read (.wrBytes [0xDA]) [] rfl,
    read (.decompress 11) [] rfl, read (.encSym 0x61) [] rfl, read .getStatus [] rfl⟩

/-! ### Code bits and byte order -/

/-- Code bit `i` of the sequence read from code bytes (R74). -/
theorem unpackCode_getD {len i : Nat} (bytes : List Byte) (h : i < len) :
    (unpackCode len bytes).getD i false = (bytes.getD (i / 8) 0x00#8).getLsbD (i % 8) := by
  simp [unpackCode, codeBit, h]

/-- Padding bits do not matter to format F3 (R74, R78). -/
theorem decodeF3_congr (mk : Byte → List Bool → Instr) (sym len : Byte) {bytes bytes' : List Byte}
    (h : bytes.length = codeBytes len.toNat) (h' : bytes'.length = codeBytes len.toNat)
    (hbits : ∀ i < len.toNat, codeBit bytes i = codeBit bytes' i) :
    decodeF3 mk (sym :: len :: bytes) = decodeF3 mk (sym :: len :: bytes') := by
  have hread := decodeF3_append mk sym len h []
  have hread' := decodeF3_append mk sym len h' []
  rw [List.append_nil] at hread hread'
  rw [hread, hread', unpackCode_congr hbits]

/-- Padding bits do not matter to the two commands with a code operand (R74, R78). -/
theorem decode_code_congr (op sym len : Byte) (bytes bytes' : List Byte) (hop : op ∈ [0x31#8, 0x42#8])
    (h : bytes.length = (len.toNat + 7) / 8) (h' : bytes'.length = (len.toNat + 7) / 8)
    (hbits : ∀ i < len.toNat,
      (bytes.getD (i / 8) 0x00#8).getLsbD (i % 8) = (bytes'.getD (i / 8) 0x00#8).getLsbD (i % 8)) :
    decode (op :: sym :: len :: bytes) = decode (op :: sym :: len :: bytes') := by
  rcases List.mem_pair.1 hop with rfl | rfl
  · exact decodeF3_congr .ctLoad sym len h h' hbits
  · exact decodeF3_congr .trInsertCode sym len h h' hbits

/-- Settles O5: the code is the sequence that `unpackCode` reads, and it reads no padding bit. -/
theorem codeOperandBits : Obligations.CodeOperandBits :=
  ⟨fun sym len bytes rest h => ⟨unpackCode len.toNat bytes, unpackCode_length _ _, fun _ hi => unpackCode_getD bytes hi,
    decodeF3_append .ctLoad sym len h rest, decodeF3_append .trInsertCode sym len h rest⟩, decode_code_congr⟩

theorem ofBigEndian_four (b1 b2 b3 b4 : Byte) : ofBigEndian [b1, b2, b3, b4] =
    b1.toNat * 2 ^ 24 + b2.toNat * 2 ^ 16 + b3.toNat * 2 ^ 8 + b4.toNat := by
  simp [ofBigEndian_cons, Nat.add_assoc]

theorem ofBigEndian_eight (b1 b2 b3 b4 b5 b6 b7 b8 : Byte) : ofBigEndian [b1, b2, b3, b4, b5, b6, b7, b8] =
    b1.toNat * 2 ^ 56 + b2.toNat * 2 ^ 48 + b3.toNat * 2 ^ 40 + b4.toNat * 2 ^ 32 + b5.toNat * 2 ^ 24 +
      b6.toNat * 2 ^ 16 + b7.toNat * 2 ^ 8 + b8.toNat := by
  simp [ofBigEndian_cons, Nat.add_assoc]

/-- Settles O6: byte operands are taken as they are, and `ofBigEndian` is the sum that R73 writes out. -/
theorem operandsAreBigEndian : Obligations.OperandsAreBigEndian := by
  refine ⟨fun _ _ => ⟨rfl, rfl⟩, fun _ _ _ => rfl, fun sym len bytes h => ?_, fun b1 b2 b3 b4 rest => ?_,
    fun b1 b2 b3 b4 data rest h => ?_, fun b1 b2 b3 b4 b5 b6 b7 b8 rest => ?_⟩
  · obtain ⟨code, hlen, -, hload, hinsert⟩ := codeOperandBits.1 sym len bytes [] h
    rw [List.append_nil] at hload hinsert
    exact ⟨code, hlen, hload, hinsert⟩
  · have hlt : ofBigEndian [b1, b2, b3, b4] < 2 ^ 32 := by simpa using ofBigEndian_lt [b1, b2, b3, b4]
    exact ⟨BitVec.ofNat 32 _, (Nat.mod_eq_of_lt hlt).trans (ofBigEndian_four b1 b2 b3 b4), rfl⟩
  · exact decodeF5_append .wrBytes b1 b2 b3 b4 (h.trans (ofBigEndian_four b1 b2 b3 b4).symm) rest
  · have hlt : ofBigEndian [b1, b2, b3, b4, b5, b6, b7, b8] < 2 ^ 64 := by
      simpa using ofBigEndian_lt [b1, b2, b3, b4, b5, b6, b7, b8]
    exact ⟨BitVec.ofNat 64 _, (Nat.mod_eq_of_lt hlt).trans (ofBigEndian_eight b1 b2 b3 b4 b5 b6 b7 b8), rfl⟩

/-! ### The opcode table -/

/-- The operand decoders of each format, for any command they are used for (R72). -/
inductive OperandDecoder : Format → (List Byte → Decoded) → Prop where
  | f0 (i : Instr) : OperandDecoder .f0 (.command i)
  | f1 (mk : Byte → Instr) : OperandDecoder .f1 (decodeF1 mk)
  | f2 (mk : Byte → Byte → Instr) : OperandDecoder .f2 (decodeF2 mk)
  | f3 (mk : Byte → List Bool → Instr) : OperandDecoder .f3 (decodeF3 mk)
  | f4 (mk : U32 → Instr) : OperandDecoder .f4 (decodeF4 mk)
  | f5 (mk : List Byte → Instr) : OperandDecoder .f5 (decodeF5 mk)
  | f6 (mk : U64 → Instr) : OperandDecoder .f6 (decodeF6 mk)

/-- A reserved opcode is one without a format (R76, R77). -/
theorem reservedByte_iff (op : Byte) : reservedByte op = true ↔ formatOf op = none := by
  revert op
  decide

theorem decode_unassigned {op : Byte} (h : formatOf op = none) (rest : List Byte) :
    decode (op :: rest) = .reserved op rest := by
  simp only [decode]
  split
  case h_18 => rfl
  all_goals next hop => simp [formatOf, hop] at h

/-- The opcode table, said once: a byte is unassigned and reserved, or selects the operand decoder of its format (R71, R76,
R77). -/
theorem decode_opcode (op : Byte) :
    (formatOf op = none ∧ ∀ rest, decode (op :: rest) = .reserved op rest) ∨
    ∃ f dec, formatOf op = some f ∧ OperandDecoder f dec ∧ ∀ rest, decode (op :: rest) = dec rest := by
  rcases decode_cases op [] with ⟨rfl, -⟩ | ⟨rfl, -⟩ | ⟨rfl, -⟩ | ⟨rfl, -⟩ | ⟨rfl, -⟩ | ⟨rfl, -⟩ | ⟨rfl, -⟩ | ⟨rfl, -⟩ |
    ⟨rfl, -⟩ | ⟨rfl, -⟩ | ⟨rfl, -⟩ | ⟨rfl, -⟩ | ⟨rfl, -⟩ | ⟨rfl, -⟩ | ⟨rfl, -⟩ | ⟨rfl, -⟩ | ⟨rfl, -⟩ | ⟨-, hnone, -⟩
  · exact .inr ⟨_, _, rfl, .f0 .getStatus, fun _ => rfl⟩
  · exact .inr ⟨_, _, rfl, .f0 .rdBit, fun _ => rfl⟩
  · exact .inr ⟨_, _, rfl, .f4 .rdBytes, fun _ => rfl⟩
  · exact .inr ⟨_, _, rfl, .f0 .rdAlign, fun _ => rfl⟩
  · exact .inr ⟨_, _, rfl, .f1 .wrBit, fun _ => rfl⟩
  · exact .inr ⟨_, _, rfl, .f5 .wrBytes, fun _ => rfl⟩
  · exact .inr ⟨_, _, rfl, .f0 .wrAlign, fun _ => rfl⟩
  · exact .inr ⟨_, _, rfl, .f0 .wrClose, fun _ => rfl⟩
  · exact .inr ⟨_, _, rfl, .f0 .ctClear, fun _ => rfl⟩
  · exact .inr ⟨_, _, rfl, .f3 .ctLoad, fun _ => rfl⟩
  · exact .inr ⟨_, _, rfl, .f0 .trClear, fun _ => rfl⟩
  · exact .inr ⟨_, _, rfl, .f2 .trInsertStream, fun _ => rfl⟩
  · exact .inr ⟨_, _, rfl, .f3 .trInsertCode, fun _ => rfl⟩
  · exact .inr ⟨_, _, rfl, .f1 .encSym, fun _ => rfl⟩
  · exact .inr ⟨_, _, rfl, .f0 .compress, fun _ => rfl⟩
  · exact .inr ⟨_, _, rfl, .f0 .decSym, fun _ => rfl⟩
  · exact .inr ⟨_, _, rfl, .f6 .decompress, fun _ => rfl⟩
  · exact .inl ⟨hnone, decode_unassigned hnone⟩

/-! ### The length rule -/

/-- The length of a command is known once five bytes have arrived, whatever follows them (R75). -/
theorem commandLength_five (op b1 b2 b3 b4 : Byte) (rest : List Byte) :
    commandLength (op :: b1 :: b2 :: b3 :: b4 :: rest) ≠ none ∧
      commandLength (op :: b1 :: b2 :: b3 :: b4 :: rest) = commandLength [op, b1, b2, b3, b4] := by
  cases hf : formatOf op with
  | none => simp [commandLength, hf]
  | some f => cases f <;> simp [commandLength, hf]

theorem commandLength_reserved {op : Byte} (h : formatOf op = none) (rest : List Byte) :
    commandLength (op :: rest) = some 1 := by simp [commandLength, h]

/-- Settles O3, opcode by opcode; the last clause holds for each format. -/
theorem commandLengthOfEachFormat : Obligations.CommandLengthOfEachFormat := by
  refine ⟨fun op rest => ⟨fun h => ?_, fun h => ?_, fun h => ?_, fun h => ?_, fun h => ?_, fun h => ?_⟩,
    fun op sym len rest h => ?_, fun b1 b2 b3 b4 rest => ?_, fun bs h => ?_⟩
  · fin_cases h <;> rfl
  · fin_cases h <;> rfl
  · rw [h]; rfl
  · rw [h]; rfl
  · rw [h]; rfl
  · exact commandLength_reserved ((reservedByte_iff op).1 h) rest
  · fin_cases h <;> rfl
  · rw [← ofBigEndian_four]; rfl
  · match bs, h with
    | op :: b1 :: b2 :: b3 :: b4 :: rest, _ => exact commandLength_five op b1 b2 b3 b4 rest

/-- After the opcode `op`, operands are taken from exactly the bytes of the length rule and nothing after them is looked at,
or there are fewer (R70, R75, R82). -/
def TakesItsLength (op : Byte) (dec : List Byte → Decoded) (bs : List Byte) : Prop :=
  (∃ i front rest, bs = front ++ rest ∧ commandLength (op :: bs) = some (front.length + 1) ∧
    ∀ rest', dec (front ++ rest') = .command i rest') ∨
  (dec bs = .incomplete ∧ ∀ n, commandLength (op :: bs) = some n → bs.length + 1 < n)

/-- Operands whose first bytes, `head`, say how many bytes follow them. -/
theorem takesItsLength_counted {op : Byte} {dec : List Byte → Decoded} {head tail : List Byte} {n : Nat}
    (mk : List Byte → Instr) (hlength : commandLength (op :: (head ++ tail)) = some (head.length + n + 1))
    (hshort : tail.length < n → dec (head ++ tail) = .incomplete)
    (hread : ∀ data rest, data.length = n → dec (head ++ (data ++ rest)) = .command (mk data) rest) :
    TakesItsLength op dec (head ++ tail) := by
  rcases Nat.lt_or_ge tail.length n with hlt | hle
  · refine .inr ⟨hshort hlt, fun m hm => ?_⟩
    cases hlength.symm.trans hm
    rw [List.length_append]
    omega
  · have hdata : (tail.take n).length = n := List.length_take_of_le hle
    refine .inl ⟨mk (tail.take n), head ++ tail.take n, tail.drop n, ?_, ?_, fun rest => ?_⟩
    · rw [List.append_assoc, List.take_append_drop]
    · rw [hlength, List.length_append, hdata]
    · rw [List.append_assoc]
      exact hread _ rest hdata

theorem OperandDecoder.takesItsLength {f : Format} {dec : List Byte → Decoded} (hdec : OperandDecoder f dec) {op : Byte}
    (hop : formatOf op = some f) (bs : List Byte) : TakesItsLength op dec bs := by
  cases hdec with
  | f0 i => exact .inl ⟨i, [], bs, rfl, by simp [commandLength, hop], fun _ => rfl⟩
  | f1 mk =>
    match bs with
    | [] => exact .inr ⟨rfl, by simp [commandLength, hop]⟩
    | imm :: rest => exact .inl ⟨mk imm, [imm], rest, rfl, by simp [commandLength, hop], fun _ => rfl⟩
  | f2 mk =>
    match bs with
    | [] | [_] => exact .inr ⟨rfl, by simp [commandLength, hop]⟩
    | sym :: len :: rest => exact .inl ⟨mk sym len, [sym, len], rest, rfl, by simp [commandLength, hop], fun _ => rfl⟩
  | f3 mk =>
    match bs with
    | [] | [_] => exact .inr ⟨rfl, by simp [commandLength, hop]⟩
    | sym :: len :: tail =>
      refine takesItsLength_counted (head := [sym, len]) (n := codeBytes len.toNat)
        (fun bytes => mk sym (unpackCode len.toNat bytes)) ?_ (fun hlt => ?_)
        fun _ rest h => decodeF3_append mk sym len h rest
      · simp [commandLength, hop, Nat.add_right_comm]
      · simp [decodeF3, hlt]
  | f4 mk =>
    match bs with
    | [] | [_] | [_, _] | [_, _, _] => exact .inr ⟨rfl, by simp [commandLength, hop]⟩
    | b1 :: b2 :: b3 :: b4 :: rest =>
      exact .inl ⟨_, [b1, b2, b3, b4], rest, rfl, by simp [commandLength, hop], fun _ => rfl⟩
  | f5 mk =>
    match bs with
    | [] | [_] | [_, _] | [_, _, _] => exact .inr ⟨rfl, by simp [commandLength, hop]⟩
    | b1 :: b2 :: b3 :: b4 :: tail =>
      refine takesItsLength_counted (head := [b1, b2, b3, b4]) (n := ofBigEndian [b1, b2, b3, b4]) mk ?_ (fun hlt => ?_)
        fun _ rest h => decodeF5_append mk b1 b2 b3 b4 h rest
      · simp [commandLength, hop, Nat.add_right_comm]
      · simp [decodeF5, hlt]
  | f6 mk =>
    match bs with
    | [] | [_] | [_, _] | [_, _, _] | [_, _, _, _] | [_, _, _, _, _] | [_, _, _, _, _, _] | [_, _, _, _, _, _, _] =>
      exact .inr ⟨rfl, by simp [commandLength, hop]⟩
    | b1 :: b2 :: b3 :: b4 :: b5 :: b6 :: b7 :: b8 :: rest =>
      exact .inl ⟨_, [b1, b2, b3, b4, b5, b6, b7, b8], rest, rfl, by simp [commandLength, hop], fun _ => rfl⟩

/-- Everything the decoder can find: a command, in exactly the bytes of the length rule; an unassigned opcode; or fewer bytes
than the length rule asks for (R70, R75, R77, R82). -/
theorem decode_finds (bs : List Byte) :
    (∃ i front rest, bs = front ++ rest ∧ commandLength bs = some front.length ∧
      ∀ rest', decode (front ++ rest') = .command i rest') ∨
    (∃ op rest, bs = op :: rest ∧ formatOf op = none ∧ decode bs = .reserved op rest) ∨
    (decode bs = .incomplete ∧ ∀ n, commandLength bs = some n → bs.length < n) := by
  cases bs with
  | nil => exact .inr (.inr ⟨rfl, fun _ hn => nomatch hn⟩)
  | cons op bs =>
    obtain ⟨hop, hdecode⟩ | ⟨f, dec, hop, hdec, hdecode⟩ := decode_opcode op
    · exact .inr (.inl ⟨op, bs, rfl, hop, hdecode bs⟩)
    · obtain ⟨i, front, rest, rfl, hlength, htakes⟩ | ⟨hshort, hlt⟩ := hdec.takesItsLength hop bs
      · exact .inl ⟨i, op :: front, rest, rfl, hlength, fun rest' => (hdecode _).trans (htakes rest')⟩
      · exact .inr (.inr ⟨(hdecode bs).trans hshort, hlt⟩)

theorem decode_wf {bs rest : List Byte} {i : Instr} (h : decode bs = .command i rest) : i.wf = true := by
  cases bs with
  | nil => cases h
  | cons op bs => exact (commandWf_command i rest).1 (h ▸ decode_commandWf op bs)

/-- Settles O2, by what the decoder can find. -/
theorem decoderTakesExactlyTheCommandsBytes : Obligations.DecoderTakesExactlyTheCommandsBytes := by
  intro bs rest i h
  obtain ⟨j, front, rest', rfl, hlength, htakes⟩ | ⟨op, rest', -, -, hreserved⟩ | ⟨hincomplete, -⟩ := decode_finds bs
  · cases (htakes rest').symm.trans h
    exact ⟨decode_wf h, front, rfl, hlength, htakes⟩
  · cases hreserved.symm.trans h
  · cases hincomplete.symm.trans h

/-! ### The step of what the decoder finds -/

theorem step_command {s : State} {i : Instr} {rest : List Byte} (h : decode s.cmd = .command i rest) :
    step s = exec i (s.setCmd rest) := by simp [step, fetch, h]

theorem step_reserved {s : State} {op : Byte} {rest : List Byte} (h : decode s.cmd = .reserved op rest) :
    step s = execReserved (s.setCmd rest) := by simp [step, fetch, h]

theorem step_incomplete {s : State} (h : decode s.cmd = .incomplete) : step s = .fault .commandIncomplete := by
  simp [step, fetch, h]

theorem step_encoded {s : State} {i : Instr} {rest : List Byte} (hwf : i.wf = true) (h : s.cmd = encode i ++ rest) :
    step s = exec i (s.setCmd rest) :=
  step_command (h ▸ encodeThenDecodeIsIdentity i rest hwf)

/-- Settles O8: a step executes what the decoder finds, and an encoding decodes to its command. -/
theorem stepRunsTheDecodedCommand : Obligations.StepRunsTheDecodedCommand :=
  ⟨fun _ _ _ h => step_command h, fun _ _ _ hwf h => step_encoded hwf h, fun _ _ _ h => step_reserved h⟩

theorem execReserved_illegal {s : State} (h0 : s.fault = 0x00#8) :
    execReserved s = .next ((s.setFault 0x07#8).answer [0x07#8]) :=
  (execReserved_raises h0).trans (congrArg Host.Outcome.next (takeFault_fresh h0))

/-- Settles O4: the reserved bytes are those without a format, for these only the decoder finds `reserved`, and its step
takes the fault. -/
theorem reservedOpcodesRaiseIllegalCommand : Obligations.ReservedOpcodesRaiseIllegalCommand := by
  refine ⟨by decide, fun op rest h => ?_, fun bs rest op h => ?_, fun s op rest hcmd hop h0 => ?_⟩
  · exact decode_unassigned ((reservedByte_iff op).1 h) rest
  · obtain ⟨i, front, rest', rfl, -, htakes⟩ | ⟨op', rest', rfl, hop, hreserved⟩ | ⟨hincomplete, -⟩ := decode_finds bs
    · cases (htakes rest').symm.trans h
    · cases hreserved.symm.trans h
      exact ⟨(reservedByte_iff op).2 hop, rfl⟩
    · cases hincomplete.symm.trans h
  · have hdecode : decode s.cmd = .reserved op rest := hcmd ▸ decode_unassigned ((reservedByte_iff op).1 hop) rest
    exact (step_reserved hdecode).trans (execReserved_illegal (s := s.setCmd rest) h0)

/-- A command is ready when the decoder finds one, or a reserved opcode (R75, R82). -/
theorem commandReady_iff (s : State) : s.commandReady ↔ decode s.cmd ≠ .incomplete := by
  obtain ⟨i, front, rest, hcmd, hlength, htakes⟩ | ⟨op, rest, hcmd, hop, hreserved⟩ | ⟨hincomplete, hlt⟩ :=
    decode_finds s.cmd
  · have hready : s.commandReady := ⟨_, hlength, by simp [hcmd]⟩
    simp [hready, hcmd, htakes rest]
  · have hready : s.commandReady := ⟨1, hcmd ▸ commandLength_reserved hop rest, by simp [hcmd]⟩
    simp [hready, hreserved]
  · simp only [hincomplete, ne_eq, not_true_eq_false, iff_false]
    exact fun ⟨n, hn, hle⟩ => absurd hle (Nat.not_le.2 (hlt n hn))

theorem execReserved_next (s : State) : ∃ t, execReserved s = .next t := command_next _ s

theorem step_next_of_ready {s : State} (h : s.commandReady) : ∃ t, step s = .next t := by
  cases hd : decode s.cmd with
  | command i rest => rw [step_command hd]; exact exec_next i _
  | reserved op rest => rw [step_reserved hd]; exact execReserved_next _
  | incomplete => exact absurd hd ((commandReady_iff s).1 h)

/-- Settles O9: a command is ready exactly when the decoder finds one. -/
theorem incompleteCommandsWait : Obligations.IncompleteCommandsWait := by
  refine ⟨fun s h => ?_, fun s h => step_next_of_ready h, fun s bytes i rest hwf h => ?_⟩
  · rw [commandReady_iff, not_not] at h
    exact step_incomplete h
  · exact step_encoded (s := hostSend bytes s) hwf h

/-! ### Responses -/

/-- While a fault is pending a step answers it, or a GET_STATUS (R200, R253). -/
theorem step_sticky {s t : State} (h0 : s.fault ≠ 0x00#8) (h : step s = .next t) :
    ∃ rest, t = (s.setCmd rest).answer [s.fault] ∨ ∃ payload, t = (s.setCmd rest).answer (0x00#8 :: payload) := by
  obtain ⟨rest, -, -, ⟨i, hi⟩ | hreserved⟩ := step_cases h
  · rcases exec_command i with rfl | ⟨body, hbody⟩
    · cases hi
      exact ⟨rest, .inr ⟨_, rfl⟩⟩
    · cases (command_sticky (s := s.setCmd rest) h0).symm.trans ((hbody _).symm.trans hi)
      exact ⟨rest, .inl rfl⟩
  · cases (command_sticky (s := s.setCmd rest) h0).symm.trans hreserved
    exact ⟨rest, .inl rfl⟩

/-- A status of R250 and, only with status 0x00, a payload (R80). -/
def StatusThenPayload (r : List Byte) : Prop :=
  ∃ (status : Byte) (payload : List Byte), r = status :: payload ∧ status.toNat ≤ 7 ∧ (status ≠ 0x00#8 → payload = [])

theorem statusThenPayload_ok (payload : List Byte) : StatusThenPayload (0x00#8 :: payload) :=
  ⟨_, payload, rfl, Nat.zero_le 7, fun h => absurd rfl h⟩

theorem statusThenPayload_fault {code : Byte} (h : code.toNat ≤ 7) : StatusThenPayload [code] :=
  ⟨code, [], rfl, h, fun _ => rfl⟩

/-- Every step produces one response, of R80's form. -/
theorem step_responds {s t : State} (hle : s.fault.toNat ≤ 7) (h : step s = .next t) :
    ∃ r, StatusThenPayload r ∧ t.resp = s.resp ++ [r] := by
  obtain ⟨-, ⟨h0, -⟩ | ⟨-, -, payload, hresp⟩ | ⟨-, f, -, hresp⟩⟩ := step_answers h
  · obtain ⟨rest, rfl | ⟨payload, rfl⟩⟩ := step_sticky h0 h
    · exact ⟨_, statusThenPayload_fault hle, rfl⟩
    · exact ⟨_, statusThenPayload_ok payload, rfl⟩
  · exact ⟨_, statusThenPayload_ok payload, hresp⟩
  · exact ⟨_, statusThenPayload_fault f.code_le_seven, hresp⟩

/-! ### The run of a program whose bytes are sent -/

/-- A command the host can send, with all its bytes at the front of the channel, has a step that takes exactly these. -/
theorem step_hostCommand {c : HostCommand} (hc : sendable c = true) {s : State} {rest : List Byte}
    (hcmd : s.cmd = hostBytes c ++ rest) : ∃ t, step s = .next t ∧ t.cmd = rest := by
  cases c with
  | known i =>
    obtain ⟨t, ht⟩ := exec_next i (s.setCmd rest)
    exact ⟨t, (step_encoded hc hcmd).trans ht, (exec_advances i ht).cmd⟩
  | reserved op =>
    obtain ⟨t, ht⟩ := execReserved_next (s.setCmd rest)
    have hdecode : decode s.cmd = .reserved op rest := hcmd ▸ decode_unassigned (Option.isNone_iff_eq_none.1 hc) rest
    exact ⟨t, (step_reserved hdecode).trans ht, (execReserved_advances ht).cmd⟩

/-- By induction on the program, one step a command. -/
theorem steps_program {program : List HostCommand} (hsend : ∀ c ∈ program, sendable c = true) {s : State}
    (hcmd : s.cmd = programBytes program) :
    ∃ t, steps program.length s = some t ∧ t.cmd = [] ∧ t.cmdSeq = s.cmdSeq + program.length := by
  induction program generalizing s with
  | nil => exact ⟨s, rfl, hcmd, rfl⟩
  | cons c cs ih =>
    obtain ⟨hc, hcs⟩ := List.forall_mem_cons.1 hsend
    obtain ⟨u, hstep, hrest⟩ := step_hostCommand hc (hcmd.trans List.flatMap_cons)
    obtain ⟨t, hsteps, hempty, hseq⟩ := ih hcs hrest
    refine ⟨t, (steps_succ cs.length hstep).trans hsteps, hempty, ?_⟩
    rw [hseq, (step_answers hstep).1, List.length_cons]
    omega

/-- In every state of an epoch the responses are as many as the commands completed (R21). -/
theorem epoch_responseInv {p : Params} {sent : List Byte} {s : State} (h : Epoch p sent s) : s.ResponseInv :=
  epoch_invariant (resetWith_responseInv p) (fun _ _ hs => hs) (fun _ _ hs => step_keeps_responseInv hs) h

/-- The run of a program whose bytes are sent at once ends, with every byte read. -/
theorem runProgram_ends (p : Params) {program : List HostCommand} (hsend : ∀ c ∈ program, sendable c = true) :
    ∃ t, runProgram p program = some t ∧ RunEnds p program t ∧ t.cmd = [] ∧ t.cmdSeq = program.length := by
  obtain ⟨t, hsteps, hempty, hseq⟩ :=
    steps_program hsend (s := hostSend (programBytes program) (State.resetWith p)) rfl
  have hseq : t.cmdSeq = program.length := hseq.trans (Nat.zero_add _)
  have hepoch : Epoch p (programBytes program) t := epoch_steps _ (Epoch.start.send (programBytes program)) hsteps
  exact ⟨t, hsteps, ⟨⟨_, hepoch, List.prefix_rfl⟩, (epoch_responseInv hepoch).1.trans hseq⟩, hempty, hseq⟩

/-- Settles O10: a ready command has a step, each step answers once, and so a run takes one step a command. -/
theorem oneResponsePerCommand : Obligations.OneResponsePerCommand := by
  refine ⟨fun s hle hready => ?_, fun p program hsend => runProgram_ends p hsend⟩
  obtain ⟨t, hstep⟩ := step_next_of_ready hready
  obtain ⟨_, ⟨status, payload, rfl, hstatus, hpayload⟩, hresp⟩ := step_responds hle hstep
  exact ⟨t, status, payload, hstep, hresp, (step_answers hstep).1, hstatus, hpayload⟩

/-! ### The illegal operand -/

/-- WR_BIT with an operand above 1 (R78, R125). -/
theorem exec_wrBit_illegal {b : Byte} (hb : 1 < b.toNat) {s : State} (h0 : s.fault = 0x00#8) :
    exec (.wrBit b) s = .next ((s.setFault 0x07#8).answer [0x07#8]) := by
  unfold exec execWrBit
  exact (command_raise h0 (if_pos hb)).trans (congrArg Host.Outcome.next (takeFault_fresh h0))

/-- A command that starts with FAULT = 0 leaves it 0 or raises what its pseudocode raises. -/
theorem command_fault {body : State → Res (List Byte)} {s t : State} {Q : FaultKind → Prop} (h0 : s.fault = 0x00#8)
    (hbody : (body s).Within (fun u => u.fault = s.fault) Q) (h : command body s = .next t) :
    t.fault = 0x00#8 ∨ ∃ f, Q f ∧ t.fault = f.code := by
  rcases command_cases body s with ⟨hne, -⟩ | ⟨-, p, u, hu, hnext⟩ | ⟨-, f, u, hu, hnext⟩
  · exact absurd h0 hne
  · cases hnext.symm.trans h
    rw [hu] at hbody
    exact .inl (hbody.trans h0)
  · cases hnext.symm.trans h
    rw [hu] at hbody
    obtain ⟨hfault, hf⟩ := hbody
    rw [takeFault_fresh (hfault.trans h0)]
    exact .inr ⟨f, hf, rfl⟩

/-- A command that starts with FAULT = 0 leaves it 0 or raises a fault that its row of R251 marks. -/
theorem exec_fault (i : Instr) {s t : State} (h0 : s.fault = 0x00#8) (h : exec i s = .next t) :
    t.fault = 0x00#8 ∨ ∃ f ∈ canRaise i, t.fault = f.code := by
  obtain ⟨u, hu, ht⟩ := exec_touches i h0 h
  obtain ⟨-, -, hfault, -⟩ := hu.core
  have hfault : u.fault = 0x00#8 := hfault.trans h0
  rcases ht with ⟨p, rfl⟩ | ⟨f, hf, rfl⟩
  · exact .inl ((closing_frame i u).2.1.trans hfault)
  · rw [takeFault_fresh hfault]
    exact .inr ⟨f, hf, rfl⟩

theorem FaultKind.code_eq_seven {f : FaultKind} : f.code = 0x07#8 ↔ f = .illegalCommand := by
  cases f <;> decide

/-- Only the row of WR_BIT marks ILLEGAL_COMMAND (R251). -/
theorem wrBit_of_canRaise_illegalCommand {i : Instr} (h : FaultKind.illegalCommand ∈ canRaise i) : ∃ b, i = .wrBit b := by
  cases i with
  | wrBit b => exact ⟨b, rfl⟩
  | _ => simp [canRaise] at h

/-- WR_BIT with a legal operand raises no ILLEGAL_COMMAND: only the writer check and WriteBit raise (R125). -/
theorem exec_wrBit_legal {b : Byte} (hb : b.toNat ≤ 1) {s t : State} (h0 : s.fault = 0x00#8)
    (h : exec (.wrBit b) s = .next t) : t.fault ≠ 0x07#8 := by
  unfold exec execWrBit at h
  have hfault : t.fault = 0x00#8 ∨ ∃ f, f ≠ .illegalCommand ∧ t.fault = FaultKind.code f := by
    refine command_fault h0 ?_ h
    rw [if_neg (Nat.not_lt.2 hb)]
    cases hc : s.wrClosed with
    | true =>
      rw [checkWriter_closed hc]
      exact ⟨rfl, by decide⟩
    | false =>
      rw [checkWriter_open hc]
      refine ((writeBit_within (b.getLsbD 0) s).mono (fun u hu => ?_) fun f hf => ?_).andThen (fun _ hu => hu)
        fun _ u hu => hu
      · rw [hu.1]
      · rw [hf]; decide
  rcases hfault with hzero | ⟨f, hf, hcode⟩
  · rw [hzero]; decide
  · rw [hcode]
    exact fun hseven => hf (FaultKind.code_eq_seven.1 hseven)

/-- Settles O14: a WR_BIT above 1 raises ILLEGAL_COMMAND and nothing else, and no other command does. -/
theorem onlyIllegalOperandIsWrBit : Obligations.OnlyIllegalOperandIsWrBit := by
  refine ⟨fun b s hb h0 => exec_wrBit_illegal hb h0, fun b s rest hb h0 hcmd => ?_, fun i s t h0 h hseven => ?_,
    decode_code_congr⟩
  · exact (step_encoded (i := .wrBit b) rfl hcmd).trans (exec_wrBit_illegal (s := s.setCmd rest) hb h0)
  · rcases exec_fault i h0 h with hzero | ⟨f, hf, hcode⟩
    · exact absurd (hzero.symm.trans hseven) (by decide)
    · obtain rfl := FaultKind.code_eq_seven.1 (hcode.symm.trans hseven)
      obtain ⟨b, rfl⟩ := wrBit_of_canRaise_illegalCommand hf
      exact ⟨b, rfl, Nat.lt_of_not_le fun hb => exec_wrBit_legal hb h0 h hseven⟩

end Sys2Proof.Machine
end

section
/-! PROOFS. The bit reader statements: RD_BIT (O31), RD_BYTES (O33), byte reads against bit reads (O34), RD_ALIGN (O35) and
what the reader commands leave unchanged (O57). -/

namespace Sys2Proof.Machine

/-! ### RD_BIT -/

/-- RD_BIT takes the fault that ReadBit raises (R103). -/
theorem exec_rdBit_raise {s t : State} {f : FaultKind} (h0 : s.fault = 0x00#8) (h : readBit s = .raise f t) :
    exec .rdBit s = .next (takeFault f t) := by
  unfold exec execRdBit
  exact command_raise h0 (by rw [h, Res.andThen_raise])

/-- Settles O31: what RD_BIT answers in each of ReadBit's three cases. -/
theorem rdBitReadsOneBit : Obligations.RdBitReadsOneBit := by
  refine fun s h0 => ⟨fun h => exec_rdBit_ok h0 (readBit_cached h), fun h hp => exec_rdBit_ok h0 (readBit_fetch h hp),
    fun h hp => ?_⟩
  rw [exec_rdBit_raise h0 (readBit_exhausted h hp), takeFault_fresh h0]
  cases s.par.inTerm <;> rfl

/-! ### RD_BYTES -/

theorem exec_rdBytes_ok {n : U32} {s t : State} {p : List Byte} (h0 : s.fault = 0x00#8)
    (h : readBytes n.toNat s = .ok p t) : exec (.rdBytes n) s = .next (t.answer (0x00#8 :: p)) := by
  unfold exec execRdBytes
  exact command_ok h0 h

theorem exec_rdBytes_raise {n : U32} {s t : State} {f : FaultKind} (h0 : s.fault = 0x00#8)
    (h : readBytes n.toNat s = .raise f t) : exec (.rdBytes n) s = .next (takeFault f t) := by
  unfold exec execRdBytes
  exact command_raise h0 h

/-- A reader move that keeps RD_REM changes RD_CACHE and IN.pos only. -/
theorem ReaderFrame.eq_of_rdRem {s t : State} (h : ReaderFrame s t) (hrem : t.rdRem = s.rdRem) {pos : Nat}
    (hpos : t.inPos = pos) : t = { s with rdCache := t.rdCache, inPos := pos } := by
  subst hpos
  unfold ReaderFrame at h
  rw [hrem] at h
  exact h

/-- An aligned reader's stream is the rest of the source (R101). -/
theorem unreadBits_aligned {s : State} (h : s.rdRem.val = 0) : s.unreadBits = bitsOf (s.par.inBytes.drop s.inPos) := by
  rw [State.unreadBits, h, List.take_zero, List.nil_append]

/-- Whole bytes read by an aligned reader are the source's own next bytes (R101). -/
theorem aligned_bytes {s t : State} {p : List Byte} (hframe : ReaderFrame s t) (hrem : t.rdRem = s.rdRem)
    (haligned : s.rdRem.val = 0) (hbits : s.unreadBits = bitsOf p ++ t.unreadBits) :
    p = (s.par.inBytes.drop s.inPos).take p.length := by
  have hpar : t.par = s.par := hframe.fields.1
  rw [unreadBits_aligned haligned, unreadBits_aligned (hrem ▸ haligned), hpar, ← bitsOf_append] at hbits
  rw [bitsOf_inj hbits, List.take_left]

/-- The code of the fault at the end of IN, by its terminal (R100, C3). -/
theorem terminalFault_code (x : Terminal) :
    x = .endOfSource ∧ (terminalFault x).code = 0x02#8 ∨ x = .error ∧ (terminalFault x).code = 0x01#8 := by
  cases x
  · exact .inl ⟨rfl, rfl⟩
  · exact .inr ⟨rfl, rfl⟩

/-- Settles O33: RD_BYTES answers as its loop does, which returns exactly when IN holds the bytes. -/
theorem rdBytesReadsWholeBytes : Obligations.RdBytesReadsWholeBytes := by
  intro n s h0 hr hp
  have hpost := readBytes_post n.toNat hr hp
  cases he : readBytes n.toNat s with
  | ok p u =>
    rw [he] at hpost
    obtain ⟨hlen, hbits, hframe, hpos, hrem, -, hholds⟩ := hpost
    refine ⟨fun _ => ⟨p, _, exec_rdBytes_ok h0 he, hlen, hbits, fun haligned => ?_, ?_⟩,
      fun hshort => absurd hholds (Nat.not_le.2 hshort)⟩
    · exact hlen ▸ aligned_bytes hframe hrem haligned hbits
    · exact congrArg (State.answer · (0x00#8 :: p)) (hframe.eq_of_rdRem hrem hpos)
  | raise f u =>
    rw [he] at hpost
    obtain ⟨rfl, hframe, hpos, hrem, -, hshort, hbits⟩ := hpost
    refine ⟨fun hholds => absurd hholds (Nat.not_le.2 hshort), fun _ => ?_⟩
    have hfault : u.fault = 0x00#8 := by rw [hframe]; exact h0
    refine ⟨_, _, exec_rdBytes_raise h0 he, terminalFault_code _, ?_, ?_⟩ <;> rw [takeFault_fresh hfault]
    · exact hbits
    · exact congrArg (fun v => (State.setFault v _).answer _) (hframe.eq_of_rdRem hrem hpos)

/-! ### Byte reads and bit reads -/

/-- `n` ReadBit calls deliver the next `n` unread bits and leave the reader as R24 and R25 say. -/
theorem readBits_next {bits : List Bool} {s : State} {rest : List Bool} (hr : s.ReaderInv)
    (hp : s.inPos ≤ s.par.inBytes.length) (h : s.unreadBits = bits ++ rest) :
    ∃ t, readBits bits.length s = .ok bits t ∧ t.unreadBits = rest ∧ ReaderFrame s t ∧ t.ReaderInv ∧
      t.inPos ≤ t.par.inBytes.length := by
  induction bits generalizing s with
  | nil => exact ⟨s, rfl, h, ReaderFrame.refl s, hr, hp⟩
  | cons b bits ih =>
    obtain ⟨u, hu, hrest, hframe⟩ := readBit_next h
    have hkeeps := readBit_keeps hr hp
    rw [hu] at hkeeps
    obtain ⟨t, ht, htail, hframe', hinv⟩ := ih hkeeps.1 hkeeps.2 hrest
    exact ⟨t, by simp [readBits, hu, ht], htail, hframe.trans hframe', hinv⟩

/-- At the end of IN, ReadBit calls beyond the cached bits consume these and then raise the terminal's fault (R100). -/
theorem readBits_exhausted {n : Nat} {s : State} (hn : s.rdRem.val < n) (hp : s.par.inBytes.length ≤ s.inPos) :
    ∃ t, readBits n s = .raise (terminalFault s.par.inTerm) t ∧ t.rdRem.val = 0 ∧ t.inPos = s.inPos := by
  induction n generalizing s with
  | zero => exact absurd hn (Nat.not_lt_zero _)
  | succ n ih =>
    rcases readBit_cases s with ⟨hrem, he⟩ | ⟨-, hlt, -⟩ | ⟨hrem, -, he⟩
    · obtain ⟨t, ht, hrem', hpos⟩ := ih (s := s.setReader (s.rdCache >>> 1) ⟨s.rdRem.val - 1, by omega⟩)
        (show s.rdRem.val - 1 < n by omega) hp
      exact ⟨t, by rw [readBits, he, Res.andThen_ok, ht]; rfl, hrem', hpos⟩
    · exact absurd hlt (Nat.not_lt.2 hp)
    · exact ⟨s, by rw [readBits, he]; rfl, hrem, rfl⟩

/-- The low bits determine a cache whose high bits are 0 (R25). -/
theorem cache_eq_of_take {c d : Byte} {k : Nat} (hk : k ≤ 8) (hc : c.toNat < 2 ^ k) (hd : d.toNat < 2 ^ k)
    (h : (bitsOfByte c).take k = (bitsOfByte d).take k) : c = d := by
  apply bitsOfByte_inj
  rw [padded_bits c k hk hc, padded_bits d k hk hd, h]

/-- The bits still to be delivered determine the reader's registers and IN.pos: at most seven are cached, so their number
tells how many are, and the cache holds nothing else (R24, R25). -/
theorem readerFrame_eq_of_unreadBits {s t u : State} (ht : ReaderFrame s t) (hu : ReaderFrame s u) (hit : t.ReaderInv)
    (hiu : u.ReaderInv) (hpt : t.inPos ≤ t.par.inBytes.length) (hpu : u.inPos ≤ u.par.inBytes.length)
    (h : t.unreadBits = u.unreadBits) : t = u := by
  obtain ⟨ht7, htc⟩ := hit
  obtain ⟨hu7, huc⟩ := hiu
  have hpart : t.par = s.par := ht.fields.1
  have hparu : u.par = s.par := hu.fields.1
  have hlen : t.bitsLeft = u.bitsLeft := by rw [← t.unreadBits_length, ← u.unreadBits_length, h]
  rw [hpart] at hpt
  rw [hparu] at hpu
  simp only [State.bitsLeft, State.inLeft, hpart, hparu] at hlen
  have hrem : t.rdRem = u.rdRem := Fin.ext (by omega)
  have hpos : t.inPos = u.inPos := by omega
  have hcache : t.rdCache = u.rdCache := by
    rw [State.unreadBits, State.unreadBits, hrem] at h
    rw [hrem] at htc
    exact cache_eq_of_take (by omega) htc huc (List.append_inj_left h (by simp))
  unfold ReaderFrame at ht hu
  rw [ht, hu, hrem, hpos, hcache]

/-- Settles O34: a delivered byte is the next eight unread bits, which eight ReadBit calls deliver too, and what is left to
deliver determines the reader; at the end of IN only the ReadBit calls consume the cached bits. -/
theorem byteReadIsEightBitReads : Obligations.ByteReadIsEightBitReads := by
  refine fun s hr => ⟨fun hp => ?_, fun hp => ⟨tryReadByte_term hp, readBits_exhausted (Nat.lt_succ_of_le hr.1) hp⟩⟩
  obtain ⟨v, t, hbyte, hbits, hframe, hpos, -, hinv⟩ := tryReadByte_byte hr hp
  obtain ⟨u, hreads, hrest, hframe', hinv', hpos'⟩ := readBits_next hr (Nat.le_of_lt hp) hbits
  have hend : t.inPos ≤ t.par.inBytes.length := by rw [hpos, hframe.fields.1]; exact hp
  obtain rfl : u = t := readerFrame_eq_of_unreadBits hframe' hframe hinv' hinv hpos' hend hrest
  refine ⟨v, bitsOfByte v, u, hbyte, bitsOfByte_length v ▸ hreads, bitsOfByte_length v, fun i hi => ?_⟩
  rw [List.getD_eq_getElem?_getD, bitsOfByte_getElem? v hi, Option.getD_some]

/-! ### RD_ALIGN -/

/-- RD_ALIGN answers how many bits were cached and empties the cache (R105). -/
theorem exec_rdAlign {s : State} (h0 : s.fault = 0x00#8) :
    exec .rdAlign s = .next ((s.setReader 0x00#8 0).answer [0x00#8, countByte s.rdRem.val]) := by
  unfold exec execRdAlign
  exact command_ok h0 rfl

/-- An aligned reader's cache is 0 already (R25). -/
theorem setReader_zero_of_aligned {s : State} (hr : s.ReaderInv) (h : s.rdRem.val = 0) : s.setReader 0x00#8 0 = s := by
  have hrem : s.rdRem = 0 := Fin.ext h
  have hcache : s.rdCache = 0x00#8 := by
    have hsmall := hr.2
    rw [h] at hsmall
    exact BitVec.eq_of_toNat_eq (Nat.lt_one_iff.1 hsmall)
  rw [← hrem, ← hcache]
  rfl

/-- Settles O35: with no cached bit the reader's invariant makes the cleared cache the old one. -/
theorem rdAlignDiscardsPartialBits : Obligations.RdAlignDiscardsPartialBits := by
  refine fun s h0 => ⟨exec_rdAlign h0, fun hr => ⟨?_, hr.1⟩, fun hr h => ?_⟩
  · rw [BitVec.toNat_ofNat, Nat.mod_eq_of_lt (lt_trans s.rdRem.isLt (by decide))]
  · rw [exec_rdAlign h0, setReader_zero_of_aligned hr h, h]
    rfl

/-! ### Frames -/

/-- Only FAULT, CMDSEQ and the responses differ: what the end of a command changes (R80, R252). -/
def AnswerFrame (s t : State) : Prop := t = { s with fault := t.fault, cmdSeq := t.cmdSeq, resp := t.resp }

theorem AnswerFrame.answer (s : State) (r : List Byte) : AnswerFrame s (s.answer r) := rfl

theorem AnswerFrame.takeFault (f : FaultKind) (s : State) : AnswerFrame s (takeFault f s) := rfl

/-- A command may leave everything as it is. -/
theorem Touches.refl (i : Instr) (s : State) : Touches i s s := by
  cases i with
  | getStatus => rfl
  | rdBit => exact ReaderMoves.refl s
  | rdBytes n => exact ReaderMoves.refl s
  | rdAlign => exact ⟨ReaderMoves.refl s, rfl⟩
  | wrBit b => exact WriterMoves.refl s
  | wrBytes data => exact WriterMoves.refl s
  | wrAlign => exact WriterMoves.refl s
  | wrClose => exact WriterMoves.refl s
  | ctClear => rfl
  | ctLoad sym code => rfl
  | trClear => rfl
  | trInsertStream sym len => exact ⟨rfl, PortsGrow.refl s⟩
  | trInsertCode sym code => rfl
  | encSym sym => exact WriterMoves.refl s
  | compress => exact ⟨⟨rfl, PortsGrow.refl s⟩, rfl⟩
  | decSym => exact ReaderMoves.refl s
  | decompress size => exact ⟨⟨rfl, PortsGrow.refl s⟩, rfl⟩

/-- Every command, whatever FAULT is: what it may touch, the closing of the writer where it closes, and its end. -/
theorem exec_answerFrame (i : Instr) {s t : State} (h : exec i s = .next t) :
    ∃ u, Touches i s u ∧ (AnswerFrame u t ∨ AnswerFrame (closing i u) t) := by
  by_cases h0 : s.fault = 0x00#8
  · obtain ⟨u, hu, ⟨p, rfl⟩ | ⟨f, -, rfl⟩⟩ := exec_touches i h0 h
    · exact ⟨u, hu, .inr (.answer _ _)⟩
    · exact ⟨u, hu, .inl (.takeFault f u)⟩
  · obtain ⟨r, -, rfl⟩ := exec_sticky i h0 h
    exact ⟨s, Touches.refl i s, .inl (.answer s r)⟩

/-- What a reader command touches before its end. -/
theorem exec_reader_frame {i : Instr} (hi : i = .rdBit ∨ (∃ n, i = .rdBytes n) ∨ i = .rdAlign) {s t : State}
    (h : exec i s = .next t) : ∃ u, ReaderFrame s u ∧ AnswerFrame u t ∧ (i = .rdAlign → u.inPos = s.inPos) := by
  obtain ⟨u, hu, ht⟩ := exec_answerFrame i h
  rcases hi with rfl | ⟨n, rfl⟩ | rfl
  · exact ⟨u, hu.1, ht.elim id id, nofun⟩
  · exact ⟨u, hu.1, ht.elim id id, nofun⟩
  · exact ⟨u, hu.1.1, ht.elim id id, fun _ => hu.2⟩

/-- Settles O57: a reader command's body stays in the reader's frame, and its end adds FAULT, CMDSEQ and the responses. -/
theorem readerCommandsFrame : Obligations.ReaderCommandsFrame := by
  intro i s t hi h
  obtain ⟨u, hu, ht, hpos⟩ := exec_reader_frame hi h
  obtain ⟨hpar, hwrCache, hwrCnt, hwrClosed, hctLen, hctBits, hnodes, hdec, henc, -, -, hbytes, hevents, hcmd, -⟩ :=
    hu.fields
  rw [ht]
  exact ⟨hpar, hwrCache, hwrCnt, hwrClosed, hctLen, hctBits, hnodes, hdec, henc, hbytes, hevents, hcmd, hpos⟩

end Sys2Proof.Machine
end

section
/-! PROOFS. The bit writer statements: WR_BIT (O36), WR_BYTES (O37), byte writes against bit writes and the reader (O38),
WR_ALIGN (O39), WR_CLOSE (O40), what these commands leave unchanged (O58), the closed writer (O16) and a failing sink (O17). -/

namespace Sys2Proof.Machine

/-! ### The entry check and the writer check -/

/-- While a fault is pending every command but GET_STATUS answers it (R253). -/
theorem exec_pending {i : Instr} (hi : i ≠ .getStatus) {s : State} (h0 : s.fault ≠ 0x00#8) :
    exec i s = .next (s.answer [s.fault]) := by
  obtain ⟨body, hbody⟩ := (exec_command i).resolve_left hi
  rw [hbody, command_sticky h0]

/-- A command that checks the writer first raises WRITER_UNUSABLE on a closed one, whatever follows the check (R124). -/
theorem command_closed {k : Unit → State → Res (List Byte)} {s : State} (h0 : s.fault = 0x00#8)
    (hclosed : s.wrClosed = true) :
    command (fun s => (checkWriter s).andThen k) s = .next ((s.setFault 0x05#8).answer [0x05#8]) := by
  rw [command_raise h0 (by rw [checkWriter_closed hclosed, Res.andThen_raise]), takeFault_fresh h0]
  rfl

/-- On an open writer it runs what follows the check (R124). -/
theorem command_open {k : Unit → State → Res (List Byte)} {s : State} (hopen : s.wrClosed = false) :
    command (fun s => (checkWriter s).andThen k) s = command (k ()) s := by
  simp only [command, checkWriter_open hopen, Res.andThen_ok]

/-- A legal operand leaves WR_BIT the writer check and WriteBit (R125). -/
theorem exec_wrBit_of_legal {b : Byte} (hb : b.toNat ≤ 1) (s : State) :
    exec (.wrBit b) s = command
      (fun s => (checkWriter s).andThen fun _ s1 => (writeBit (b.getLsbD 0) s1).andThen fun _ s2 => .ok [] s2) s := by
  simp only [exec, execWrBit, if_neg (Nat.not_lt.2 hb)]

/-- Every command of R124, WR_BIT with a legal operand, on a closed writer. -/
theorem exec_closed {i : Instr} (hi : usesWriter i = true) (hlegal : ∀ b, i = .wrBit b → b.toNat ≤ 1) {s : State}
    (h0 : s.fault = 0x00#8) (hclosed : s.wrClosed = true) :
    exec i s = .next ((s.setFault 0x05#8).answer [0x05#8]) := by
  cases i with
  | wrBit b =>
    rw [exec_wrBit_of_legal (hlegal b rfl)]
    exact command_closed h0 hclosed
  | wrBytes data => exact command_closed h0 hclosed
  | wrAlign => exact command_closed h0 hclosed
  | wrClose => exact command_closed h0 hclosed
  | encSym sym => exact command_closed h0 hclosed
  | compress => exact command_closed h0 hclosed
  | decompress size => exact command_closed h0 hclosed
  | _ => exact absurd hi Bool.false_ne_true

/-! ### The closed writer -/

theorem closing_wrClosed (i : Instr) (u : State) :
    (closing i u).wrClosed = true ↔ u.wrClosed = true ∨ i = .wrClose ∨ i = .compress := by
  cases i <;> simp [closing]

/-- WR_CLOSED after a command: what it was, or 1 where WR_CLOSE or COMPRESS succeeded (R29). -/
theorem exec_wrClosed (i : Instr) {s t : State} (h : exec i s = .next t) :
    t.wrClosed = true ↔
      s.wrClosed = true ∨ (i = .wrClose ∨ i = .compress) ∧ s.fault = 0x00#8 ∧ t.fault = 0x00#8 := by
  by_cases h0 : s.fault = 0x00#8
  · obtain ⟨u, hu, ht⟩ := exec_touches i h0 h
    obtain ⟨-, hclosed, hfault, -⟩ := hu.core
    rcases ht with ⟨p, rfl⟩ | ⟨f, -, rfl⟩
    · simp [closing_wrClosed, hclosed, hfault, h0]
    · have hne := takeFault_fault_ne_zero f u
      have hkept : (takeFault f u).wrClosed = s.wrClosed := hclosed
      simp [hne, hkept]
  · obtain ⟨r, -, rfl⟩ := exec_sticky i h0 h
    simp [h0]

/-- Settles O16: the check stands first in every command of R124, and only the two closing commands end with a close. -/
theorem closedWriterIsUnusable : Obligations.ClosedWriterIsUnusable := by
  refine ⟨fun i s hi => ?_, fun i s t h => ?_, fun p s t h => ?_⟩
  · have huses : usesWriter i = true ∧ ∀ b, i = .wrBit b → b.toNat ≤ 1 := by
      rcases hi with ⟨b, rfl, hb⟩ | ⟨data, rfl⟩ | rfl | rfl | ⟨sym, rfl⟩ | rfl | ⟨size, rfl⟩
      · exact ⟨rfl, fun _ h => Instr.wrBit.inj h ▸ hb⟩
      all_goals exact ⟨rfl, nofun⟩
    have hnot : i ≠ .getStatus := fun h => by rw [h] at huses; exact Bool.false_ne_true huses.1
    exact ⟨exec_closed huses.1 huses.2, exec_pending hnot⟩
  · have hiff := exec_wrClosed i h
    exact ⟨fun hclosed => hiff.2 (.inl hclosed), fun hopen => by simpa [hopen] using hiff⟩
  · obtain ⟨-, rfl⟩ := hostReset_some h
    rfl

/-! ### A failing sink -/

/-- The sink answered Ok to every event so far (R53). -/
def State.NoEventFailed (s : State) : Prop := ∀ k < s.outEvents.length, s.sinkOk k = .ok

/-- Where a helper raises: nothing has failed, or the last event has and IO_ERROR is raised (R129). -/
def FailedLast (f : FaultKind) (s : State) : Prop :=
  s.NoEventFailed ∨ f = .ioError ∧ ∀ k < s.outEvents.length, s.sinkOk k = .fail → k + 1 = s.outEvents.length

theorem State.NoEventFailed.congr {s t : State} (h : s.NoEventFailed) (hpar : t.par = s.par)
    (hevents : t.outEvents = s.outEvents) : t.NoEventFailed := by
  simpa only [State.NoEventFailed, State.sinkOk, hpar, hevents] using h

/-- One more event, answered Ok. -/
theorem State.NoEventFailed.snoc {s : State} (hs : s.NoEventFailed) (hok : s.sinkOk s.outEvents.length = .ok)
    (bytes : List Byte) (e : SinkEvent) : (s.setOut bytes (s.outEvents ++ [e])).NoEventFailed := by
  intro k hk
  rcases Nat.lt_succ_iff_lt_or_eq.1 (by simpa using hk) with hlt | rfl
  · exact hs k hlt
  · exact hok

/-- One more event, answered Fail: it is the last. -/
theorem State.NoEventFailed.failedLast {s : State} (hs : s.NoEventFailed) (bytes : List Byte) (e : SinkEvent) :
    FailedLast .ioError (s.setOut bytes (s.outEvents ++ [e])) := by
  refine .inr ⟨rfl, fun k hk hfail => ?_⟩
  rcases Nat.lt_succ_iff_lt_or_eq.1 (by simpa using hk) with hlt | rfl
  · exact absurd ((hs k hlt).symm.trans hfail) nofun
  · simp

theorem emit_keeps_noEventFailed (b : Byte) {s : State} (hs : s.NoEventFailed) :
    (sinkStep (outEmit b s)).Keeps State.NoEventFailed FailedLast := by
  rcases sinkStep_outEmit_cases b s with ⟨hok, he⟩ | ⟨-, bytes, -, he⟩ <;> rw [he]
  · exact hs.snoc hok _ _
  · exact hs.failedLast _ _

theorem flush_keeps_noEventFailed {s : State} (hs : s.NoEventFailed) :
    (sinkStep (outFlush s)).Keeps State.NoEventFailed FailedLast := by
  rcases sinkStep_outFlush_cases s with ⟨hok, he⟩ | ⟨-, he⟩ <;> rw [he]
  · exact hs.snoc hok _ _
  · exact hs.failedLast _ _

theorem writeBit_keeps_noEventFailed (b : Bool) {s : State} (hs : s.NoEventFailed) :
    (writeBit b s).Keeps State.NoEventFailed FailedLast := by
  unfold writeBit
  split
  · exact emit_keeps_noEventFailed (s := s.setWriter 0x00#8 0) _ hs
  · exact hs

theorem alignW_keeps_noEventFailed {s : State} (hs : s.NoEventFailed) :
    (alignW s).Keeps State.NoEventFailed FailedLast := by
  unfold alignW
  split
  · exact (flush_keeps_noEventFailed hs).andThen fun _ _ h => h
  · exact (emit_keeps_noEventFailed (s := s.setWriter 0x00#8 0) _ hs).andThen fun _ _ h =>
      (flush_keeps_noEventFailed h).andThen fun _ _ h => h

theorem ReaderMoves.noEventFailed {s t : State} (h : ReaderMoves s t) (hs : s.NoEventFailed) : t.NoEventFailed := by
  obtain ⟨hpar, -, -, -, -, -, -, -, -, -, -, -, hevents, -⟩ := h.1.fields
  exact hs.congr hpar hevents

theorem noEventFailed_kept : Kept State.NoEventFailed FailedLast where
  imp _ _ h := .inl h
  readBit s hs := (readBit_within s).keeps (fun _ ht => ht.noEventFailed hs) fun _ _ h => .inl h
  tryReadByte s hs := (tryReadByte_moves s).noEventFailed hs
  writeBit b _ := writeBit_keeps_noEventFailed b
  emit d _ hs _ := emit_keeps_noEventFailed d hs
  alignW _ := alignW_keeps_noEventFailed
  setReader _ h := h
  setNodes _ _ h := h
  setCode _ _ _ _ h := h
  clearCodes _ h := h
  setEncCount _ _ h := h
  setDecCount _ _ h := h
  close _ h := h
  answer _ _ h := h
  setCmd _ _ h := h

/-- A command that ends with a failed event took IO_ERROR, and the event is the last. -/
theorem exec_failed_event {i : Instr} {s t : State} {k : Nat} (hs : s.NoEventFailed) (h : exec i s = .next t)
    (hk : k < t.outEvents.length) (hfail : t.sinkOk k = .fail) :
    k + 1 = t.outEvents.length ∧ ∃ u, t = takeFault .ioError u := by
  rcases noEventFailed_kept.exec i hs h with ht | ⟨f, u, hu | ⟨rfl, hlast⟩, rfl⟩
  · exact absurd ((ht k hk).symm.trans hfail) nofun
  · exact absurd ((hu k hk).symm.trans hfail) nofun
  · exact ⟨hlast k hk hfail, u, rfl⟩

/-- The fault that a command takes is the one it stores and answers. -/
theorem exec_takeFault {i : Instr} {s u : State} {f : FaultKind} (h0 : s.fault = 0x00#8)
    (h : exec i s = .next (takeFault f u)) :
    (takeFault f u).fault = f.code ∧ (takeFault f u).resp = s.resp ++ [[f.code]] := by
  obtain ⟨-, ⟨hne, -⟩ | ⟨-, hzero, -⟩ | ⟨-, g, hg, hresp⟩⟩ := exec_answers i h0 h
  · exact absurd h0 hne
  · exact absurd hzero (takeFault_fault_ne_zero f u)
  · have hcode : f.code = g.code := by
      have hlast : u.resp ++ [[f.code]] = s.resp ++ [[g.code]] := hresp
      simpa using (List.append_inj' hlast rfl).2
    rw [hcode]
    exact ⟨hg, hresp⟩

/-- Settles O17: no event has failed while FAULT is 0, so the first that fails ends its command with IO_ERROR, which every
later command answers. -/
theorem sinkFailureIsFatal : Obligations.SinkFailureIsFatal := by
  intro i s t k hinv h0 h _ hk hfail
  obtain ⟨-, -, -, -, -, ⟨-, hdelivered, -⟩, -⟩ := hinv
  have hpar : t.par = s.par := (exec_advances i h).par
  obtain ⟨hlast, u, rfl⟩ := exec_failed_event (hdelivered h0).2 h hk ((State.sinkOk_of_par hpar k).trans hfail)
  obtain ⟨hfault, hresp⟩ := exec_takeFault h0 h
  refine ⟨hfault, hresp, hlast, fun j hj => ?_⟩
  have hpending := exec_pending hj (takeFault_fault_ne_zero .ioError u)
  rwa [hfault] at hpending

/-! ### Writing bits into the cache -/

theorem writeBits_append (as bs : List Bool) (s : State) :
    writeBits (as ++ bs) s = (writeBits as s).andThen fun _ t => writeBits bs t := by
  induction as generalizing s with
  | nil => rfl
  | cons a as ih => simp only [List.cons_append, writeBits, ih, Res.andThen_assoc]

/-- One bit set and the others after it: the bits set together. -/
theorem cacheWithBit_or (s : State) (b : Bool) (bs : List Bool) :
    cacheWithBit s b ||| (byteOfBits bs <<< (s.wrCnt.val + 1)) =
      s.wrCache ||| (byteOfBits (b :: bs) <<< s.wrCnt.val) := by
  have hshift : byteOfBits (b :: bs) <<< s.wrCnt.val =
      (byteOfBits bs <<< (s.wrCnt.val + 1)) ||| ((if b then 1#8 else 0#8) <<< s.wrCnt.val) := by
    rw [byteOfBits, BitVec.shiftLeft_or_distrib, Nat.add_comm, BitVec.shiftLeft_add]
  rw [hshift]
  cases b
  · simp [cacheWithBit]
  · simp [cacheWithBit, BitVec.or_assoc, BitVec.or_comm]

/-- Bits that do not fill the cache are only set in it (R120). -/
theorem writeBits_partial (bs : List Bool) {s : State} (h : s.wrCnt.val + bs.length < 8) :
    writeBits bs s =
      .ok () (s.setWriter (s.wrCache ||| (byteOfBits bs <<< s.wrCnt.val)) ⟨s.wrCnt.val + bs.length, h⟩) := by
  induction bs generalizing s with
  | nil => simp [writeBits, byteOfBits]
  | cons b bs ih =>
    rw [List.length_cons] at h
    rw [writeBits, writeBit_small b (by omega), Res.andThen_ok, ih (by simp; omega)]
    simp only [State.setWriter_wrCache, State.setWriter_wrCnt, cacheWithBit_or, List.length_cons]
    simp only [State.setWriter, Nat.add_assoc, Nat.add_comm 1]

/-- Bits that fill the cache emit it and leave it empty (R120). -/
theorem writeBits_full (bs : List Bool) {s : State} (h : s.wrCnt.val + bs.length = 8) :
    writeBits bs s =
      sinkStep (outEmit (s.wrCache ||| (byteOfBits bs <<< s.wrCnt.val)) (s.setWriter 0x00#8 0)) := by
  induction bs generalizing s with
  | nil => exact absurd h (by simp; omega)
  | cons b bs ih =>
    rw [← cacheWithBit_or]
    rw [List.length_cons] at h
    cases bs with
    | nil =>
      rw [List.length_nil] at h
      rw [writeBits, writeBit_full b (by omega)]
      cases hr : sinkStep (outEmit (cacheWithBit s b) (s.setWriter 0x00#8 0)) <;> simp [byteOfBits, writeBits, hr]
    | cons b' bs' =>
      rw [List.length_cons] at h
      rw [writeBits, writeBit_small b (by omega), Res.andThen_ok, ih (by simp; omega)]
      rfl

/-! ### Writing a byte -/

/-- The low bits of a byte, moved past `k` cached ones, are the byte moved there. -/
theorem byteOfBits_take_shiftLeft (d : Byte) (k : Nat) :
    byteOfBits ((bitsOfByte d).take (8 - k)) <<< k = d <<< k := by
  apply BitVec.eq_of_getLsbD_eq
  intro i hi
  simp only [BitVec.getLsbD_shiftLeft]
  by_cases hk : i < k
  · simp [hk]
  · rw [byteOfBits_getLsbD _ _ (by omega), List.getD_eq_getElem?_getD, List.getElem?_take_of_lt (by omega),
      bitsOfByte_getElem? d (by omega), Option.getD_some]

/-- The high bits of a byte are the byte moved down. -/
theorem byteOfBits_drop (d : Byte) (n : Nat) : byteOfBits ((bitsOfByte d).drop n) = d >>> n := by
  apply BitVec.eq_of_getLsbD_eq
  intro i hi
  rw [byteOfBits_getLsbD _ _ hi, List.getD_eq_getElem?_getD, List.getElem?_drop, BitVec.getLsbD_ushiftRight]
  by_cases hn : n + i < 8
  · rw [bitsOfByte_getElem? d hn, Option.getD_some]
  · rw [List.getElem?_eq_none (by simp; omega), Option.getD_none, BitVec.getLsbD_of_ge _ _ (by omega)]

/-- An aligned writer's cache is 0 already (R28). -/
theorem State.WriterInv.wrCache_eq_zero {s : State} (hw : s.WriterInv) (h : s.wrCnt.val = 0) : s.wrCache = 0x00#8 := by
  have hsmall : s.wrCache.toNat < 2 ^ s.wrCnt.val := hw
  rw [h] at hsmall
  exact BitVec.eq_of_toNat_eq (Nat.lt_one_iff.1 hsmall)

/-- So emptying the cache of an aligned writer changes nothing. -/
theorem State.WriterInv.setWriter_zero {s : State} (hw : s.WriterInv) (h : s.wrCnt.val = 0) :
    s.setWriter 0x00#8 0 = s := by
  have hcnt : s.wrCnt = 0 := Fin.ext h
  rw [← hw.wrCache_eq_zero h, ← hcnt, State.setWriter_self]

theorem writeByte_aligned (d : Byte) {s : State} (h : s.wrCnt.val = 0) : writeByte d s = sinkStep (outEmit d s) :=
  if_pos (Fin.ext h)

/-- The byte that WriteByte emits: the cached bits, then the low bits of the data byte (R123). -/
def State.joinedByte (s : State) (d : Byte) : Byte := s.wrCache ||| (d <<< s.wrCnt.val)

theorem State.WriterInv.joinedByte_aligned {s : State} (hw : s.WriterInv) (h : s.wrCnt.val = 0) (d : Byte) :
    s.joinedByte d = d := by
  simp [State.joinedByte, hw.wrCache_eq_zero h, h]

/-- Fewer than eight bits written into an empty cache are its bits. -/
theorem writeBits_empty {bs : List Bool} {s : State} (hcache : s.wrCache = 0x00#8) (hcnt : s.wrCnt = 0)
    (h : bs.length < 8) : writeBits bs s = .ok () (s.setWriter (byteOfBits bs) ⟨bs.length, h⟩) := by
  rw [writeBits_partial bs (by simpa [hcnt] using h)]
  simp [hcache, hcnt]

/-- WriteByte, aligned or not, emits one byte and keeps the high bits of the data byte (R121, R123). -/
theorem writeByte_eq (d : Byte) {s : State} (hw : s.WriterInv) :
    writeByte d s = (sinkStep (outEmit (s.joinedByte d) (s.setWriter 0x00#8 0))).andThen fun _ t =>
      .ok () (t.setWriter (d >>> (8 - s.wrCnt.val)) s.wrCnt) := by
  by_cases h : s.wrCnt.val = 0
  · rw [writeByte_aligned d h, hw.joinedByte_aligned h, hw.setWriter_zero h]
    have hcnt : s.wrCnt = 0 := Fin.ext h
    have hkept : d >>> 8 = s.wrCache := by rw [hw.wrCache_eq_zero h, BitVec.ushiftRight_eq_zero (Nat.le_refl 8)]
    rcases sinkStep_outEmit_cases d s with ⟨-, he⟩ | ⟨-, bytes, -, he⟩ <;> rw [he]
    · rw [Res.andThen_ok, h, hkept]
      rfl
    · rfl
  · have hne : s.wrCnt ≠ 0 := fun e => h (congrArg Fin.val e)
    have hlow : s.wrCnt.val + ((bitsOfByte d).take (8 - s.wrCnt.val)).length = 8 := by simp
    have hhigh : ((bitsOfByte d).drop (8 - s.wrCnt.val)).length = s.wrCnt.val := by simp; omega
    rw [writeByte, if_neg hne, ← List.take_append_drop (8 - s.wrCnt.val) (bitsOfByte d), writeBits_append,
      writeBits_full _ hlow, byteOfBits_take_shiftLeft, ← State.joinedByte]
    rcases sinkStep_outEmit_cases (s.joinedByte d) (s.setWriter 0x00#8 0) with ⟨-, he⟩ | ⟨-, bytes, -, he⟩ <;> rw [he]
    · rw [Res.andThen_ok, Res.andThen_ok, writeBits_empty rfl rfl (hhigh.trans_lt s.wrCnt.isLt), byteOfBits_drop]
      simp only [hhigh]
    · rfl

/-! ### Emits and flushes that fail -/

theorem sinkStep_outEmit_fail {b : Byte} {s : State} (h : s.sinkOk s.outEvents.length = .fail) :
    ∃ bytes, (bytes = s.outBytes ∨ bytes = s.outBytes ++ [b]) ∧
      sinkStep (outEmit b s) = .raise .ioError (s.setOut bytes (s.outEvents ++ [.emit b])) := by
  obtain ⟨bytes, hbytes, he⟩ := outEmit_fail (b := b) h
  exact ⟨bytes, hbytes, by rw [he]; rfl⟩

theorem sinkStep_outFlush_fail {s : State} (h : s.sinkOk s.outEvents.length = .fail) :
    sinkStep (outFlush s) = .raise .ioError (s.setOut s.outBytes (s.outEvents ++ [.flush])) := by
  rw [outFlush, h]
  rfl

/-! ### WR_BIT -/

/-- WR_BIT takes the fault that WriteBit raises (R125). -/
theorem exec_wrBit_raise {s t : State} {b : Byte} {f : FaultKind} (h0 : s.fault = 0x00#8) (hopen : s.wrClosed = false)
    (hb : b.toNat ≤ 1) (h : writeBit (b.getLsbD 0) s = .raise f t) : exec (.wrBit b) s = .next (takeFault f t) := by
  rw [exec_wrBit_of_legal hb, command_open hopen]
  exact command_raise h0 (by rw [h, Res.andThen_raise])

/-- A legal operand is its own bit 0. -/
theorem cacheWithBit_operand (s : State) {b : Byte} (hb : b.toNat ≤ 1) :
    cacheWithBit s (b.getLsbD 0) = if b = 0x01#8 then s.wrCache ||| (1#8 <<< s.wrCnt.val) else s.wrCache := by
  obtain rfl | rfl : b = 0x00#8 ∨ b = 0x01#8 := by bv_omega
  · rfl
  · rfl

/-- Settles O36: the operand, then the writer, and then WriteBit's own cases. -/
theorem wrBitSetsOneBit : Obligations.WrBitSetsOneBit := by
  refine ⟨fun b s h0 => ⟨fun hb => exec_wrBit_illegal hb h0, fun hb hclosed => ?_⟩, fun b s v h0 hopen hb hv => ?_⟩
  · exact exec_closed (i := .wrBit b) rfl (fun _ h => Instr.wrBit.inj h ▸ hb) h0 hclosed
  · rw [← cacheWithBit_operand s hb] at hv
    subst hv
    refine ⟨fun h => exec_wrBit_ok h0 hopen hb (writeBit_small _ h), fun h hok => ?_, fun h hfail => ?_⟩
    · exact exec_wrBit_ok h0 hopen hb ((writeBit_full _ h).trans (sinkStep_outEmit_ok hok))
    · obtain ⟨bytes, hbytes, he⟩ :=
        sinkStep_outEmit_fail (b := cacheWithBit s (b.getLsbD 0)) (s := s.setWriter 0x00#8 0) hfail
      exact ⟨bytes, hbytes, (exec_wrBit_raise h0 hopen hb ((writeBit_full _ h).trans he)).trans
        (congrArg _ (takeFault_fresh h0))⟩

/-! ### WR_BYTES -/

theorem exec_wrBytes_ok {data : List Byte} {s t : State} (h0 : s.fault = 0x00#8) (hopen : s.wrClosed = false)
    (h : writeBytes data s = .ok () t) : exec (.wrBytes data) s = .next (t.answer [0x00#8]) :=
  (command_open hopen).trans (command_ok h0 (by rw [h, Res.andThen_ok]))

theorem exec_wrBytes_raise {data : List Byte} {s t : State} {f : FaultKind} (h0 : s.fault = 0x00#8)
    (hopen : s.wrClosed = false) (h : writeBytes data s = .raise f t) :
    exec (.wrBytes data) s = .next (takeFault f t) :=
  (command_open hopen).trans (command_raise h0 (by rw [h, Res.andThen_raise]))

theorem writeBytes_append (as bs : List Byte) (s : State) :
    writeBytes (as ++ bs) s = (writeBytes as s).andThen fun _ t => writeBytes bs t := by
  induction as generalizing s with
  | nil => rfl
  | cons a as ih => simp only [List.cons_append, writeBytes, ih, Res.andThen_assoc]

/-- The bits in the writer's cache (R56). -/
def State.cachedBits (s : State) : List Bool := (bitsOfByte s.wrCache).take s.wrCnt.val

theorem State.cachedBits_aligned {s : State} (h : s.wrCnt.val = 0) : s.cachedBits = [] := by
  rw [State.cachedBits, h, List.take_zero]

/-- `n` bytes of data were written with every emit answered Ok: `n` bytes were emitted, and WR_CNT is as it was (R126). -/
structure WroteBytes (s t : State) (data emitted : List Byte) : Prop where
  count : emitted.length = data.length
  bits : s.cachedBits ++ bitsOf data = bitsOf emitted ++ t.cachedBits
  inv : t.WriterInv
  state : t = { s with wrCache := t.wrCache, outBytes := s.outBytes ++ emitted,
                       outEvents := s.outEvents ++ emitted.map .emit }

theorem Wrote.wroteBytes {s t : State} {data : List Byte} (hframe : WriterFrame s t) (h : Wrote s t (bitsOf data)) :
    ∃ emitted, WroteBytes s t data emitted := by
  obtain ⟨-, hbits, hinv, emitted, hbytes, hevents, hcount, -⟩ := h
  have hs := s.wrCnt.isLt
  have ht := t.wrCnt.isLt
  rw [bitsOf_length] at hcount
  have hcnt : t.wrCnt = s.wrCnt := Fin.ext (by omega)
  refine ⟨emitted, by omega, ?_, hinv, ?_⟩
  · rw [State.writtenBits, State.writtenBits, hbytes, bitsOf_append, List.append_assoc, List.append_assoc] at hbits
    exact (List.append_cancel_left hbits).symm
  · unfold WriterFrame at hframe
    rw [hcnt, hbytes, hevents] at hframe
    exact hframe

/-- What writing bytes leaves of the registers that name the next emit. -/
theorem WroteBytes.fields {s t : State} {data emitted : List Byte} (h : WroteBytes s t data emitted) :
    t.par = s.par ∧ t.wrCnt = s.wrCnt ∧ t.outBytes = s.outBytes ++ emitted ∧
    t.outEvents = s.outEvents ++ emitted.map .emit := by
  rw [h.state]
  exact ⟨rfl, rfl, rfl, rfl⟩

/-- Data written by an aligned writer comes out unchanged (R121). -/
theorem WroteBytes.aligned {s t : State} {data emitted : List Byte} (h : WroteBytes s t data emitted)
    (haligned : s.wrCnt.val = 0) : emitted = data := by
  obtain ⟨-, hcnt, -, -⟩ := h.fields
  have hbits := h.bits
  rw [State.cachedBits_aligned haligned, State.cachedBits_aligned (by rw [hcnt, haligned]), List.append_nil,
    List.nil_append] at hbits
  exact (bitsOf_inj hbits).symm

theorem WroteBytes.writtenBits {s t : State} {data emitted : List Byte} (h : WroteBytes s t data emitted) :
    t.writtenBits = s.writtenBits ++ bitsOf data := by
  obtain ⟨-, -, hbytes, -⟩ := h.fields
  change bitsOf t.outBytes ++ t.cachedBits = bitsOf s.outBytes ++ s.cachedBits ++ bitsOf data
  rw [hbytes, bitsOf_append, List.append_assoc, List.append_assoc, h.bits]

/-- WriteByte of each byte, where the sink answers Ok to them all. -/
theorem writeBytes_emits (data : List Byte) {s : State} (hw : s.WriterInv) (hs : s.SinkOkFor data.length) :
    ∃ t emitted, writeBytes data s = .ok () t ∧ WroteBytes s t data emitted := by
  obtain ⟨t, ht, hframe, hwrote⟩ := writeBytes_ok data hw hs
  obtain ⟨emitted, h⟩ := hwrote.wroteBytes hframe
  exact ⟨t, emitted, ht, h⟩

/-- WriteByte where the sink answers Fail: the joined byte is lost or out, and the cache is empty (R121, R129). -/
theorem writeByte_fail (d : Byte) {s : State} (hw : s.WriterInv) (hfail : s.sinkOk s.outEvents.length = .fail) :
    ∃ bytes, (bytes = s.outBytes ∨ bytes = s.outBytes ++ [s.joinedByte d]) ∧
      writeByte d s = .raise .ioError
        ((s.setWriter 0x00#8 0).setOut bytes (s.outEvents ++ [.emit (s.joinedByte d)])) := by
  obtain ⟨bytes, hbytes, he⟩ := sinkStep_outEmit_fail (b := s.joinedByte d) (s := s.setWriter 0x00#8 0) hfail
  exact ⟨bytes, hbytes, by rw [writeByte_eq d hw, he]; rfl⟩

/-- The byte that WriteByte emits is the first eight of the cached bits followed by the data byte's (R123). -/
theorem joinedByte_bits (d : Byte) {s : State} (hw : s.WriterInv) :
    s.cachedBits ++ bitsOfByte d =
      bitsOfByte (s.joinedByte d) ++ (bitsOfByte (d >>> (8 - s.wrCnt.val))).take s.wrCnt.val :=
  reassemble s.wrCache d s.wrCnt.val (by omega) hw

theorem take_bitsOf (bs : List Byte) (n : Nat) : (bitsOf bs).take (8 * n) = bitsOf (bs.take n) := by
  by_cases h : n ≤ bs.length
  · conv_lhs => rw [← List.take_append_drop n bs, bitsOf_append]
    exact List.take_left' (by rw [bitsOf_length, List.length_take, Nat.min_eq_left h])
  · rw [List.take_of_length_le (by rw [bitsOf_length]; omega), List.take_of_length_le (by omega)]

/-- The bytes emitted before a failing emit and the byte of that emit are the first whole bytes of the cached bits followed
by the data. -/
theorem WroteBytes.joined_bits {s u : State} {before emitted : List Byte} (h : WroteBytes s u before emitted) (d : Byte)
    (rest : List Byte) : bitsOf (emitted ++ [u.joinedByte d]) =
      (s.cachedBits ++ bitsOf (before ++ d :: rest)).take (8 * (before.length + 1)) := by
  have hjoin : s.cachedBits ++ bitsOf (before ++ d :: rest) = bitsOf (emitted ++ [u.joinedByte d]) ++
      ((bitsOfByte (d >>> (8 - u.wrCnt.val))).take u.wrCnt.val ++ bitsOf rest) := by
    calc s.cachedBits ++ bitsOf (before ++ d :: rest)
        = (s.cachedBits ++ bitsOf before) ++ (bitsOfByte d ++ bitsOf rest) := by simp
      _ = bitsOf emitted ++ (u.cachedBits ++ bitsOfByte d) ++ bitsOf rest := by simp [h.bits]
      _ = _ := by simp [joinedByte_bits d h.inv]
  rw [hjoin, List.take_left' (by rw [bitsOf_length, List.length_append, h.count]; rfl)]

/-- WriteByte of each byte up to the first whose emit fails (R126). -/
theorem writeBytes_fail {before rest : List Byte} {d : Byte} {s : State} (hw : s.WriterInv)
    (hs : s.SinkOkFor before.length) (hfail : s.sinkOk (s.outEvents.length + before.length) = .fail) :
    ∃ emitted b bytes, emitted.length = before.length ∧
      (bytes = s.outBytes ++ emitted ∨ bytes = s.outBytes ++ emitted ++ [b]) ∧
      bitsOf (emitted ++ [b]) = (s.cachedBits ++ bitsOf (before ++ d :: rest)).take (8 * (before.length + 1)) ∧
      writeBytes (before ++ d :: rest) s = .raise .ioError
        { s with wrCache := 0x00#8, wrCnt := 0, outBytes := bytes,
                 outEvents := s.outEvents ++ emitted.map .emit ++ [.emit b] } := by
  obtain ⟨u, emitted, hu, h⟩ := writeBytes_emits before hw hs
  obtain ⟨hpar, -, hbytes, hevents⟩ := h.fields
  have hnext : u.sinkOk u.outEvents.length = .fail := by
    rw [State.sinkOk_of_par hpar, hevents, List.length_append, List.length_map, h.count, hfail]
  obtain ⟨bytes, hout, hd⟩ := writeByte_fail d h.inv hnext
  rw [hbytes] at hout
  refine ⟨emitted, u.joinedByte d, bytes, h.count, hout, h.joined_bits d rest, ?_⟩
  have hstate : (u.setWriter 0x00#8 0).setOut bytes (u.outEvents ++ [.emit (u.joinedByte d)]) =
      { s with wrCache := 0x00#8, wrCnt := 0, outBytes := bytes,
               outEvents := s.outEvents ++ emitted.map .emit ++ [.emit (u.joinedByte d)] } := by
    rw [hevents, h.state]
    rfl
  rw [writeBytes_append, hu, Res.andThen_ok, writeBytes, hd, Res.andThen_raise, hstate]

/-- Settles O37: the bytes before the first failing emit are written as if there were no more, and the failing byte is the
cached bits joined with the next data byte. -/
theorem wrBytesWritesEveryByte : Obligations.WrBytesWritesEveryByte := by
  refine fun data s h0 => ⟨exec_closed (i := .wrBytes data) rfl nofun h0, fun hopen hw hs => ?_,
    fun hopen hw k hk hs hfail => ?_⟩
  · obtain ⟨t, emitted, ht, h⟩ := writeBytes_emits data hw hs
    exact ⟨emitted, _, exec_wrBytes_ok h0 hopen ht, h.count, h.writtenBits, h.aligned,
      congrArg (State.answer · [0x00#8]) h.state⟩
  · obtain ⟨before, d, rest, rfl, rfl⟩ : ∃ before d rest, data = before ++ d :: rest ∧ before.length = k :=
      ⟨data.take k, data[k], data.drop (k + 1), by simp, by simp; omega⟩
    obtain ⟨emitted, b, bytes, hlen, hbytes, hbits, hraise⟩ := writeBytes_fail (d := d) (rest := rest) hw hs hfail
    refine ⟨emitted, b, bytes, _, exec_wrBytes_raise h0 hopen hraise, hlen, hbytes, hbits, fun haligned => ?_,
      takeFault_fresh h0⟩
    rw [State.cachedBits_aligned haligned, List.nil_append, take_bitsOf] at hbits
    exact bitsOf_inj hbits

/-! ### Byte writes, bit writes and the reader -/

theorem writeByte_ok_eq (d : Byte) {s : State} (hw : s.WriterInv) (hok : s.sinkOk s.outEvents.length = .ok) :
    writeByte d s = .ok () { s with wrCache := d >>> (8 - s.wrCnt.val), outBytes := s.outBytes ++ [s.joinedByte d],
                                    outEvents := s.outEvents ++ [.emit (s.joinedByte d)] } := by
  rw [writeByte_eq d hw, sinkStep_outEmit_ok (s := s.setWriter 0x00#8 0) hok]
  rfl

/-- Eight bits written by an aligned writer are their byte, emitted at once (R123). -/
theorem writeByte_eq_writeBits (d : Byte) {s : State} (hw : s.WriterInv) (h : s.wrCnt.val = 0) :
    writeByte d s = writeBits (bitsOfByte d) s := by
  rw [writeByte_aligned d h, writeBits_full _ (by rw [h, bitsOfByte_length]), byteOfBits_bitsOfByte,
    ← State.joinedByte, hw.joinedByte_aligned h, hw.setWriter_zero h]

/-- What an aligned writer emits for some bits followed by AlignW (R122, R123). -/
theorem writeBits_alignW_bits {bits : List Bool} {s t u : State} {pad : Nat} (hw : s.WriterInv) (h : s.wrCnt.val = 0)
    (ht : writeBits bits s = .ok () t) (hu : alignW t = .ok pad u) :
    ∃ emitted, u.outBytes = s.outBytes ++ emitted ∧ bitsOf emitted = bits ++ List.replicate pad false := by
  have hwrite := writeBits_post bits hw
  rw [ht] at hwrite
  obtain ⟨-, hwrote⟩ := hwrite
  have halign := alignW_post hwrote.inv
  rw [hu] at halign
  have hmoves := alignW_within t
  rw [hu] at hmoves
  obtain ⟨early, hearly, -⟩ := hwrote.emitted
  obtain ⟨-, -, -, ⟨late, hlate⟩, -⟩ := hmoves
  have hbytes : u.outBytes = s.outBytes ++ (early ++ late) := by rw [← hlate, hearly, List.append_assoc]
  refine ⟨early ++ late, hbytes, ?_⟩
  have hbits : bitsOf u.outBytes = bitsOf s.outBytes ++ (bits ++ List.replicate pad false) := by
    rw [halign.bits hwrote.inv, hwrote.bits, State.writtenBits, h, List.take_zero, List.append_nil, List.append_assoc]
  rw [hbytes, bitsOf_append] at hbits
  exact List.append_cancel_left hbits

/-- As many ReadBit calls as there are bits ahead deliver these. -/
theorem readBits_of_unreadBits {bits rest : List Bool} {r : State} (h : r.unreadBits = bits ++ rest) :
    ∃ r', readBits bits.length r = .ok bits r' ∧ r'.unreadBits = rest := by
  induction bits generalizing r with
  | nil => exact ⟨r, rfl, h⟩
  | cons b bits ih =>
    obtain ⟨u, hu, hahead, -⟩ := readBit_next h
    obtain ⟨r', hr', hrest⟩ := ih hahead
    exact ⟨r', by simp [readBits, hu, hr'], hrest⟩

/-- Settles O38: WriteByte's one equation gives both forms, and the writer's stream is the reader's. -/
theorem writeByteIsEightBitWrites : Obligations.WriteByteIsEightBitWrites := by
  refine ⟨fun d s hw h => ⟨writeByte_eq_writeBits d hw h, fun hok => ?_, hw.wrCache_eq_zero h⟩,
    fun d s v hw _ hok hv => ?_, fun bits s t u pad hw h ht hu => ?_⟩
  · rw [writeByte_aligned d h]
    exact sinkStep_outEmit_ok hok
  · subst hv
    exact writeByte_ok_eq d hw hok
  · obtain ⟨emitted, hbytes, hbits⟩ := writeBits_alignW_bits hw h ht hu
    refine ⟨emitted, hbytes, fun r hrem hsource => readBits_of_unreadBits ?_⟩
    rw [unreadBits_aligned hrem, hsource, hbits]

/-! ### AlignW and the flush -/

/-- AlignW of an aligned writer only flushes (R122). -/
theorem alignW_aligned {s : State} (h : s.wrCnt.val = 0) :
    alignW s = (sinkStep (outFlush s)).andThen fun _ t => .ok 0 t :=
  if_pos (Fin.ext h)

/-- AlignW of a partial byte emits it and flushes (R122). -/
theorem alignW_partial {s : State} (h : s.wrCnt.val ≠ 0) :
    alignW s = (sinkStep (outEmit s.wrCache (s.setWriter 0x00#8 0))).andThen fun _ t =>
      (sinkStep (outFlush t)).andThen fun _ u => .ok (8 - s.wrCnt.val) u :=
  if_neg fun e => h (congrArg Fin.val e)

theorem alignW_aligned_ok {s : State} (h : s.wrCnt.val = 0) (hok : s.sinkOk s.outEvents.length = .ok) :
    alignW s = .ok 0 { s with outEvents := s.outEvents ++ [.flush] } := by
  rw [alignW_aligned h, sinkStep_outFlush_ok hok]
  rfl

theorem alignW_aligned_fail {s : State} (h : s.wrCnt.val = 0) (hfail : s.sinkOk s.outEvents.length = .fail) :
    alignW s = .raise .ioError { s with outEvents := s.outEvents ++ [.flush] } := by
  rw [alignW_aligned h, sinkStep_outFlush_fail hfail]
  rfl

/-- The partial byte's emit fails: there is no flush. -/
theorem alignW_partial_emit_fail {s : State} (h : s.wrCnt.val ≠ 0) (hfail : s.sinkOk s.outEvents.length = .fail) :
    ∃ bytes, (bytes = s.outBytes ∨ bytes = s.outBytes ++ [s.wrCache]) ∧
      alignW s = .raise .ioError { s with wrCache := 0x00#8, wrCnt := 0, outBytes := bytes,
                                          outEvents := s.outEvents ++ [.emit s.wrCache] } := by
  obtain ⟨bytes, hbytes, he⟩ := sinkStep_outEmit_fail (b := s.wrCache) (s := s.setWriter 0x00#8 0) hfail
  exact ⟨bytes, hbytes, by rw [alignW_partial h, he]; rfl⟩

/-- The state after the partial byte is out and the sink was asked to flush. -/
def State.paddedOut (s : State) : State :=
  { s with wrCache := 0x00#8, wrCnt := 0, outBytes := s.outBytes ++ [s.wrCache],
           outEvents := s.outEvents ++ [.emit s.wrCache, .flush] }

/-- The partial byte's emit is answered Ok: what is left is the flush. -/
theorem alignW_partial_emit_ok {s : State} (h : s.wrCnt.val ≠ 0) (hok : s.sinkOk s.outEvents.length = .ok) :
    (s.sinkOk (s.outEvents.length + 1) = .ok → alignW s = .ok (8 - s.wrCnt.val) s.paddedOut) ∧
    (s.sinkOk (s.outEvents.length + 1) = .fail → alignW s = .raise .ioError s.paddedOut) := by
  have hstep : alignW s = (sinkStep (outFlush ((s.setWriter 0x00#8 0).setOut (s.outBytes ++ [s.wrCache])
      (s.outEvents ++ [.emit s.wrCache])))).andThen fun _ u => .ok (8 - s.wrCnt.val) u := by
    rw [alignW_partial h, sinkStep_outEmit_ok (s := s.setWriter 0x00#8 0) hok]
    rfl
  have hnext : (s.outEvents ++ [SinkEvent.emit s.wrCache]).length = s.outEvents.length + 1 := List.length_append
  refine ⟨fun hflush => ?_, fun hflush => ?_⟩
  · rw [hstep, sinkStep_outFlush_ok (by simpa [hnext] using hflush)]
    simp [State.paddedOut, State.setOut, State.setWriter]
  · rw [hstep, sinkStep_outFlush_fail (by simpa [hnext] using hflush)]
    simp [State.paddedOut, State.setOut, State.setWriter]

/-- AlignW raises IO_ERROR where the sink answers Fail to its emit or its flush, and WR_CLOSED is as it was. -/
theorem alignW_raise {s : State} (hfail : s.sinkOk s.outEvents.length = .fail ∨
    s.wrCnt.val ≠ 0 ∧ s.sinkOk (s.outEvents.length + 1) = .fail) :
    ∃ u, alignW s = .raise .ioError u ∧ u.wrClosed = s.wrClosed ∧ u.fault = s.fault := by
  by_cases h : s.wrCnt.val = 0
  · exact ⟨_, alignW_aligned_fail h (hfail.resolve_right fun hr => hr.1 h), rfl, rfl⟩
  · cases hemit : s.sinkOk s.outEvents.length with
    | fail =>
      obtain ⟨bytes, -, he⟩ := alignW_partial_emit_fail h hemit
      exact ⟨_, he, rfl, rfl⟩
    | ok =>
      have hflush := (hfail.resolve_left fun hl => nomatch hemit.symm.trans hl).2
      exact ⟨_, (alignW_partial_emit_ok h hemit).2 hflush, rfl, rfl⟩

/-! ### WR_ALIGN -/

theorem exec_wrAlign_ok {s t : State} {pad : Nat} (h0 : s.fault = 0x00#8) (hopen : s.wrClosed = false)
    (h : alignW s = .ok pad t) : exec .wrAlign s = .next (t.answer [0x00#8, countByte pad]) :=
  (command_open hopen).trans (command_ok h0 (by rw [h, Res.andThen_ok]))

theorem exec_wrAlign_raise {s t : State} {f : FaultKind} (h0 : s.fault = 0x00#8) (hopen : s.wrClosed = false)
    (h : alignW s = .raise f t) : exec .wrAlign s = .next (takeFault f t) :=
  (command_open hopen).trans (command_raise h0 (by rw [h, Res.andThen_raise]))

/-- Settles O39: the writer check, and then AlignW's own cases. -/
theorem wrAlignPadsAndFlushes : Obligations.WrAlignPadsAndFlushes := by
  refine fun s h0 => ⟨exec_closed (i := .wrAlign) rfl nofun h0, fun hopen h hok => ?_, fun hopen h hfail => ?_,
    fun hopen h hok hflush => ?_, fun hopen h hok hflush => ?_, fun hopen h hfail => ?_, fun hw _ => getLsbD_of_small hw⟩
  · exact exec_wrAlign_ok h0 hopen (alignW_aligned_ok h hok)
  · exact (exec_wrAlign_raise h0 hopen (alignW_aligned_fail h hfail)).trans (congrArg _ (takeFault_fresh h0))
  · exact exec_wrAlign_ok h0 hopen ((alignW_partial_emit_ok h hok).1 hflush)
  · exact (exec_wrAlign_raise h0 hopen ((alignW_partial_emit_ok h hok).2 hflush)).trans
      (congrArg _ (takeFault_fresh h0))
  · obtain ⟨bytes, hbytes, he⟩ := alignW_partial_emit_fail h hfail
    exact ⟨bytes, hbytes, (exec_wrAlign_raise h0 hopen he).trans (congrArg _ (takeFault_fresh h0))⟩

/-! ### WR_CLOSE -/

theorem exec_wrClose_ok {s t : State} {pad : Nat} (h0 : s.fault = 0x00#8) (hopen : s.wrClosed = false)
    (h : alignW s = .ok pad t) : exec .wrClose s = .next (t.close.answer [0x00#8, countByte pad]) :=
  (command_open hopen).trans (command_ok h0 (by rw [h, Res.andThen_ok]))

theorem exec_wrClose_raise {s t : State} {f : FaultKind} (h0 : s.fault = 0x00#8) (hopen : s.wrClosed = false)
    (h : alignW s = .raise f t) : exec .wrClose s = .next (takeFault f t) :=
  (command_open hopen).trans (command_raise h0 (by rw [h, Res.andThen_raise]))

/-- Settles O40: AlignW's cases again; where it raises, WR_CLOSE and WR_ALIGN take the same fault in the same state. -/
theorem wrCloseAlignsAndCloses : Obligations.WrCloseAlignsAndCloses := by
  refine fun s h0 => ⟨exec_closed (i := .wrClose) rfl nofun h0, fun hopen h hok => ?_, fun hopen h hok hflush => ?_,
    fun hopen hfail => ?_⟩
  · exact exec_wrClose_ok h0 hopen (alignW_aligned_ok h hok)
  · exact exec_wrClose_ok h0 hopen ((alignW_partial_emit_ok h hok).1 hflush)
  · obtain ⟨u, hu, hclosed, hfault⟩ := alignW_raise hfail
    refine ⟨_, exec_wrClose_raise h0 hopen hu, exec_wrAlign_raise h0 hopen hu, hclosed.trans hopen, ?_⟩
    rw [takeFault_fresh (hfault.trans h0)]
    rfl

/-! ### Frames -/

/-- What a writer command touches before its end, where WR_CLOSE may close the writer. -/
theorem exec_writer_frame {i : Instr} (hi : (∃ b, i = .wrBit b) ∨ (∃ data, i = .wrBytes data) ∨ i = .wrAlign ∨ i = .wrClose)
    {s t : State} (h : exec i s = .next t) :
    ∃ u, WriterFrame s u ∧ (AnswerFrame u t ∨ i = .wrClose ∧ AnswerFrame u.close t) := by
  obtain ⟨u, hu, ht⟩ := exec_answerFrame i h
  rcases hi with ⟨b, rfl⟩ | ⟨data, rfl⟩ | rfl | rfl
  · exact ⟨u, hu.1, .inl (ht.elim id id)⟩
  · exact ⟨u, hu.1, .inl (ht.elim id id)⟩
  · exact ⟨u, hu.1, .inl (ht.elim id id)⟩
  · exact ⟨u, hu.1, ht.imp_right fun hclose => ⟨rfl, hclose⟩⟩

/-- Settles O58: a writer command's body stays in the writer's frame, WR_CLOSE may close the writer, and the end adds
FAULT, CMDSEQ and the responses. -/
theorem writerCommandsFrame : Obligations.WriterCommandsFrame := by
  intro i s t hi h
  obtain ⟨u, hu, ht⟩ := exec_writer_frame hi h
  obtain ⟨hpar, hrdCache, hrdRem, hwrClosed, hctLen, hctBits, hnodes, hdec, henc, -, -, hpos, hcmd, -⟩ := hu.fields
  rcases ht with ht | ⟨rfl, ht⟩ <;> rw [ht]
  · exact ⟨hpar, hrdCache, hrdRem, hpos, hctLen, hctBits, hnodes, hdec, henc, hcmd, fun _ => hwrClosed⟩
  · exact ⟨hpar, hrdCache, hrdRem, hpos, hctLen, hctBits, hnodes, hdec, henc, hcmd, fun hne => absurd rfl hne⟩

end Sys2Proof.Machine
end

section
/-! PROOFS. The table statements: CT_LOAD (O42), the cleared tables (O41), inserts of length 0 (O45) and what the table and
trie commands leave unchanged (O59). -/

namespace Sys2Proof.Machine

/-! ### The code table -/

theorem exec_encSym_raise {sym : Byte} {s t : State} {f : FaultKind} (h0 : s.fault = 0x00#8) (hopen : s.wrClosed = false)
    (h : encodeOne sym s = .raise f t) : exec (.encSym sym) s = .next (takeFault f t) :=
  (command_open hopen).trans (command_raise h0 (by rw [h, Res.andThen_raise]))

/-- After CT_CLEAR no symbol is present (R30, R140). -/
theorem clearCodes_codeLen (s : State) (sym : Byte) : s.clearCodes.codeLen sym = 0x00#8 :=
  Vector.getElem_replicate sym.isLt

theorem encodeOne_absent {s : State} {sym : Byte} (h : s.codeLen sym = 0x00#8) :
    encodeOne sym s = .raise .symbolNotInTable s := if_pos h

theorem setCode_codeLen_self (s : State) (sym len : Byte) (code : List Bool) : (s.setCode sym len code).codeLen sym = len :=
  Vector.getElem_set_self sym.isLt

theorem setCode_storedBits_self (s : State) (sym len : Byte) (code : List Bool) :
    (s.setCode sym len code).storedBits sym = code :=
  Vector.getElem_set_self sym.isLt

/-- A code write leaves every other symbol. -/
theorem setCode_ne (s : State) {sym x : Byte} (h : x ≠ sym) (len : Byte) (code : List Bool) :
    (s.setCode sym len code).codeLen x = s.codeLen x ∧ (s.setCode sym len code).storedBits x = s.storedBits x := by
  have hne : sym.toNat ≠ x.toNat := fun e => h (BitVec.eq_of_toNat_eq e.symm)
  exact ⟨Vector.getElem_set_ne sym.isLt x.isLt hne, Vector.getElem_set_ne sym.isLt x.isLt hne⟩

/-- A `len` operand holds the length of a code of at most 255 bits (R9, R74). -/
theorem codeOperandLen_toNat {code : List Bool} (h : code.length ≤ 255) : (codeOperandLen code).toNat = code.length :=
  (BitVec.toNat_ofNat ..).trans (Nat.mod_eq_of_lt (Nat.lt_succ_of_le h))

/-- A stored sequence of the length CT_LEN says is the symbol's code (R30). -/
theorem codeOf_of_length {s : State} {sym : Byte} (h : (s.codeLen sym).toNat = (s.storedBits sym).length) :
    s.codeOf sym = s.storedBits sym := by
  refine List.ext_getElem ((s.codeOf_length sym).trans h) fun n _ hn => ?_
  simp only [State.codeOf, List.getElem_map, List.getElem_range]
  exact List.getD_eq_getElem _ _ hn

/-- Settles O42: CT_LOAD writes the two entries of its symbol, and the length fits its byte. -/
theorem ctLoadSetsOneCode : Obligations.CtLoadSetsOneCode := by
  intro sym code s h0 hcode
  have hbits := setCode_storedBits_self s sym (codeOperandLen code) code
  have hlen : ((s.setCode sym (codeOperandLen code) code).codeLen sym).toNat = code.length := by
    rw [setCode_codeLen_self, codeOperandLen_toNat hcode]
  exact ⟨_, exec_ctLoad_ok sym code h0, hlen, hbits, (codeOf_of_length (hlen.trans (congrArg _ hbits.symm))).trans hbits,
    fun _ hx => setCode_ne s hx (codeOperandLen code) code, rfl⟩

/-! ### The cleared trie -/

theorem exec_decSym_raise {s t : State} {f : FaultKind} (h0 : s.fault = 0x00#8) (h : decodeOne s = .raise f t) :
    exec .decSym s = .next (takeFault f t) := by
  unfold exec execDecSym
  exact command_raise h0 (by rw [h, Res.andThen_raise])

/-- DecodeOne where the root has no branch for the first bit (R170). -/
theorem decodeOne_no_branch {s : State} {b : Bool} {rest : List Bool} (hbits : s.unreadBits = b :: rest)
    (hroot : (s.node 0).child b = none) :
    ∃ t, decodeOne s = .raise .corruptDictionary t ∧ t.unreadBits = rest ∧ ReaderFrame s t := by
  obtain ⟨t, ht, hrest, hframe⟩ := readBit_next hbits
  have hnode : (t.node 0).child b = none := by rwa [State.node_congr (s := s) (by rw [hframe])]
  exact ⟨t, by simp [decodeOne, decodeWalk, ht, hnode], hrest, hframe⟩

/-- Settles O41: after CT_CLEAR no symbol is present, and after TR_CLEAR the root has no branch for the first bit. -/
theorem tablesAreCleared : Obligations.TablesAreCleared := by
  refine fun s h0 => ⟨exec_ctClear_ok h0, exec_trClear_ok h0, fun t sym h hopen => ?_, fun t b rest h hbits => ?_⟩
  · cases (exec_ctClear_ok h0).symm.trans h
    have habsent : encodeOne sym (s.clearCodes.answer [0x00#8]) = _ := encodeOne_absent (clearCodes_codeLen s sym)
    exact (exec_encSym_raise (s := s.clearCodes.answer [0x00#8]) h0 hopen habsent).trans
      (congrArg _ (takeFault_fresh h0))
  · cases (exec_trClear_ok h0).symm.trans h
    obtain ⟨u, hu, hrest, hframe⟩ := decodeOne_no_branch (s := s.clearTrie.answer [0x00#8]) hbits (Node.fresh_child b)
    refine ⟨_, exec_decSym_raise h0 hu, ?_, hrest⟩
    rw [takeFault_fresh (by rw [hframe]; exact h0)]
    rfl

/-! ### The two insert commands -/

theorem exec_trInsertStream_ok {sym len : Byte} {s t : State} (h0 : s.fault = 0x00#8)
    (h : trieInsert sym len.toNat nextStreamBit s = .ok () t) :
    exec (.trInsertStream sym len) s = .next (t.answer [0x00#8]) := by
  unfold exec execTrInsertStream
  exact command_ok h0 (by rw [h, Res.andThen_ok])

theorem exec_trInsertCode_ok {sym : Byte} {code : List Bool} {s t : State} (h0 : s.fault = 0x00#8)
    (h : trieInsert sym code.length (nextCodeBit code) s = .ok () t) :
    exec (.trInsertCode sym code) s = .next (t.answer [0x00#8]) := by
  unfold exec execTrInsertCode
  exact command_ok h0 (by rw [h, Res.andThen_ok])

/-- TR_INSERT_STREAM takes the fault that TrieInsert raises (R145). -/
theorem exec_trInsertStream_raise {sym len : Byte} {s t : State} {f : FaultKind} (h0 : s.fault = 0x00#8)
    (hframe : InsertFrame s t) (h : trieInsert sym len.toNat nextStreamBit s = .raise f t) :
    exec (.trInsertStream sym len) s = .next ((t.setFault f.code).answer [f.code]) := by
  unfold exec execTrInsertStream
  exact (command_raise h0 (by rw [h, Res.andThen_raise])).trans
    (congrArg Host.Outcome.next (takeFault_fresh (by rw [hframe]; exact h0)))

/-- TR_INSERT_CODE takes the fault that TrieInsert raises (R147). -/
theorem exec_trInsertCode_raise {sym : Byte} {code : List Bool} {s t : State} {f : FaultKind} (h0 : s.fault = 0x00#8)
    (hframe : InsertFrame s t) (h : trieInsert sym code.length (nextCodeBit code) s = .raise f t) :
    exec (.trInsertCode sym code) s = .next ((t.setFault f.code).answer [f.code]) := by
  unfold exec execTrInsertCode
  exact (command_raise h0 (by rw [h, Res.andThen_raise])).trans
    (congrArg Host.Outcome.next (takeFault_fresh (by rw [hframe]; exact h0)))

/-- Settles O45: TrieInsert skips a length of 0 before it asks for a bit. -/
theorem zeroLengthInsertsAreSkipped : Obligations.ZeroLengthInsertsAreSkipped :=
  fun _ _ h0 => ⟨exec_trInsertStream_ok h0 rfl, exec_trInsertCode_ok h0 rfl⟩

/-! ### Frames -/

/-- Only the two tables, the bit reader and IN.pos differ. -/
def TableFrame (s t : State) : Prop :=
  t = { s with ctLen := t.ctLen, ctBits := t.ctBits, nodes := t.nodes, rdCache := t.rdCache, rdRem := t.rdRem,
               inPos := t.inPos }

theorem TableFrame.fields {s t : State} (h : TableFrame s t) :
    t.par = s.par ∧ t.wrCache = s.wrCache ∧ t.wrCnt = s.wrCnt ∧ t.wrClosed = s.wrClosed ∧ t.decCount = s.decCount ∧
    t.encCount = s.encCount ∧ t.outBytes = s.outBytes ∧ t.outEvents = s.outEvents ∧ t.cmd = s.cmd := by
  unfold TableFrame at h
  rw [h]
  simp

/-- The table and trie commands touch the two tables and the reader at most, the reader by TR_INSERT_STREAM alone, and none
closes the writer. -/
theorem Touches.table {i : Instr}
    (hi : i = .ctClear ∨ (∃ sym code, i = .ctLoad sym code) ∨ i = .trClear ∨ (∃ sym len, i = .trInsertStream sym len) ∨
      ∃ sym code, i = .trInsertCode sym code) {s u : State} (h : Touches i s u) :
    TableFrame s u ∧ closing i u = u ∧
      (¬ (∃ sym len, i = .trInsertStream sym len) →
        u.rdCache = s.rdCache ∧ u.rdRem = s.rdRem ∧ u.inPos = s.inPos) := by
  rcases hi with rfl | ⟨_, _, rfl⟩ | rfl | ⟨sym, len, rfl⟩ | ⟨_, _, rfl⟩
  · rw [h]; exact ⟨rfl, rfl, fun _ => ⟨rfl, rfl, rfl⟩⟩
  · rw [h]; exact ⟨rfl, rfl, fun _ => ⟨rfl, rfl, rfl⟩⟩
  · rw [h]; exact ⟨rfl, rfl, fun _ => ⟨rfl, rfl, rfl⟩⟩
  · rw [h.1]; exact ⟨rfl, rfl, fun hstream => absurd ⟨sym, len, rfl⟩ hstream⟩
  · rw [h]; exact ⟨rfl, rfl, fun _ => ⟨rfl, rfl, rfl⟩⟩

/-- CT_CLEAR and CT_LOAD leave the trie. -/
theorem Touches.code_nodes {i : Instr} (hi : i = .ctClear ∨ ∃ sym code, i = .ctLoad sym code) {s u : State}
    (h : Touches i s u) : u.nodes = s.nodes := by
  rcases hi with rfl | ⟨_, _, rfl⟩ <;> rw [h]

/-- Settles O59: what each command touches before its end, which adds FAULT, CMDSEQ and the responses. -/
theorem tableCommandsFrame : Obligations.TableCommandsFrame := by
  intro i s t hi h
  obtain ⟨u, hu, ht⟩ := exec_answerFrame i h
  obtain ⟨hframe, hclosing, hreader⟩ := hu.table hi
  have ht : AnswerFrame u t := ht.elim id fun h => hclosing ▸ h
  have hbits (hclear : i = .ctClear) : u.ctBits = s.ctBits := by
    subst hclear
    rw [hu]
  obtain ⟨hpar, hwrCache, hwrCnt, hwrClosed, hdec, henc, hbytes, hevents, hcmd⟩ := hframe.fields
  rw [ht]
  exact ⟨hpar, hwrCache, hwrCnt, hwrClosed, hdec, henc, hbytes, hevents, hcmd, hu.code_nodes, hu.codes.resolve_right,
    hbits, hreader⟩

end Sys2Proof.Machine
end

section
/-! PROOFS. The trie statements: the codes of a trie (O27), and inserts that add a leaf (O43, O44), overlap an earlier code
(O46) or overflow the store (O47). -/

namespace Sys2Proof.Machine

/-! ### The codes of a trie -/

theorem TrieShape.root_lt {s : State} (h : TrieShape s.nodes) : 0 < s.nodes.length := by
  obtain ⟨-, -, -, -, h0, -⟩ := h
  exact h0

/-- R33 item 5 at the root. -/
theorem TrieShape.root_no_leaf {s : State} (h : TrieShape s.nodes) : (s.node 0).leaf = false := by
  obtain ⟨-, -, -, -, h0, hroot⟩ := h
  rwa [State.node_lt h0]

/-- R33 item 3 at a node. -/
theorem TrieShape.childless_of_leaf {s : State} (h : TrieShape s.nodes) {i : Nat} (hi : i < s.nodes.length)
    (hleaf : (s.node i).leaf = true) : (s.node i).childless = true := by
  obtain ⟨-, -, hleafEnd, -⟩ := h
  rw [State.node_lt hi] at hleaf ⊢
  exact hleafEnd i hi hleaf

/-- R33 item 4 at a node. -/
theorem TrieShape.leaf_of_childless {s : State} (h : TrieShape s.nodes) {i : Nat} (h0 : 0 < i) (hi : i < s.nodes.length)
    (hchildless : (s.node i).childless = true) : (s.node i).leaf = true := by
  obtain ⟨-, -, -, hendLeaf, -⟩ := h
  rw [State.node_lt hi] at hchildless ⊢
  exact hendLeaf i hi h0 hchildless

/-- Where a code names a node, its prefixes do. -/
theorem State.follow_isSome_of_prefix {s : State} {i : Nat} {p q : List Bool} (hpq : p <+: q)
    (h : (s.follow i q).isSome) : (s.follow i p).isSome := by
  obtain ⟨r, rfl⟩ := hpq
  rw [State.follow_append] at h
  exact Option.isSome_of_isSome_bind h

/-- The empty code names the root, which is no leaf (R33 item 5). -/
theorem TrieShape.ne_nil_of_leafAt {s : State} (h : TrieShape s.nodes) {code : List Bool} {x : Byte}
    (hl : s.leafAt code = some x) : code ≠ [] := by
  rintro rfl
  obtain ⟨e, he, hleaf, -⟩ := State.leafAt_some hl
  cases he
  rw [h.root_no_leaf] at hleaf
  cases hleaf

/-- No path goes on below a leaf (R33 item 3). -/
theorem TrieShape.eq_of_leafAt_prefix {s : State} (h : TrieShape s.nodes) {a b : List Bool} (ha : (s.leafAt a).isSome)
    (hb : (s.follow 0 b).isSome) (hab : a <+: b) : a = b := by
  obtain ⟨x, ha⟩ := Option.isSome_iff_exists.1 ha
  obtain ⟨e, he, hleaf, -⟩ := State.leafAt_some ha
  have hlt : e < s.nodes.length := ((h.walk h.root_lt).follow_lt h.root_lt he).1
  obtain ⟨r, rfl⟩ := hab
  cases r with
  | nil => rw [List.append_nil]
  | cons c r =>
    have hnone : (s.node e).child c = none := Node.childless_iff.1 (h.childless_of_leaf hlt hleaf) c
    simp [State.follow_append, he, State.follow, hnone] at hb

/-- Of the prefixes of a path only the whole path may name a leaf. -/
theorem TrieShape.eq_of_leafAt_take {s : State} (h : TrieShape s.nodes) {code : List Bool} {k n : Nat} (hkn : k ≤ n)
    (hn : n ≤ code.length) (hk : (s.leafAt (code.take k)).isSome) (hpath : (s.follow 0 (code.take n)).isSome) : k = n := by
  have heq := congrArg List.length (h.eq_of_leafAt_prefix hk hpath (List.take_prefix_take_left hkn))
  rwa [List.length_take_of_le (le_trans hkn hn), List.length_take_of_le hn] at heq

/-- A code that names a leaf names a node. -/
theorem State.follow_isSome_of_leafAt {s : State} {code : List Bool} (h : (s.leafAt code).isSome) :
    (s.follow 0 code).isSome := by
  obtain ⟨x, hx⟩ := Option.isSome_iff_exists.1 h
  obtain ⟨e, he, -⟩ := State.leafAt_some hx
  exact he ▸ rfl

/-- A code runs through one leaf at most. -/
theorem TrieShape.leafAt_take_unique {s : State} (h : TrieShape s.nodes) {code : List Bool} {k n : Nat}
    (hk : k ≤ code.length) (hn : n ≤ code.length) (hleafk : (s.leafAt (code.take k)).isSome)
    (hleafn : (s.leafAt (code.take n)).isSome) : k = n := by
  rcases Nat.le_total k n with hkn | hnk
  · exact h.eq_of_leafAt_take hkn hn hleafk (State.follow_isSome_of_leafAt hleafn)
  · exact (h.eq_of_leafAt_take hnk hk hleafn (State.follow_isSome_of_leafAt hleafk)).symm

/-- A path to a leaf node is the code of its symbol. -/
theorem State.leafAt_of_follow {s : State} {p : List Bool} {i : Nat} (h : s.follow 0 p = some i)
    (hleaf : (s.node i).leaf = true) : s.leafAt p = some (s.node i).sym := by
  simp [State.leafAt, h, hleaf]

/-- Every allocated node has a path from the root: its parent has a lower index (R33 items 1 and 2). -/
theorem TrieShape.exists_path {s : State} (h : TrieShape s.nodes) {i : Nat} (hi : i < s.nodeCount) :
    ∃ p, s.follow 0 p = some i := by
  induction i using Nat.strongRecOn with
  | ind i ih =>
    by_cases h0 : i = 0
    · exact ⟨[], h0 ▸ rfl⟩
    · obtain ⟨j, b, hj, hchild, -⟩ := h.exists_unique_parent (Nat.pos_of_ne_zero h0) hi
      have hji : j < i := ((h.walk hj).child_lt hj hchild).1
      obtain ⟨p, hp⟩ := ih j hji hj
      exact ⟨p ++ [b], by rw [State.follow_snoc, hp]; exact hchild⟩

/-- From every node below the root a path goes down to a leaf: children have higher indices (R33 items 1 and 4). -/
theorem TrieShape.exists_leaf_below {s : State} (h : TrieShape s.nodes) {i : Nat} (h0 : 0 < i) (hi : i < s.nodes.length) :
    ∃ q e, s.follow i q = some e ∧ (s.node e).leaf = true := by
  induction hn : s.nodes.length - i using Nat.strongRecOn generalizing i with
  | ind n ih =>
    by_cases hchildless : (s.node i).childless = true
    · exact ⟨[], i, rfl, h.leaf_of_childless h0 hi hchildless⟩
    · obtain ⟨b, hb⟩ := not_forall.1 fun hall => hchildless (Node.childless_iff.2 hall)
      obtain ⟨c, hc⟩ := Option.ne_none_iff_exists'.1 hb
      obtain ⟨hic, hcl⟩ := (h.walk hi).child_lt hi hc
      obtain ⟨q, e, hq, hleaf⟩ := ih (s.nodes.length - c) (by omega) (lt_trans h0 hic) hcl rfl
      exact ⟨b :: q, e, by simp [State.follow, hc, hq], hleaf⟩

/-- The leaf mark of a node, read off its path. -/
theorem State.leaf_of_follow {s : State} {p : List Bool} {e : Nat} (h : s.follow 0 p = some e) :
    (s.node e).leaf = (s.leafAt p).isSome := by
  cases hleaf : (s.node e).leaf <;> simp [State.leafAt, h, hleaf]

/-- Settles O27: paths are unique and go down to leaves, and none goes on below one. -/
theorem trieCodesArePrefixFree : Obligations.TrieCodesArePrefixFree := by
  intro s h
  have hwalk := h.walk h.root_lt
  refine ⟨fun code x => h.ne_nil_of_leafAt, fun a b x y ha hb => ?_, fun i hi => ?_,
    fun p i hp => (hwalk.follow_lt h.root_lt hp).1, fun p hp => ⟨fun hsome => ?_, fun ⟨q, hq⟩ => ?_⟩, fun i hi hleaf => ?_⟩
  · exact h.eq_of_leafAt_prefix (ha ▸ rfl) (State.follow_isSome_of_leafAt (hb ▸ rfl))
  · obtain ⟨p, hp⟩ := h.exists_path hi
    exact ⟨p, hp, fun q hq => hwalk.follow_inj hq hp⟩
  · obtain ⟨i, hi⟩ := Option.isSome_iff_exists.1 hsome
    obtain ⟨hil, hlen⟩ := hwalk.follow_lt h.root_lt hi
    have hpos : 0 < i := lt_of_lt_of_le (List.length_pos_iff.2 hp) (by simpa using hlen)
    obtain ⟨q, e, hq, hleaf⟩ := h.exists_leaf_below hpos hil
    have hpath : s.follow 0 (p ++ q) = some e := by rw [State.follow_append, hi]; exact hq
    exact ⟨q, State.leafAt_of_follow hpath hleaf ▸ rfl⟩
  · exact State.follow_isSome_of_prefix (List.prefix_append p q) (State.follow_isSome_of_leafAt hq)
  · obtain ⟨p, hp⟩ := h.exists_path hi
    exact ⟨p, hp, State.leafAt_of_follow hp hleaf⟩

/-! ### Missing nodes -/

/-- Along a path that the trie has no node is missing. -/
theorem newNodes_eq_zero {s : State} {code : List Bool} (h : (s.follow 0 code).isSome) : s.newNodes code = 0 := by
  refine List.countP_eq_zero.2 fun n _ => ?_
  simpa [Option.isSome_iff_ne_none] using State.follow_isSome_of_prefix (List.take_prefix n code) h

/-- One more bit needs one more node where it names none. -/
theorem newNodes_snoc (s : State) (bs : List Bool) (b : Bool) :
    s.newNodes (bs ++ [b]) = s.newNodes bs + if (s.follow 0 (bs ++ [b])).isNone then 1 else 0 := by
  simp only [State.newNodes, List.length_append, List.length_singleton, List.range_succ (n := bs.length + 1),
    List.countP_append, List.countP_singleton]
  congr 1
  · refine List.countP_congr fun n hn => ?_
    rw [List.take_append_of_le_length (Nat.le_of_lt_succ (List.mem_range.1 hn))]
  · rw [List.take_of_length_le (by simp)]

/-- The first bit that does not fit: the bits before it fill the store, and it names no node. -/
theorem full_before_first_misfit {s : State} {code : List Bool} {m : Nat} (hcap : s.nodeCount ≤ s.par.nodeCap)
    (hm : m ≤ code.length) (hroom : ∀ n < m, s.nodeCount + s.newNodes (code.take n) ≤ s.par.nodeCap)
    (hfull : s.par.nodeCap < s.nodeCount + s.newNodes (code.take m)) :
    ∃ k, m = k + 1 ∧ s.nodeCount + s.newNodes (code.take k) = s.par.nodeCap ∧ s.follow 0 (code.take (k + 1)) = none := by
  cases m with
  | zero =>
    rw [List.take_zero, newNodes_eq_zero rfl] at hfull
    exact absurd hcap (Nat.not_le.2 hfull)
  | succ k =>
    have hbefore := hroom k (Nat.lt_succ_self k)
    rw [← List.take_append_getElem hm, newNodes_snoc, List.take_append_getElem hm] at hfull
    cases hpath : s.follow 0 (code.take (k + 1)) with
    | none =>
      rw [hpath] at hfull
      exact ⟨k, rfl, Nat.le_antisymm hbefore (Nat.le_of_lt_succ hfull), hpath⟩
    | some e =>
      rw [hpath] at hfull
      exact absurd hbefore (Nat.not_le.2 hfull)

/-! ### What an insert that stops inside its code leaves -/

/-- What an insert that stops inside its code leaves (R143, R256): the bits `bs` name nodes, of which the missing ones were
made, and no code was added. -/
structure Grown (s t : State) (bs : List Bool) : Prop where
  frame : InsertFrame s t
  leaves : ∀ p, t.leafAt p = s.leafAt p
  count : t.nodeCount = s.nodeCount + s.newNodes bs
  paths : ∀ p, (t.follow 0 p).isSome ↔ (s.follow 0 p).isSome ∨ p <+: bs

/-- The walk from the root has grown the trie along its bits. -/
theorem Along.grown {s t : State} {bs : List Bool} {e : Nat} (a : Along s t [] bs e) : Grown s t bs where
  frame := a.frame
  leaves := a.leaves
  count := by rw [newNodes_eq]; exact a.count
  paths p := by
    rw [a.paths]
    refine or_congr_right ⟨?_, fun hp => ⟨p.length, hp.length_le, List.prefix_iff_eq_take.1 hp⟩⟩
    rintro ⟨k, -, rfl⟩
    exact List.take_prefix k bs

theorem Grown.leaves_congr {s t u : State} {bs : List Bool} (h : Grown s t bs) (hnodes : u.nodes = t.nodes)
    (p : List Bool) : u.leafAt p = s.leafAt p :=
  (State.leafAt_congr hnodes p).trans (h.leaves p)

theorem Grown.paths_congr {s t u : State} {bs : List Bool} (h : Grown s t bs) (hnodes : u.nodes = t.nodes)
    (p : List Bool) : (u.follow 0 p).isSome ↔ (s.follow 0 p).isSome ∨ p <+: bs := by
  rw [State.follow_congr hnodes]
  exact h.paths p

/-- A read after the walk leaves the trie. -/
theorem Grown.read {s t u : State} {bs : List Bool} (h : Grown s t bs) (hr : ReaderFrame t u) : Grown s u bs := by
  have hnodes : u.nodes = t.nodes := by rw [hr]
  exact ⟨h.frame.trans hr.insert, h.leaves_congr hnodes, (congrArg List.length hnodes).trans h.count,
    h.paths_congr hnodes⟩

/-- An insert frame that leaves the trie leaves all but the reader and IN.pos. -/
theorem InsertFrame.reader {s t : State} (h : InsertFrame s t) (hnodes : t.nodes = s.nodes) : ReaderFrame s t := by
  unfold InsertFrame at h
  rwa [hnodes] at h

/-- The walk along bits that are all there makes no node. -/
theorem Along.reader {s t : State} {bs : List Bool} {e : Nat} (a : Along s t [] bs e) (h : (s.follow 0 bs).isSome) :
    ReaderFrame s t :=
  a.frame.reader (a.old (newNodes_eq s bs ▸ newNodes_eq_zero h))

/-! ### TrieInsert along a code, whatever the source of its bits -/

section Insert

variable {nextBit : Nat → State → Res Bool} {P : Nat → State → List Bool → Prop} (hP : Feeds nextBit P) (sym : Byte)
include hP

/-- TrieInsert with `n` more bits to go than the bits `bs`, which run through no leaf and for whose new nodes there is room:
what is left is the walk over those `n` bits (R143). -/
theorem trieInsert_along (bs more : List Bool) {n : Nat} (hn : bs.length + n ≠ 0) {s : State} (hbits : P 0 s (bs ++ more))
    (h : TrieShape s.nodes) (hleaf : ∀ k < bs.length, s.leafAt (bs.take k) = none)
    (hcap : 0 < s.newNodes bs → s.nodeCount + s.newNodes bs ≤ s.par.nodeCap) :
    ∃ t e, Along s t [] bs e ∧ P bs.length t more ∧
      trieInsert sym (bs.length + n) nextBit s = (trieWalk nextBit n bs.length e t).andThen (trieMark sym) := by
  rw [newNodes_eq] at hcap
  obtain ⟨t, e, ht, a, hmore⟩ := trieWalk_along hP bs more n (j := 0) (pre := []) hbits (h.walk h.root_lt) rfl hleaf hcap
  rw [Nat.zero_add] at ht hmore
  exact ⟨t, e, a, hmore, by rw [trieInsert, if_neg hn, ht]⟩

/-- What TrieInsert does at the bit after `k` bits that run through no leaf and for whose new nodes there is room: it takes
the bit, and raises where it stands at a leaf, or where it needs one more node and there is none (R143). -/
theorem trieInsert_at_bit {code : List Bool} {len k : Nat} {s : State} (hbits : P 0 s code) (h : TrieShape s.nodes)
    (hk : k < code.length) (hlen : code.length ≤ len) (hleaf : ∀ n < k, s.leafAt (code.take n) = none)
    (hcap : 0 < s.newNodes (code.take k) → s.nodeCount + s.newNodes (code.take k) ≤ s.par.nodeCap) :
    ∃ t u e, Along s t [] (code.take k) e ∧ ReaderFrame t u ∧ P (k + 1) u (code.drop (k + 1)) ∧
      ((u.node e).leaf = true → trieInsert sym len nextBit s = .raise .corruptDictionary u) ∧
      ((u.node e).leaf = false → (u.node e).child code[k] = none → u.nodeCount = u.par.nodeCap →
        trieInsert sym len nextBit s = .raise .nodeOverflow u) := by
  have hlength : (code.take k).length = k := List.length_take_of_le (Nat.le_of_lt hk)
  have hbefore (n : Nat) (hn : n < (code.take k).length) : s.leafAt ((code.take k).take n) = none := by
    rw [hlength] at hn
    rw [List.take_take, Nat.min_eq_left (Nat.le_of_lt hn)]
    exact hleaf n hn
  obtain ⟨j, rfl⟩ : ∃ j, len = (code.take k).length + (j + 1) := ⟨len - k - 1, by omega⟩
  obtain ⟨t, e, a, hmore, ht⟩ := trieInsert_along hP sym (code.take k) (code.drop k) (n := j + 1) (by omega)
    (by rwa [List.take_append_drop]) h hbefore hcap
  rw [List.drop_eq_getElem_cons hk, hlength] at hmore
  obtain ⟨u, hu, hframe, hrest⟩ := hP.next k t _ _ hmore
  rw [ht, hlength, trieWalk, hu]
  exact ⟨t, u, e, a, hframe, hrest, fun hl => by simp [hl], fun hl hchild hfull => by simp [hl, hchild, hfull]⟩

/-- TrieInsert of a code that runs through a leaf after `n` bits raises at the bit after these, whatever the length says
(R143). -/
theorem trieInsert_through_leaf {code : List Bool} {len n : Nat} {s : State} (hbits : P 0 s code)
    (h : TrieShape s.nodes) (hn : n < code.length) (hleaf : (s.leafAt (code.take n)).isSome) (hlen : code.length ≤ len) :
    ∃ t, trieInsert sym len nextBit s = .raise .corruptDictionary t ∧ ReaderFrame s t ∧ P (n + 1) t (code.drop (n + 1)) := by
  have hpath := State.follow_isSome_of_leafAt hleaf
  have hbefore (k : Nat) (hk : k < n) : s.leafAt (code.take k) = none :=
    Option.not_isSome_iff_eq_none.1 fun hsome =>
      absurd (h.eq_of_leafAt_take (Nat.le_of_lt hk) (Nat.le_of_lt hn) hsome hpath) (Nat.ne_of_lt hk)
  obtain ⟨t, u, e, a, hframe, hrest, hcorrupt, -⟩ := trieInsert_at_bit hP sym hbits h hn hlen hbefore
    (by simp [newNodes_eq_zero hpath])
  refine ⟨u, hcorrupt ?_, (a.reader hpath).trans hframe, hrest⟩
  rw [State.node_congr (s := t) (by rw [hframe]), State.leaf_of_follow a.here, a.leaves]
  exact hleaf

/-- TrieInsert of a code that ends at a node, with no leaf on its way: the node is a leaf or has children (R33 item 4,
R143). -/
theorem trieInsert_onto_node {code : List Bool} {s : State} (hbits : P 0 s code) (h : TrieShape s.nodes)
    (hne : code ≠ []) (hleaf : ∀ n < code.length, s.leafAt (code.take n) = none) (hpath : (s.follow 0 code).isSome) :
    ∃ t, trieInsert sym code.length nextBit s = .raise .corruptDictionary t ∧ ReaderFrame s t ∧ P code.length t [] := by
  have hpos : 0 < code.length := List.length_pos_iff.2 hne
  obtain ⟨t, e, a, hmore, ht⟩ := trieInsert_along hP sym code [] (n := 0) (Nat.ne_of_gt hpos) (by simpa using hbits) h
    hleaf (by simp [newNodes_eq_zero hpath])
  have hframe := a.reader hpath
  have hshape : TrieShape t.nodes := by rw [hframe]; exact h
  have he : 0 < e := by
    have hfar := (a.shape.follow_lt hshape.root_lt a.here).2
    rw [List.nil_append] at hfar
    omega
  have hmark : ((t.node e).leaf || !(t.node e).childless) = true := by
    cases hchildless : (t.node e).childless with
    | false => simp
    | true => simp [hshape.leaf_of_childless he a.shape.here hchildless]
  exact ⟨t, ht.trans (if_pos hmark), hframe, hmore⟩

/-- TrieInsert of an overlapping code, with how many bits it takes (R143, R145). -/
theorem trieInsert_overlap {code : List Bool} {len : Nat} {s : State} (hbits : P 0 s code)
    (h : TrieShape s.nodes) (hne : code ≠ [])
    (hover : (∃ n < code.length, (s.leafAt (code.take n)).isSome) ∨ (s.follow 0 code).isSome)
    (hlen : code.length = len ∨ code.length < len ∧ ∃ n < code.length, (s.leafAt (code.take n)).isSome) :
    ∃ t m, trieInsert sym len nextBit s = .raise .corruptDictionary t ∧ ReaderFrame s t ∧ P m t (code.drop m) ∧
      m ≤ code.length ∧ (∀ n < code.length, (s.leafAt (code.take n)).isSome → m = n + 1) ∧
      ((∀ n < code.length, s.leafAt (code.take n) = none) → m = code.length) := by
  by_cases hleaf : ∃ n < code.length, (s.leafAt (code.take n)).isSome
  · obtain ⟨n, hn, hsome⟩ := hleaf
    obtain ⟨t, ht, hframe, hrest⟩ := trieInsert_through_leaf hP sym hbits h hn hsome
      (hlen.elim Nat.le_of_eq fun hlt => Nat.le_of_lt hlt.1)
    refine ⟨t, n + 1, ht, hframe, hrest, hn, fun k hk hsome' => ?_, fun hnone => ?_⟩
    · rw [h.leafAt_take_unique (Nat.le_of_lt hk) (Nat.le_of_lt hn) hsome' hsome]
    · rw [hnone n hn] at hsome
      cases hsome
  · have hnone (n : Nat) (hn : n < code.length) : s.leafAt (code.take n) = none :=
      Option.not_isSome_iff_eq_none.1 fun hsome => hleaf ⟨n, hn, hsome⟩
    obtain rfl := hlen.resolve_right fun hlt => hleaf hlt.2
    obtain ⟨t, ht, hframe, hrest⟩ := trieInsert_onto_node hP sym hbits h hne hnone (hover.resolve_left hleaf)
    exact ⟨t, code.length, ht, hframe, by rwa [List.drop_length], le_refl _, fun n hn hsome => absurd ⟨n, hn, hsome⟩ hleaf,
      fun _ => rfl⟩

/-- TrieInsert where the store is full after `k` bits that run through no leaf, and the next bit needs a node: the bit is
taken and no node is made for it (R143, R256). -/
theorem trieInsert_full {code : List Bool} {len k : Nat} {s : State} (hbits : P 0 s code)
    (h : TrieShape s.nodes) (hk : k < code.length) (hlen : code.length ≤ len)
    (hleaf : ∀ n ≤ k, s.leafAt (code.take n) = none) (hcount : s.nodeCount + s.newNodes (code.take k) = s.par.nodeCap)
    (hnone : s.follow 0 (code.take (k + 1)) = none) :
    ∃ t, trieInsert sym len nextBit s = .raise .nodeOverflow t ∧ Grown s t (code.take k) ∧
      P (k + 1) t (code.drop (k + 1)) := by
  obtain ⟨t, u, e, a, hframe, hrest, -, hoverflow⟩ := trieInsert_at_bit hP sym hbits h hk hlen
    (fun n hn => hleaf n (Nat.le_of_lt hn)) fun _ => Nat.le_of_eq hcount
  have g : Grown s u (code.take k) := a.grown.read hframe
  have he : u.follow 0 (code.take k) = some e := (State.follow_congr (s := t) (by rw [hframe]) 0 _).trans a.here
  have hl : (u.node e).leaf = false := by
    rw [State.leaf_of_follow he, g.leaves, hleaf k (le_refl k)]
    rfl
  have hchild : (u.node e).child code[k] = none := by
    have hpath := g.paths (code.take k ++ [code[k]])
    rw [State.follow_snoc u, he, List.take_append_getElem hk, hnone] at hpath
    have hlong : ¬ code.take (k + 1) <+: code.take k := fun hp => by
      have hle := hp.length_le
      rw [List.length_take_of_le hk, List.length_take_of_le (Nat.le_of_lt hk)] at hle
      omega
    simpa [hlong] using hpath
  exact ⟨u, hoverflow hl hchild (by rw [g.count, hcount, g.frame.fields.1]), g, hrest⟩

end Insert

/-- TrieInsert where the stream ends before the code does, at a point the code can still be inserted at (R145, R256). -/
theorem trieInsert_stream_short (sym : Byte) {len : Nat} {s : State} (h : TrieShape s.nodes)
    (hshort : s.unreadBits.length < len) (hleaf : ∀ n < s.unreadBits.length, s.leafAt (s.unreadBits.take n) = none)
    (hcap : s.nodeCount + s.newNodes s.unreadBits ≤ s.par.nodeCap) :
    ∃ t, trieInsert sym len nextStreamBit s = .raise (terminalFault s.par.inTerm) t ∧ t.unreadBits = [] ∧
      Grown s t s.unreadBits := by
  obtain ⟨n, rfl⟩ : ∃ n, len = s.unreadBits.length + (n + 1) := ⟨len - s.unreadBits.length - 1, by omega⟩
  obtain ⟨t, e, a, hmore, ht⟩ := trieInsert_along (stream_feeds []) sym s.unreadBits [] (n := n + 1) (by omega)
    (by simp) h hleaf fun _ => hcap
  have hpar : t.par = s.par := a.frame.fields.1
  have hread : nextStreamBit s.unreadBits.length t = .raise (terminalFault s.par.inTerm) t := hpar ▸ readBit_none hmore
  exact ⟨t, by rw [ht, trieWalk, hread]; rfl, hmore, a.grown⟩

/-! ### The two insert commands -/

/-- Where TrieInsert takes its bits from a code operand, it changes the node list only (R147). -/
theorem trieInsert_code_ok_eq {sym : Byte} {len : Nat} {code : List Bool} {s t : State}
    (h : trieInsert sym len (nextCodeBit code) s = .ok () t) : t = s.setNodes t.nodes := by
  have hwithin := insertCode_within sym len code s
  rwa [h] at hwithin

theorem trieInsert_code_raise_eq {sym : Byte} {len : Nat} {code : List Bool} {s t : State} {f : FaultKind}
    (h : trieInsert sym len (nextCodeBit code) s = .raise f t) : t = s.setNodes t.nodes := by
  have hwithin := insertCode_within sym len code s
  rw [h] at hwithin
  exact hwithin.1

theorem State.leafAt_answer (s : State) (r : List Byte) (p : List Bool) : (s.answer r).leafAt p = s.leafAt p :=
  State.leafAt_congr (s.answer_nodes r) p

/-- Settles O43: TrieInsert of a free code, with the operand as the source of its bits. -/
theorem trInsertCodeAddsOneLeaf : Obligations.TrInsertCodeAddsOneLeaf := by
  intro sym code s h0 h hne hfree hcap
  obtain ⟨u, hu, hshape, hleaves, hcount, -, -⟩ :=
    trieInsert_free (code_feeds code) sym (s := s) (code := code) rfl h hne hfree hcap
  exact ⟨_, exec_trInsertCode_ok h0 hu, congrArg (State.answer · _) (trieInsert_code_ok_eq hu),
    fun p => (u.leafAt_answer _ p).trans (hleaves p), hcount, hshape⟩

/-- Settles O44: TrieInsert of a free code, with the stream as the source of its bits, and of one that the stream ends in. -/
theorem trInsertStreamAddsOneLeaf : Obligations.TrInsertStreamAddsOneLeaf := by
  refine ⟨fun sym len code rest s h0 h hne hlen hbits hfree hcap => ?_, fun sym len s h0 h hshort hleaf hcap => ?_⟩
  · obtain ⟨u, hu, hshape, hleaves, hcount, hframe, hrest⟩ :=
      trieInsert_free (stream_feeds rest) sym hbits h hne hfree hcap
    exact ⟨_, exec_trInsertStream_ok h0 (hlen ▸ hu), congrArg (State.answer · _) hframe, hrest,
      fun p => (u.leafAt_answer _ p).trans (hleaves p), hcount, hshape⟩
  · obtain ⟨u, hu, hrest, g⟩ := trieInsert_stream_short sym h hshort hleaf hcap
    exact ⟨_, _, exec_trInsertStream_raise h0 g.frame hu, terminalFault_code _,
      congrArg (fun v => (State.setFault v _).answer _) g.frame, hrest, g.count, g.leaves_congr rfl,
      g.paths_congr rfl⟩

/-- Settles O46: TrieInsert of an overlapping code moves the reader at most, which the operand form does not have. -/
theorem overlappingCodesAreCorrupt : Obligations.OverlappingCodesAreCorrupt := by
  refine fun sym code s h0 h hne hover => ⟨?_, fun len rest hbits hlen => ?_⟩
  · obtain ⟨u, -, hu, hframe, -⟩ := trieInsert_overlap (code_feeds code) sym (s := s) rfl h hne hover (.inl rfl)
    have heq : u = s := (trieInsert_code_raise_eq hu).trans (by rw [hframe]; rfl)
    rw [heq] at hu
    exact exec_trInsertCode_raise h0 (InsertFrame.refl s) hu
  · obtain ⟨u, m, hu, hframe, hrest, hm, hthrough, honto⟩ := trieInsert_overlap (stream_feeds rest) sym hbits h hne hover hlen
    refine ⟨_, m, exec_trInsertStream_raise h0 hframe.insert hu, ?_, hthrough, honto,
      congrArg (fun v => (State.setFault v _).answer _) hframe⟩
    rw [hbits, List.drop_append_of_le_length hm]
    exact hrest

/-- Settles O47: the walk stops at the bit `m` with the store full, which both commands take as NODE_OVERFLOW. -/
theorem fullStoreOverflows : Obligations.FullStoreOverflows := by
  intro sym code m s h0 h hcap hm hleaf hroom hfull
  obtain ⟨k, rfl, hcount, hnone⟩ := full_before_first_misfit hcap hm hroom hfull
  have hleaf (n : Nat) (hn : n ≤ k) : s.leafAt (code.take n) = none := hleaf n (Nat.lt_succ_of_le hn)
  refine ⟨?_, fun len rest hlen hbits => ?_⟩
  · obtain ⟨u, hu, g, -⟩ := trieInsert_full (code_feeds code) sym (s := s) rfl h hm (le_refl _) hleaf hcount hnone
    exact ⟨_, exec_trInsertCode_raise h0 g.frame hu,
      congrArg (fun v => (State.setFault v _).answer _) (trieInsert_code_raise_eq hu), g.count.trans hcount,
      g.leaves_congr rfl, g.paths_congr rfl⟩
  · obtain ⟨u, hu, g, hrest⟩ := trieInsert_full (stream_feeds rest) sym hbits h hm hlen hleaf hcount hnone
    refine ⟨_, exec_trInsertStream_raise h0 g.frame hu, congrArg (fun v => (State.setFault v _).answer _) g.frame, ?_,
      g.count.trans hcount, g.leaves_congr rfl, g.paths_congr rfl⟩
    rw [hbits, List.drop_append_of_le_length hm]
    exact hrest

end Sys2Proof.Machine
end

section
/-! PROOFS. The codec statements: ENC_SYM (O48), COMPRESS (O49, O50), DEC_SYM (O51 to O53), DECOMPRESS (O54, O55), the round
trip (O56) and what the codec commands leave unchanged (O60). -/

namespace Sys2Proof.Machine

/-! ### ENC_SYM -/

theorem exec_encSym_ok {sym : Byte} {s t : State} (h0 : s.fault = 0x00#8) (hopen : s.wrClosed = false)
    (h : encodeOne sym s = .ok () t) : exec (.encSym sym) s = .next (t.answer [0x00#8]) :=
  (command_open hopen).trans (command_ok h0 (by rw [h, Res.andThen_ok]))

theorem encodeOne_present {s : State} {sym : Byte} (h : s.codeLen sym ≠ 0x00#8) :
    encodeOne sym s = writeBits (s.codeOf sym) s := if_neg h

/-- The emits of some written bits, counted, and the state they leave (R120). -/
theorem Wrote.emits {s t : State} {bs : List Bool} (hframe : WriterFrame s t) (h : Wrote s t bs) :
    ∃ emitted : List Byte, emitted.length = (s.wrCnt.val + bs.length) / 8 ∧
      t = { s with wrCache := t.wrCache, wrCnt := t.wrCnt, outBytes := s.outBytes ++ emitted,
                   outEvents := s.outEvents ++ emitted.map .emit } := by
  obtain ⟨emitted, hbytes, hevents, hcount, -⟩ := h.emitted
  have ht := t.wrCnt.isLt
  refine ⟨emitted, by omega, ?_⟩
  unfold WriterFrame at hframe
  rwa [hbytes, hevents] at hframe

/-- Settles O48: the code is checked before any bit, and then its bits are written. -/
theorem encSymWritesTheCode : Obligations.EncSymWritesTheCode := by
  refine fun sym s h0 hopen => ⟨fun habsent => ?_, fun hpresent hw hcode hs => ?_⟩
  · exact (exec_encSym_raise h0 hopen (encodeOne_absent habsent)).trans (congrArg _ (takeFault_fresh h0))
  · rw [← s.codeOf_length] at hs
    obtain ⟨t, ht, hframe, hwrote⟩ := writeBits_ok (s.codeOf sym) hw hs
    obtain ⟨emitted, hcount, hstate⟩ := hwrote.emits hframe
    rw [s.codeOf_length] at hcount
    refine ⟨emitted, _, exec_encSym_ok h0 hopen ((encodeOne_present hpresent).trans ht), hcount, ?_,
      congrArg (State.answer · [0x00#8]) hstate⟩
    rw [← codeOf_eq_storedBits hcode hpresent]
    exact hwrote.bits

/-! ### The unread bytes -/

/-- The unread bytes are at the front of the unread bits (R101). -/
theorem bitsOf_unreadBytes_prefix {s : State} (hr : s.ReaderInv) (hp : s.inPos ≤ s.par.inBytes.length) :
    bitsOf s.unreadBytes <+: s.unreadBits := by
  have hpost := readBytes_post s.inLeft hr hp
  cases he : readBytes s.inLeft s with
  | ok xs t =>
    rw [he] at hpost
    obtain ⟨hlen, hbits, -⟩ := hpost
    rw [← unreadBytes_eq hbits hlen]
    exact ⟨t.unreadBits, hbits.symm⟩
  | raise f t =>
    rw [he] at hpost
    obtain ⟨-, -, -, -, -, hshort, -⟩ := hpost
    rw [State.inLeft] at hshort
    omega

theorem unreadBytes_length (s : State) : s.unreadBytes.length = s.inLeft := by simp [State.unreadBytes]

/-- Bytes that the stream delivers are the first of the unread bytes (R101). -/
theorem prefix_unreadBytes {s : State} (hr : s.ReaderInv) (hp : s.inPos ≤ s.par.inBytes.length) {xs : List Byte}
    {rest : List Bool} (h : s.unreadBits = bitsOf xs ++ rest) (hle : xs.length ≤ s.inLeft) : xs <+: s.unreadBytes := by
  have hbits : bitsOf xs <+: bitsOf s.unreadBytes :=
    List.prefix_of_prefix_length_le ⟨rest, h.symm⟩ (bitsOf_unreadBytes_prefix hr hp)
      (by rw [bitsOf_length, bitsOf_length, unreadBytes_length]; omega)
  rw [List.prefix_iff_eq_take, bitsOf_length, take_bitsOf] at hbits
  exact List.prefix_iff_eq_take.2 (bitsOf_inj hbits)

/-- An aligned reader's unread bytes are the source's own (R101). -/
theorem unreadBytes_aligned {s : State} (h : s.rdRem.val = 0) : s.unreadBytes = s.par.inBytes.drop s.inPos :=
  (unreadBytes_eq (rest := []) (by rw [unreadBits_aligned h, List.append_nil]) (List.length_drop ..)).symm

/-- An aligned reader's cache is 0 (R25). -/
theorem State.ReaderInv.rdCache_eq_zero {s : State} (hr : s.ReaderInv) (h : s.rdRem.val = 0) : s.rdCache = 0x00#8 :=
  (congrArg State.rdCache (setReader_zero_of_aligned hr h)).symm

/-! ### The loop of COMPRESS with a sink that answers Ok -/

/-- COMPRESS's loop has encoded the bytes `xs` and IN.pos is `pos` (R173, R174). -/
structure Encoded (s t : State) (xs : List Byte) (pos : Nat) : Prop where
  frame : CodecFrame s t
  wrote : Wrote s t (xs.flatMap s.codeOf)
  encCount : t.encCount = s.encCount + BitVec.ofNat 64 xs.length
  inPos : t.inPos = pos

/-- The first byte with no code: bytes that have codes, up to another byte, end at it or before it. -/
theorem eq_or_prefix_of_first_without {p : Byte → Prop} {xs ys : List Byte} {x y : Byte} {all : List Byte}
    (hys : ∀ z ∈ ys, p z) (hx : ¬ p x) (hax : xs ++ [x] <+: all) (hay : ys ++ [y] <+: all) :
    ys = xs ∧ y = x ∨ ys ++ [y] <+: xs := by
  rcases List.prefix_or_prefix_of_prefix hay hax with h | h
  · exact (List.prefix_concat_iff.1 h).imp_left fun heq => by simpa using heq
  · rcases List.prefix_concat_iff.1 h with heq | hlt
    · exact .inl (by simpa [eq_comm] using heq)
    · exact absurd (hys x (hlt.subset (by simp))) hx

/-- No emit fails within the codes of `xs`. -/
theorem not_writeFailed_of_prefix {s t : State} {xs ys : List Byte}
    (hs : s.SinkOkFor ((s.wrCnt.val + (xs.flatMap s.codeOf).length) / 8)) (hys : ys <+: xs) :
    ¬ WriteFailed s t (ys.flatMap s.codeOf).length := by
  intro h
  obtain ⟨zs, rfl⟩ := hys
  refine h.absurd (hs.mono (Nat.div_le_div_right ?_))
  simp

section Loop

variable {s : State} {xs : List Byte} (hr : s.ReaderInv) (hw : s.WriterInv) (hp : s.inPos ≤ s.par.inBytes.length)
  (hxs : ∀ x ∈ xs, s.codeLen x ≠ 0x00#8) (hs : s.SinkOkFor ((s.wrCnt.val + (xs.flatMap s.codeOf).length) / 8))
include hr hw hp hxs hs

/-- COMPRESS's loop where every unread byte has a code: it returns at End and raises IO_ERROR at Error, in both cases after
the whole input (R173, R174). -/
theorem compressLoop_whole (hall : s.unreadBytes = xs) :
    (compressLoop (s.inLeft + 1) s).Post (fun _ t => s.par.inTerm = .endOfSource ∧ Compressed s t xs)
      fun f t => f = .ioError ∧ s.par.inTerm = .error ∧ Encoded s t xs s.par.inBytes.length := by
  refine (compressLoop_post (s.inLeft + 1) hr hw hp (Nat.lt_succ_self _)).mono ?_ ?_
  · rintro - t ⟨hterm, ys, hlen, hc⟩
    rw [← hall, ← unreadBytes_eq hc.read hlen]
    exact ⟨hterm, hc⟩
  · rintro f t ⟨hframe, htr, -, htp, -, ys, henc, -, ⟨rfl, hterm, hlen, hbits, hwrote⟩ | ⟨y, hbits, hle, -, hstop⟩⟩
    · obtain rfl : ys = xs := (unreadBytes_eq hbits hlen).trans hall
      refine ⟨rfl, hterm, hframe, hwrote, henc, ?_⟩
      have hpar : t.par = s.par := hframe.fields.1
      have hcount := congrArg List.length hbits
      simp only [List.length_append, State.unreadBits_length, bitsOf_length, State.bitsLeft, hlen, State.inLeft,
        hpar] at hcount
      rw [hpar] at htp
      have hrem := hr.1
      omega
    · have hprefix : ys ++ [y] <+: xs := hall ▸ prefix_unreadBytes hr hp hbits (by simpa using hle)
      rcases hstop with ⟨-, habsent, -⟩ | ⟨-, -, hfail⟩
      · exact absurd habsent (hxs y (hprefix.subset (by simp)))
      · exact absurd hfail (not_writeFailed_of_prefix hs hprefix)

/-- COMPRESS's loop at the first byte with no code (R173, R254). -/
theorem compressLoop_absent {x : Byte} {ys : List Byte} (hall : s.unreadBytes = xs ++ x :: ys) (hx : s.codeLen x = 0x00#8) :
    ∃ t, compressLoop (s.inLeft + 1) s = .raise .symbolNotInTable t ∧ Encoded s t xs (s.inPos + xs.length + 1) := by
  have hxp : xs ++ [x] <+: s.unreadBytes := ⟨ys, by simp [hall]⟩
  have hpost := compressLoop_post (s.inLeft + 1) hr hw hp (Nat.lt_succ_self _)
  cases he : compressLoop (s.inLeft + 1) s with
  | ok _ t =>
    rw [he] at hpost
    obtain ⟨-, zs, hlen, hc⟩ := hpost
    rw [unreadBytes_eq hc.read hlen] at hc
    exact absurd hx (hc.present x (hxp.subset (by simp)))
  | raise f t =>
    rw [he] at hpost
    obtain ⟨hframe, -, -, -, -, zs, henc, hzs, ⟨-, -, hlen, hbits, -⟩ | ⟨y, hbits, hle, hpos, hstop⟩⟩ := hpost
    · rw [unreadBytes_eq hbits hlen] at hzs
      exact absurd hx (hzs x (hxp.subset (by simp)))
    · have hyp : zs ++ [y] <+: s.unreadBytes := prefix_unreadBytes hr hp hbits (by simpa using hle)
      have hfirst := eq_or_prefix_of_first_without (p := fun z => s.codeLen z ≠ 0x00#8) hzs (not_not.2 hx) hxp hyp
      rcases hstop with ⟨rfl, habsent, hwrote⟩ | ⟨-, hpresent, hfail⟩
      · obtain ⟨rfl, rfl⟩ := hfirst.resolve_right fun h => hxs y (h.subset (by simp)) habsent
        exact ⟨t, rfl, hframe, hwrote, henc, hpos⟩
      · have hwithin := hfirst.resolve_left fun h => hpresent (h.2 ▸ hx)
        exact absurd hfail (not_writeFailed_of_prefix hs hwithin)

end Loop

/-! ### Counter payloads -/

/-- The big-endian bytes of an integer, byte by byte (R14). -/
theorem toBigEndian_eq_map (k v : Nat) :
    toBigEndian k v = (List.range k).map fun i => BitVec.ofNat 8 (v / 256 ^ (k - 1 - i)) := by
  induction k with
  | zero => rfl
  | succ k ih =>
    rw [toBigEndian, ih, List.range_succ_eq_map, List.map_cons, List.map_map]
    refine congrArg₂ _ rfl (List.map_congr_left fun i _ => ?_)
    simp [Nat.sub_sub, Nat.add_comm]

theorem u64Payload_eq_u64be (v : U64) : u64Payload v = u64be v := by
  rw [u64Payload, toBigEndian_eq_map, u64be]
  refine List.map_congr_left fun i _ => BitVec.eq_of_toNat_eq ?_
  rw [BitVec.toNat_ofNat, BitVec.extractLsb'_toNat, Nat.shiftRight_eq_div_pow, Nat.pow_mul]

/-! ### COMPRESS -/

theorem exec_compress_ok {s t u : State} {pad : Nat} (h0 : s.fault = 0x00#8) (hopen : s.wrClosed = false)
    (hloop : compressLoop (s.inLeft + 1) (s.setEncCount 0#64) = .ok () t) (halign : alignW t = .ok pad u) :
    exec .compress s = .next (u.close.answer (0x00#8 :: (u64Payload u.encCount ++ [countByte pad]))) :=
  (command_open hopen).trans (command_ok h0 (by rw [hloop, Res.andThen_ok, halign, Res.andThen_ok]))

theorem exec_compress_raise {s t : State} {f : FaultKind} (h0 : s.fault = 0x00#8) (hopen : s.wrClosed = false)
    (hloop : compressLoop (s.inLeft + 1) (s.setEncCount 0#64) = .raise f t) :
    exec .compress s = .next (takeFault f t) :=
  (command_open hopen).trans (command_raise h0 (by rw [hloop, Res.andThen_raise]))

/-- What COMPRESS leaves where its loop raises: the fault, and what was encoded before it (R174, R256). -/
theorem Encoded.takeFault {s t : State} {xs : List Byte} {pos : Nat} (h : Encoded (s.setEncCount 0#64) t xs pos)
    (h0 : s.fault = 0x00#8) (f : FaultKind) :
    (takeFault f t).fault = f.code ∧ (takeFault f t).resp = s.resp ++ [[f.code]] ∧
    (takeFault f t).wrClosed = s.wrClosed ∧ (takeFault f t).writtenBits = s.writtenBits ++ xs.flatMap s.codeOf ∧
    (takeFault f t).encCount = BitVec.ofNat 64 xs.length ∧ (takeFault f t).inPos = pos := by
  obtain ⟨-, hclosed, -, -, -, hfault, -, -, hresp⟩ := h.frame.fields
  rw [takeFault_fresh (hfault.trans h0)]
  exact ⟨rfl, congrArg (· ++ [[f.code]]) hresp, hclosed, h.wrote.bits, h.encCount.trans (BitVec.zero_add _), h.inPos⟩

/-- Settles O50: the loop stops at the Error, or at the first byte with no code, before any align. -/
theorem compressFaults : Obligations.CompressFaults := by
  intro s xs bits h0 hopen hr hw hp hxs hbits hs
  subst hbits
  refine ⟨fun hall hterm => ?_, fun x ys hall hx => ?_⟩
  · have hpost : (compressLoop (s.inLeft + 1) (s.setEncCount 0#64)).Post _ _ :=
      compressLoop_whole (s := s.setEncCount 0#64) hr hw hp hxs hs hall
    cases hloop : compressLoop (s.inLeft + 1) (s.setEncCount 0#64) with
    | ok _ t =>
      rw [hloop] at hpost
      exact nomatch hterm.symm.trans hpost.1
    | raise f t =>
      rw [hloop] at hpost
      obtain ⟨rfl, -, hencoded⟩ := hpost
      exact ⟨_, exec_compress_raise h0 hopen hloop, hopen ▸ hencoded.takeFault h0 .ioError⟩
  · obtain ⟨t, hloop, hencoded⟩ := compressLoop_absent (s := s.setEncCount 0#64) hr hw hp hxs hs hall hx
    exact ⟨_, exec_compress_raise h0 hopen hloop, hopen ▸ hencoded.takeFault h0 .symbolNotInTable⟩

/-- The bytes that AlignW emits before its flush (R122). -/
theorem Aligned.emits {s t : State} {pad : Nat} (h : Aligned s t pad) :
    ∃ late : List Byte, t.outBytes = s.outBytes ++ late ∧
      t.outEvents = s.outEvents ++ late.map .emit ++ [.flush] := by
  refine ⟨if s.wrCnt = 0 then [] else [s.wrCache], h.bytes, h.events.trans ?_⟩
  split <;> rfl

/-- The padding that AlignW adds after the codes of the whole input (R42, R122). -/
theorem Compressed.padding {s t u : State} {xs : List Byte} {pad : Nat} (h : Compressed (s.setEncCount 0#64) t xs)
    (halign : Aligned t u pad) : pad = (8 - (s.wrCnt.val + (xs.flatMap s.codeOf).length) % 8) % 8 := by
  obtain ⟨emitted, -, -, hcount, -⟩ := h.wrote.emitted
  have hcount : 8 * emitted.length + t.wrCnt.val = s.wrCnt.val + (xs.flatMap s.codeOf).length := hcount
  have ht := t.wrCnt.isLt
  rw [halign.padding]
  omega

/-- What COMPRESS leaves where it succeeds, its loop in `t` and AlignW in `u` (R173, R174). -/
theorem Compressed.aligned_state {s t u : State} {xs : List Byte} {pad : Nat}
    (h : Compressed (s.setEncCount 0#64) t xs) (halign : Aligned t u pad) (hall : xs.length = s.inLeft)
    (hp : s.inPos ≤ s.par.inBytes.length) :
    ∃ emitted : List Byte, u = { s with
      rdCache := u.rdCache
      inPos := s.par.inBytes.length
      wrCache := 0x00#8
      wrCnt := 0
      outBytes := s.outBytes ++ emitted
      outEvents := s.outEvents ++ emitted.map .emit ++ [.flush]
      encCount := BitVec.ofNat 64 xs.length } := by
  obtain ⟨-, hrem, hpos, -⟩ := h.reader
  obtain ⟨-, -, hrem', -, -, -, -, hdec, henc, -, -, hpos', -⟩ := halign.frame.fields
  obtain ⟨early, hbytes, hevents, -⟩ := h.wrote.emitted
  obtain ⟨late, hbytes', hevents'⟩ := halign.emits
  have hframe : CodecFrame (s.setEncCount 0#64) u := h.frame.trans halign.frame.codec
  have hend : u.inPos = s.par.inBytes.length := by
    rw [hpos', hpos, hall, State.setEncCount_inPos, State.inLeft]
    omega
  refine ⟨early ++ late, ?_⟩
  unfold CodecFrame at hframe
  rw [hrem', hrem, hend, halign.inv.wrCache_eq_zero (congrArg Fin.val halign.count), halign.count, hbytes', hbytes,
    hevents', hevents, henc, h.encCount, hdec, h.decCount] at hframe
  simpa using hframe

/-- Settles O49: the loop encodes the whole input, AlignW pads and flushes, and the close and the answer end the command. -/
theorem compressEncodesTheWholeInput : Obligations.CompressEncodesTheWholeInput := by
  intro s bits h0 hopen hr hw hp hterm hxs hbits hs
  subst hbits
  have hpost : (compressLoop (s.inLeft + 1) (s.setEncCount 0#64)).Post _ _ :=
    compressLoop_whole (s := s.setEncCount 0#64) hr hw hp hxs
      (hs.mono (Nat.le_succ_of_le (Nat.div_le_div_right (Nat.le_add_right ..)))) rfl
  cases hloop : compressLoop (s.inLeft + 1) (s.setEncCount 0#64) with
  | raise f t =>
    rw [hloop] at hpost
    exact nomatch hterm.symm.trans hpost.2.1
  | ok _ t =>
    rw [hloop] at hpost
    obtain ⟨-, h⟩ := hpost
    obtain ⟨pad, u, hu, halign⟩ := alignW_ok h.wrote.inv (h.wrote.sinkOkFor (m := 7) (k := 1) hs)
    obtain ⟨emitted, hstate⟩ := h.aligned_state halign (unreadBytes_length s) hp
    have hinv : u.ReaderInv := halign.frame.readerInv h.reader.1
    refine ⟨emitted, pad, _, exec_compress_ok h0 hopen hloop hu, h.padding halign, ?_,
      fun haligned => ⟨unreadBytes_aligned haligned, ?_⟩, hinv, ?_, ?_⟩
    · have hbytes : u.outBytes = s.outBytes ++ emitted := by rw [hstate]
      rw [← hbytes, halign.bits h.wrote.inv, h.wrote.bits]
      rfl
    · have hrem : u.rdRem = s.rdRem := by rw [hstate]
      exact (hinv.rdCache_eq_zero (hrem ▸ haligned)).trans (hr.rdCache_eq_zero haligned).symm
    · have hread : s.unreadBits = bitsOf s.unreadBytes ++ t.unreadBits := h.read
      change u.unreadBits = _
      rw [hread, List.drop_left' (by rw [bitsOf_length, unreadBytes_length]), halign.frame.unreadBits]
    · have henc : u.encCount = BitVec.ofNat 64 s.unreadBytes.length := by rw [hstate]
      rw [henc, u64Payload_eq_u64be]
      exact congrArg (fun v : State => v.close.answer _) hstate

/-! ### DEC_SYM -/

theorem exec_decSym_ok {s t : State} {x : Byte} (h0 : s.fault = 0x00#8) (h : decodeOne s = .ok x t) :
    exec .decSym s = .next (t.answer [0x00#8, x]) := by
  unfold exec execDecSym
  exact command_ok h0 (by rw [h, Res.andThen_ok])

/-- Settles O51: DecodeOne of a leaf's code delivers its symbol. -/
theorem decSymFollowsTheCode : Obligations.DecSymFollowsTheCode := by
  intro s code rest x h0 h hleaf hbits
  obtain ⟨t, ht, hrest, hframe⟩ := decodeOne_leaf h hbits hleaf
  exact ⟨_, exec_decSym_ok h0 ht, hrest, congrArg (State.answer · [0x00#8, x]) hframe⟩

/-- The walk of DecodeOne along bits that end at a node with a child: what is left is the walk from that node (R170). -/
theorem decodeWalk_along (bs : List Bool) (n : Nat) {i j : Nat} {s : State} {rest : List Bool}
    (hbits : s.unreadBits = bs ++ rest) (hpath : s.follow i bs = some j)
    (hinner : bs ≠ [] → (s.node j).childless = false) :
    ∃ t, decodeWalk (bs.length + n) i s = decodeWalk n j t ∧ t.unreadBits = rest ∧ ReaderFrame s t := by
  induction bs generalizing i s with
  | nil =>
    cases hpath
    exact ⟨s, by rw [List.length_nil, Nat.zero_add], hbits, ReaderFrame.refl s⟩
  | cons b bs ih =>
    obtain ⟨t, ht, hrest, hframe⟩ := readBit_next hbits
    have hnodes : t.nodes = s.nodes := by rw [hframe]
    rw [State.follow] at hpath
    cases hchild : (s.node i).child b with
    | none => rw [hchild] at hpath; cases hpath
    | some c =>
      rw [hchild] at hpath
      have hc : (s.node c).childless = false := by
        cases bs with
        | nil => cases hpath; exact hinner (List.cons_ne_nil b [])
        | cons a as =>
          refine Bool.eq_false_iff.2 fun hc => ?_
          simp [State.follow, Node.childless_iff.1 hc a] at hpath
      obtain ⟨u, hu, hrest', hframe'⟩ := ih (i := c) hrest (by rwa [State.follow_congr hnodes])
        fun _ => by rw [State.node_congr hnodes]; exact hinner (List.cons_ne_nil b bs)
      refine ⟨u, ?_, hrest', hframe.trans hframe'⟩
      rw [List.length_cons, Nat.add_right_comm, decodeWalk, ht, Res.andThen_ok, ← hu]
      simp [State.node_congr hnodes, hchild, hc]

section Fails

variable {s : State} {pre : List Bool} {j : Nat} (h : TrieShape s.nodes) (hpath : s.follow 0 pre = some j)
  (hinner : (s.node j).leaf = false)
include h hpath hinner

/-- DecodeOne along bits that end at a node that is no leaf, with the bits after them still to come (R170). -/
theorem decodeOne_along {rest : List Bool} (hbits : s.unreadBits = pre ++ rest) :
    ∃ t, decodeOne s = decodeWalk (rest.length + 1) j t ∧ t.unreadBits = rest ∧ ReaderFrame s t := by
  rw [decodeOne, ← s.unreadBits_length, hbits, List.length_append, Nat.add_assoc]
  refine decodeWalk_along pre _ hbits hpath fun hpre => Bool.eq_false_iff.2 fun hchildless => ?_
  obtain ⟨hj, hlen⟩ := (h.walk h.root_lt).follow_lt h.root_lt hpath
  have hpos := List.length_pos_iff.2 hpre
  rw [h.leaf_of_childless (by omega) hj hchildless] at hinner
  exact nomatch hinner

/-- At an absent branch DecodeOne raises CORRUPT_DICTIONARY after the branch's bit is consumed (R170). -/
theorem decodeOne_absent {b : Bool} {rest : List Bool} (hbits : s.unreadBits = pre ++ b :: rest)
    (habsent : (s.node j).child b = none) :
    ∃ t, decodeOne s = .raise .corruptDictionary t ∧ t.unreadBits = rest ∧ ReaderFrame s t := by
  obtain ⟨t, ht, hrest, hframe⟩ := decodeOne_along h hpath hinner hbits
  obtain ⟨u, hu, hrest', hframe'⟩ := readBit_next hrest
  have hnode : (u.node j).child b = none := by rwa [State.node_congr (s := s) (by rw [hframe', hframe])]
  exact ⟨u, by simp [ht, decodeWalk, hu, hnode], hrest', hframe.trans hframe'⟩

/-- With no bit left DecodeOne raises the terminal's fault (R170). -/
theorem decodeOne_exhausted (hbits : s.unreadBits = pre) :
    ∃ t, decodeOne s = .raise (terminalFault s.par.inTerm) t ∧ t.unreadBits = [] ∧ ReaderFrame s t := by
  obtain ⟨t, ht, hrest, hframe⟩ := decodeOne_along h hpath hinner (rest := []) (by rw [hbits, List.append_nil])
  have hpar : t.par = s.par := by rw [hframe]
  exact ⟨t, by rw [ht, decodeWalk, readBit_none hrest, hpar, Res.andThen_raise], hrest, hframe⟩

end Fails

/-- DEC_SYM takes the fault that DecodeOne raises (R175). -/
theorem exec_decSym_fault {s t : State} {f : FaultKind} (h0 : s.fault = 0x00#8) (hframe : ReaderFrame s t)
    (h : decodeOne s = .raise f t) : exec .decSym s = .next ((t.setFault f.code).answer [f.code]) :=
  (exec_decSym_raise h0 h).trans (congrArg _ (takeFault_fresh (by rw [hframe]; exact h0)))

/-- Settles O52: DecodeOne walks to the node, and then finds no branch or no bit. -/
theorem decSymFaults : Obligations.DecSymFaults := by
  refine fun s pre j h0 h hpath hinner => ⟨fun b rest hbits habsent => ?_, fun hbits => ?_⟩
  · obtain ⟨t, ht, hrest, hframe⟩ := decodeOne_absent h hpath hinner hbits habsent
    exact ⟨_, exec_decSym_fault h0 hframe ht, hrest, congrArg (fun v => (State.setFault v _).answer _) hframe⟩
  · obtain ⟨t, ht, hrest, hframe⟩ := decodeOne_exhausted h hpath hinner hbits
    exact ⟨_, _, exec_decSym_fault h0 hframe ht, hrest, terminalFault_code _,
      congrArg (fun v => (State.setFault v _).answer _) hframe⟩

/-- A path has fewer bits than the trie has nodes, and one fewer again where it can go on (R33 item 1). -/
theorem TrieShape.path_length {s : State} (h : TrieShape s.nodes) {p : List Bool} {j : Nat}
    (hpath : s.follow 0 p = some j) :
    p.length < s.nodeCount ∧ ((s.node j).childless = false → p.length + 1 < s.nodeCount) := by
  have hwalk := h.walk h.root_lt
  obtain ⟨hj, hlen⟩ := hwalk.follow_lt h.root_lt hpath
  rw [State.nodeCount]
  refine ⟨by omega, fun hinner => ?_⟩
  obtain ⟨b, hb⟩ := not_forall.1 fun hall => Bool.eq_false_iff.1 hinner (Node.childless_iff.2 hall)
  obtain ⟨c, hc⟩ := Option.ne_none_iff_exists'.1 hb
  have hchild := hwalk.child_lt hj hc
  omega

/-- DecodeOne consumes at most as many bits as a path of the trie has, and one where the trie is empty (R170, R171). -/
theorem decodeOne_bounded {s : State} (h : TrieShape s.nodes) :
    (decodeOne s).Post
      (fun _ t => ∃ used, s.unreadBits = used ++ t.unreadBits ∧ used.length ≤ max 1 (s.nodeCount - 1))
      fun _ t => ∃ used, s.unreadBits = used ++ t.unreadBits ∧ used.length ≤ max 1 (s.nodeCount - 1) := by
  refine (decodeWalk_post (s.bitsLeft + 1) (i := 0) (by rw [s.unreadBits_length]; omega)).mono ?_ ?_
  · rintro x t ⟨-, used, e, -, hbits, hpath, -⟩
    have hlen := (h.path_length hpath).1
    exact ⟨used, hbits, by omega⟩
  · rintro f t ⟨-, used, hbits, ⟨-, pre, b, j, rfl, hpath, rfl | hinner, -⟩ | ⟨-, -, j, hpath⟩⟩
    · exact ⟨[b], hbits, le_max_left 1 _⟩
    · have hlen := (h.path_length hpath).2 hinner
      exact ⟨pre ++ [b], hbits, by rw [List.length_append, List.length_singleton]; omega⟩
    · have hlen := (h.path_length hpath).1
      exact ⟨used, hbits, by omega⟩

/-- Settles O53: while a fault is pending no bit is read, and otherwise DecodeOne's bound is the command's. -/
theorem decSymIsBounded : Obligations.DecSymIsBounded := by
  intro s h
  by_cases h0 : s.fault = 0x00#8
  · have hpost := decodeOne_bounded h
    cases he : decodeOne s with
    | ok x t =>
      rw [he] at hpost
      obtain ⟨used, hbound⟩ := hpost
      exact ⟨_, used, exec_decSym_ok h0 he, hbound⟩
    | raise f t =>
      rw [he] at hpost
      obtain ⟨used, hbound⟩ := hpost
      exact ⟨_, used, exec_decSym_raise h0 he, hbound⟩
  · exact ⟨_, [], exec_pending (i := .decSym) nofun h0, rfl, Nat.zero_le _⟩

/-! ### DECOMPRESS -/

theorem exec_decompress_ok {size : U64} {s t : State} (h0 : s.fault = 0x00#8) (hopen : s.wrClosed = false)
    (h : decompressLoop size.toNat (s.setDecCount 0#64) = .ok () t) :
    exec (.decompress size) s = .next (t.answer (0x00#8 :: u64Payload t.decCount)) :=
  (command_open hopen).trans (command_ok h0 (by rw [h, Res.andThen_ok]))

theorem exec_decompress_raise {size : U64} {s t : State} {f : FaultKind} (h0 : s.fault = 0x00#8)
    (hopen : s.wrClosed = false) (h : decompressLoop size.toNat (s.setDecCount 0#64) = .raise f t) :
    exec (.decompress size) s = .next (takeFault f t) :=
  (command_open hopen).trans (command_raise h0 (by rw [h, Res.andThen_raise]))

/-- Whole bytes written leave WR_CNT, whatever happens beside the writer (R123). -/
theorem Wrote.bytes {s t : State} {data : List Byte} (h : Wrote s t (bitsOf data)) :
    ∃ emitted : List Byte, emitted.length = data.length ∧ (s.wrCnt.val = 0 → emitted = data) ∧ t.wrCnt = s.wrCnt ∧
      t.outBytes = s.outBytes ++ emitted ∧ t.outEvents = s.outEvents ++ emitted.map .emit := by
  obtain ⟨w, hframe, hwrote, hcnt, hbytes, hevents⟩ : ∃ w, WriterFrame s w ∧ Wrote s w (bitsOf data) ∧
      w.wrCnt = t.wrCnt ∧ w.outBytes = t.outBytes ∧ w.outEvents = t.outEvents :=
    ⟨(s.setWriter t.wrCache t.wrCnt).setOut t.outBytes t.outEvents, rfl,
      h.congr ⟨rfl, rfl, rfl, rfl, rfl⟩ ⟨h.par.symm, rfl, rfl, rfl, rfl⟩, rfl, rfl, rfl⟩
  obtain ⟨emitted, h⟩ := hwrote.wroteBytes hframe
  rw [← hcnt, ← hbytes, ← hevents]
  exact ⟨emitted, h.count, h.aligned, h.fields.2⟩

/-- What DECOMPRESS's loop leaves where it returns: the bytes it wrote and the count of them (R176). -/
theorem Decompressed.state {s t : State} {xs : List Byte} (h : Decompressed (s.setDecCount 0#64) t xs) :
    ∃ emitted : List Byte, emitted.length = xs.length ∧ (s.wrCnt.val = 0 → emitted = xs) ∧
      t = { s with
        rdCache := t.rdCache
        rdRem := t.rdRem
        inPos := t.inPos
        wrCache := t.wrCache
        outBytes := s.outBytes ++ emitted
        outEvents := s.outEvents ++ emitted.map .emit
        decCount := BitVec.ofNat 64 xs.length } := by
  obtain ⟨emitted, hlen, haligned, hcnt, hbytes, hevents⟩ := h.wrote.bytes
  have hframe := h.frame
  unfold CodecFrame at hframe
  rw [hcnt, hbytes, hevents, h.encCount, h.decCount] at hframe
  exact ⟨emitted, hlen, haligned, by simpa using hframe⟩

theorem ofNat_of_toNat_eq {size : U64} {n : Nat} (h : size.toNat = n) : BitVec.ofNat 64 n = size := by
  rw [← h, BitVec.ofNat_toNat, BitVec.setWidth_eq]

@[simp] theorem State.leafAt_setDecCount (s : State) (v : U64) (p : List Bool) :
    (s.setDecCount v).leafAt p = s.leafAt p := State.leafAt_congr (s.setDecCount_nodes v) p

/-- Settles O54: the loop along the codes of the stream, with nothing to go after them. -/
theorem decompressWritesSizeBytes : Obligations.DecompressWritesSizeBytes := by
  intro s size ps rest h0 hopen hr hw hp h hsize hcodes hbits hs
  obtain ⟨t, ht, hdone, hrest⟩ := decompressLoop_along ps 0 (s := s.setDecCount 0#64) hr hw hp h
    (by simpa using hcodes) hbits hs
  obtain ⟨emitted, hlen, haligned, hstate⟩ := hdone.state
  rw [List.length_map] at hlen hstate
  rw [ofNat_of_toNat_eq hsize] at hstate
  have hdec : t.decCount = size := by rw [hstate]
  refine ⟨emitted, _, exec_decompress_ok h0 hopen (hsize ▸ ht), hlen, hrest, hdone.wrote.bits, haligned, ?_⟩
  rw [hdec, u64Payload_eq_u64be]
  exact congrArg (fun v : State => v.answer _) hstate

/-- DECOMPRESS with no fault after it: the writer was open and the loop returned (R177). -/
theorem exec_decompress_success {size : U64} {s t : State} (h0 : s.fault = 0x00#8)
    (h : exec (.decompress size) s = .next t) (ht : t.fault = 0x00#8) :
    ∃ u, decompressLoop size.toNat (s.setDecCount 0#64) = .ok () u ∧ t = u.answer (0x00#8 :: u64Payload u.decCount) := by
  cases hopen : s.wrClosed with
  | true =>
    cases (exec_closed (i := .decompress size) rfl nofun h0 hopen).symm.trans h
    exact nomatch ht
  | false =>
    cases hloop : decompressLoop size.toNat (s.setDecCount 0#64) with
    | ok _ u =>
      cases (exec_decompress_ok h0 hopen hloop).symm.trans h
      exact ⟨u, rfl, rfl⟩
    | raise f u =>
      cases (exec_decompress_raise h0 hopen hloop).symm.trans h
      exact absurd ht (takeFault_fault_ne_zero f u)

/-- DECOMPRESS either wrote all its bytes or answers its fault alone (R177). -/
theorem exec_decompress_cases {size : U64} {s t : State} (hr : s.ReaderInv) (hw : s.WriterInv)
    (hp : s.inPos ≤ s.par.inBytes.length) (h0 : s.fault = 0x00#8) (h : exec (.decompress size) s = .next t) :
    (t.fault = 0x00#8 ∧ t.resp = s.resp ++ [0x00#8 :: u64be size] ∧ t.decCount = size ∧
      ∃ xs : List Byte, xs.length = size.toNat ∧ t.writtenBits = s.writtenBits ++ bitsOf xs) ∨
    (t.fault ≠ 0x00#8 ∧ t.resp = s.resp ++ [[t.fault]]) := by
  obtain ⟨-, ⟨hne, -⟩ | ⟨-, ht, -⟩ | ⟨-, f, hf, hresp⟩⟩ := exec_answers _ h0 h
  · exact absurd h0 hne
  · obtain ⟨u, hloop, rfl⟩ := exec_decompress_success h0 h ht
    have hpost := decompressLoop_post size.toNat (s := s.setDecCount 0#64) hr hw hp
    rw [hloop] at hpost
    obtain ⟨xs, hlen, hdone⟩ := hpost
    obtain ⟨emitted, -, -, hstate⟩ := hdone.state
    rw [ofNat_of_toNat_eq hlen.symm] at hstate
    have hdec : u.decCount = size := by rw [hstate]
    have hresp : u.resp = s.resp := by rw [hstate]
    refine .inl ⟨ht, ?_, hdec, xs, hlen, hdone.wrote.bits⟩
    rw [State.answer_resp, hresp, hdec, u64Payload_eq_u64be]
  · exact .inr ⟨hf ▸ f.code_ne_zero, hf ▸ hresp⟩

theorem ReaderFrame.writtenBits {s t : State} (h : ReaderFrame s t) : t.writtenBits = s.writtenBits := by
  obtain ⟨-, hcache, hcnt, -, -, -, -, -, -, -, -, hbytes, -⟩ := h.fields
  rw [State.writtenBits, State.writtenBits, hcache, hcnt, hbytes]

/-- What DECOMPRESS leaves where DecodeOne raises after some bytes: these are written and counted (R34, R176, R177, R256). -/
theorem Decompressed.stops {s t u : State} {size : U64} {xs : List Byte} {n : Nat} {f : FaultKind}
    (h : Decompressed (s.setDecCount 0#64) t xs) (h0 : s.fault = 0x00#8) (hopen : s.wrClosed = false)
    (hloop : decompressLoop size.toNat (s.setDecCount 0#64) = decompressLoop (n + 1) t) (hu : decodeOne t = .raise f u)
    (hframe : ReaderFrame t u) :
    exec (.decompress size) s = .next (takeFault f u) ∧ (takeFault f u).fault = f.code ∧
    (takeFault f u).resp = s.resp ++ [[f.code]] ∧ (takeFault f u).decCount = BitVec.ofNat 64 xs.length ∧
    (takeFault f u).writtenBits = s.writtenBits ++ bitsOf xs := by
  have hexec : exec (.decompress size) s = .next (takeFault f u) :=
    exec_decompress_raise h0 hopen (by rw [hloop, decompressLoop, hu, Res.andThen_raise])
  obtain ⟨hfault, hresp⟩ := exec_takeFault h0 hexec
  have hdec : u.decCount = t.decCount := by rw [hframe]
  exact ⟨hexec, hfault, hresp, hdec.trans (h.decCount.trans (BitVec.zero_add _)),
    hframe.writtenBits.trans h.wrote.bits⟩

/-- Settles O55: what DECOMPRESS can do, and where DecodeOne stops it in the stream. -/
theorem decompressNeverHidesTruncation : Obligations.DecompressNeverHidesTruncation := by
  refine ⟨fun s t size ⟨hr, hw, _, _, _, ⟨hp, _⟩, _⟩ h0 h => exec_decompress_cases hr hw hp h0 h, ?_⟩
  intro s size ps pre tail j h0 hopen hr hw hp h hsize hcodes hbits hpath hinner hs
  obtain ⟨n, hn⟩ := Nat.exists_eq_add_of_lt hsize
  obtain ⟨t, hloop, hdone, hmore⟩ := decompressLoop_along ps (n + 1) (s := s.setDecCount 0#64) hr hw hp h
    (by simpa using hcodes) hbits hs
  rw [← Nat.add_assoc, ← hn] at hloop
  obtain ⟨hpar, -, -, -, hnodes, -⟩ : t.par = s.par ∧ _ ∧ _ ∧ _ ∧ t.nodes = s.nodes ∧ _ := hdone.frame.fields
  have hshape : TrieShape t.nodes := hnodes ▸ h
  have hpath : t.follow 0 pre = some j := (State.follow_congr hnodes 0 pre).trans hpath
  rw [← List.length_map (f := Prod.snd) (as := ps)]
  rw [← State.node_congr hnodes] at hinner ⊢
  refine ⟨fun htail => ?_, fun b rest htail habsent => ?_⟩
  · rw [htail, List.append_nil] at hmore
    obtain ⟨u, hu, hrest, hframe⟩ := decodeOne_exhausted hshape hpath hinner hmore
    obtain ⟨hexec, hfault, hresp, hdec, hwritten⟩ := hdone.stops h0 hopen hloop hu hframe
    exact ⟨_, _, hexec, hpar ▸ terminalFault_code t.par.inTerm, hfault, hresp, hdec, hwritten, hrest⟩
  · rw [htail] at hmore
    obtain ⟨u, hu, hrest, hframe⟩ := decodeOne_absent hshape hpath hinner hmore habsent
    obtain ⟨hexec, hfault, hresp, hdec, hwritten⟩ := hdone.stops h0 hopen hloop hu hframe
    exact ⟨_, hexec, hfault, hresp, hdec, hwritten, hrest⟩

/-! ### The round trip -/

/-- Settles O56: the stream that COMPRESS emits is the codes of the input, each of which the trie decodes to its byte, and
then the padding, which DECOMPRESS leaves unread. -/
theorem roundTrip : Obligations.RoundTrip := by
  intro s xs h0 hopen hr haligned hw hcnt hp hterm hxs hcoded hs
  rw [← unreadBytes_aligned haligned] at hxs
  subst hxs
  obtain ⟨emitted, pad, t, ht, -, hbits, -, -, -, hstate⟩ :=
    compressEncodesTheWholeInput s _ h0 hopen hr hw hp hterm hcoded rfl (by rwa [hcnt, Nat.zero_add])
  have hfault : t.fault = 0x00#8 := by rw [hstate]; exact h0
  have hout : t.outBytes = s.outBytes ++ emitted := by rw [hstate]; rfl
  refine ⟨t, emitted, ht, hfault, hout, fun d size hd0 hdopen hdr hdaligned hdw hdcnt hdp h hleaf hsource hsize hds => ?_⟩
  have hstream : d.unreadBits =
      (s.unreadBytes.map fun x => (s.codeOf x, x)).flatMap Prod.fst ++ List.replicate pad false := by
    rw [unreadBits_aligned hdaligned, hsource, List.flatMap_map]
    rw [bitsOf_append, State.writtenBits, hcnt, List.take_zero, List.append_nil, List.append_assoc] at hbits
    exact List.append_cancel_left hbits
  obtain ⟨emitted', u, hu, -, -, -, hsame, hstate'⟩ := decompressWritesSizeBytes d size _ _ hd0 hdopen hdr hdw hdp h
    (by rw [List.length_map, hsize]) (by simpa using hleaf) hstream (by rwa [List.length_map])
  have hfault' : u.fault = 0x00#8 := by rw [hstate']; exact hd0
  refine ⟨u, hu, hfault', ?_⟩
  rw [hstate', State.answer_outBytes, hsame hdcnt, List.map_map]
  exact congrArg _ (List.map_id _)

/-! ### Frames -/

/-- Settles O60: each command's body stays in its frame, COMPRESS may close the writer, and the end adds FAULT, CMDSEQ and the
responses. -/
theorem codecCommandsFrame : Obligations.CodecCommandsFrame := by
  intro i s t hi h
  obtain ⟨u, hu, ht⟩ := exec_answerFrame i h
  rcases hi with ⟨sym, rfl⟩ | rfl | rfl | ⟨size, rfl⟩
  · obtain ⟨hpar, hrdCache, hrdRem, hclosed, hctLen, hctBits, hnodes, hdec, henc, -, -, hpos, hcmd, -⟩ := hu.1.fields
    have ht : AnswerFrame u t := ht.elim id id
    rw [ht]
    exact ⟨hpar, hctLen, hctBits, hnodes, hcmd, fun _ => ⟨henc, hclosed⟩, fun _ => hdec,
      fun _ => ⟨hrdCache, hrdRem, hpos⟩, nofun⟩
  · obtain ⟨hpar, -, hctLen, hctBits, hnodes, -, -, hcmd, -⟩ := hu.1.1.fields
    rcases ht with ht | ht <;> rw [ht]
    · exact ⟨hpar, hctLen, hctBits, hnodes, hcmd, fun hne => absurd rfl hne, fun _ => hu.2, nofun, nofun⟩
    · exact ⟨hpar, hctLen, hctBits, hnodes, hcmd, fun hne => absurd rfl hne, fun _ => hu.2, nofun, nofun⟩
  · obtain ⟨hpar, hwrCache, hwrCnt, hclosed, hctLen, hctBits, hnodes, hdec, henc, -, -, hbytes, hevents, hcmd, -⟩ :=
      hu.1.fields
    have ht : AnswerFrame u t := ht.elim id id
    rw [ht]
    exact ⟨hpar, hctLen, hctBits, hnodes, hcmd, fun _ => ⟨henc, hclosed⟩, fun _ => hdec, nofun,
      fun _ => ⟨hwrCache, hwrCnt, hbytes, hevents⟩⟩
  · obtain ⟨hpar, hclosed, hctLen, hctBits, hnodes, -, -, hcmd, -⟩ := hu.1.1.fields
    have ht : AnswerFrame u t := ht.elim id id
    rw [ht]
    exact ⟨hpar, hctLen, hctBits, hnodes, hcmd, fun _ => ⟨hu.2, hclosed⟩, fun hne => absurd rfl (hne size), nofun,
      nofun⟩

end Sys2Proof.Machine
end

section
/-! PROOFS. The control statement: what GET_STATUS answers, whatever the state (O30). -/

namespace Sys2Proof.Machine

theorem exec_getStatus (s : State) : exec .getStatus s = .next (s.answer (0x00#8 :: statusPayload s)) := rfl

theorem u16Payload_eq (n : Nat) : u16Payload n = [BitVec.ofNat 8 (n / 256), BitVec.ofNat 8 n] := by
  simp [u16Payload, toBigEndian]

/-- R200's layout of the payload, in the statements' form of its integers. -/
theorem statusPayload_eq (s : State) :
    statusPayload s =
      [s.fault, BitVec.ofNat 8 s.rdRem.val, s.rdCache, BitVec.ofNat 8 s.wrCnt.val, s.wrCache,
        if s.wrClosed then 0x01#8 else 0x00#8, BitVec.ofNat 8 (s.nodeCount / 256), BitVec.ofNat 8 s.nodeCount] ++
        u64be s.decCount ++ u64be s.encCount := by
  rw [statusPayload, u16Payload_eq, u64Payload_eq_u64be, u64Payload_eq_u64be]
  rfl

/-- Settles O30: GET_STATUS has no entry check, so FAULT is only a byte of its payload. -/
theorem getStatusReportsTheRegisters : Obligations.GetStatusReportsTheRegisters := by
  intro s
  rw [exec_getStatus, statusPayload_eq]
  rfl

end Sys2Proof.Machine
end

section
/-! PROOFS. The fault statements: a pending fault (O11), which faults a command raises and that each does happen (O13), and
which of several faults comes first (O15). -/

namespace Sys2Proof.Machine

/-! ### A pending fault -/

/-- While a fault is pending a reserved opcode answers it (R77, R253). -/
theorem execReserved_pending {s : State} (h0 : s.fault ≠ 0x00#8) : execReserved s = .next (s.answer [s.fault]) :=
  command_sticky h0

/-- A reserved byte at the front of the channel is a command of one byte (R77). -/
theorem step_reservedByte {s : State} {op : Byte} {rest : List Byte} (hop : reservedByte op = true)
    (hcmd : s.cmd = op :: rest) : step s = execReserved (s.setCmd rest) :=
  step_reserved (hcmd ▸ decode_unassigned ((reservedByte_iff op).1 hop) rest)

/-- Settles O11: a step takes its command's bytes from the channel, and then the entry check answers FAULT. -/
theorem stickyFaultAnswersEveryCommand : Obligations.StickyFaultAnswersEveryCommand := by
  refine ⟨fun i s hi h0 => exec_pending hi h0, fun i s rest hi hwf h0 hcmd => ?_, fun op s rest hop h0 hcmd => ?_⟩
  · exact (step_encoded hwf hcmd).trans (exec_pending (s := s.setCmd rest) hi h0)
  · exact (step_reservedByte hop hcmd).trans (execReserved_pending (s := s.setCmd rest) h0)

/-! ### Every marked fault happens

For each column of R251 there is one state in which all the commands that the column marks raise its fault, with the operands
of `sample`. -/

/-- From a state with no fault pending, the command raises the fault. -/
def State.Raises (s : State) (i : Instr) (f : FaultKind) : Prop :=
  s.fault = 0x00#8 ∧ ∃ t, exec i s = .next t ∧ t.fault = f.code

/-- A command with the same opcode, whose operands are legal and let it read, write or insert something. -/
def sample : Instr → Instr
  | .rdBytes _ => .rdBytes 1
  | .wrBit _ => .wrBit 0
  | .wrBytes _ => .wrBytes [0x00]
  | .trInsertStream _ _ => .trInsertStream 0x00 1
  | .trInsertCode _ _ => .trInsertCode 0x00 [false]
  | .encSym _ => .encSym 0x00
  | .decompress _ => .decompress 1
  | i => i

theorem sample_opcode (i : Instr) : (encode (sample i)).head? = (encode i).head? := by cases i <;> rfl

theorem sample_usesWriter (i : Instr) : usesWriter (sample i) = usesWriter i := by cases i <;> rfl

theorem sample_legal {i : Instr} {b : Byte} (h : sample i = .wrBit b) : b.toNat ≤ 1 := by
  cases i <;> cases h
  decide

/-- Reset with an empty source. -/
def atEnd (x : Terminal) : State := State.resetWith { Params.default with inTerm := x }

/-- The commands that read take the terminal's fault at the end of the source (R100). -/
theorem atEnd_raises (x : Terminal) {i : Instr} (h : .endOfInput ∈ canRaise i) :
    (atEnd x).Raises (sample i) (terminalFault x) := by
  cases i with
  | rdBit | rdBytes | trInsertStream | decSym | decompress => cases x <;> exact ⟨rfl, _, rfl, rfl⟩
  | _ => simp [canRaise] at h

/-- Symbol 0x00 has the code 0 in the table and in the trie, it is the next to be decoded and to be encoded, seven bits are
cached in the writer, and the sink fails. -/
def sinkFails : State :=
  { (State.resetWith { Params.default with inBytes := [0x00], sinkRest := .fail }).setCode 0x00 1 [false] with
    wrCnt := 7
    nodes := [{ Node.fresh with z := some 1 }, { Node.fresh with leaf := true }] }

/-- The commands that write take IO_ERROR at a failing sink event (R129). -/
theorem sinkFails_raises {i : Instr} (h : usesWriter i = true) : sinkFails.Raises (sample i) .ioError := by
  cases i with
  | wrBit | wrBytes | wrAlign | wrClose | encSym | compress | decompress => exact ⟨rfl, _, rfl, rfl⟩
  | _ => exact absurd h Bool.false_ne_true

/-- The code 01 is a leaf's, and zeros are to be read: the code 0 ends on the way to the leaf, and
after it the branch 0 is absent. -/
def deepLeaf : State :=
  (State.resetWith { Params.default with inBytes := [0x00] }).setNodes
    [{ Node.fresh with z := some 1 }, { Node.fresh with o := some 2 }, { Node.fresh with leaf := true }]

/-- An insert of a code that another one begins with (R143) and an absent branch (R170). -/
theorem deepLeaf_raises {i : Instr} (h : .corruptDictionary ∈ canRaise i) :
    deepLeaf.Raises (sample i) .corruptDictionary := by
  cases i with
  | trInsertStream | trInsertCode | decSym | decompress => exact ⟨rfl, _, rfl, rfl⟩
  | _ => simp [canRaise] at h

/-- A byte to read, no symbol with a code, and a trie store that holds the root only (R10, R30). -/
def bareTables : State := State.resetWith { Params.default with nodeCap := 1, inBytes := [0x00] }

/-- No symbol can be encoded (R172, R173). -/
theorem bareTables_raises_symbolNotInTable {i : Instr} (h : .symbolNotInTable ∈ canRaise i) :
    bareTables.Raises (sample i) .symbolNotInTable := by
  cases i with
  | encSym | compress => exact ⟨rfl, _, rfl, rfl⟩
  | _ => simp [canRaise] at h

/-- No node can be added (R143). -/
theorem bareTables_raises_nodeOverflow {i : Instr} (h : .nodeOverflow ∈ canRaise i) :
    bareTables.Raises (sample i) .nodeOverflow := by
  cases i with
  | trInsertStream | trInsertCode => exact ⟨rfl, _, rfl, rfl⟩
  | _ => simp [canRaise] at h

/-- The commands that write take WRITER_UNUSABLE on a closed writer (R124). -/
theorem closed_raises {i : Instr} (h : usesWriter i = true) : State.reset.close.Raises (sample i) .writerUnusable :=
  ⟨rfl, _, exec_closed (sample_usesWriter i ▸ h) (fun _ => sample_legal) rfl rfl, rfl⟩

theorem usesWriter_of_canRaise_writerUnusable {i : Instr} (h : .writerUnusable ∈ canRaise i) : usesWriter i = true := by
  cases i <;> simp [canRaise, usesWriter] at h ⊢

/-- IO_ERROR comes from the source or from the sink (R100, R129). -/
theorem reads_or_usesWriter_of_canRaise_ioError {i : Instr} (h : .ioError ∈ canRaise i) :
    .endOfInput ∈ canRaise i ∨ usesWriter i = true := by
  cases i <;> simp [canRaise, usesWriter] at h ⊢

/-- Each pair that R251 marks, ILLEGAL_COMMAND apart, happens with the operands of `sample`. -/
theorem sample_raises {i : Instr} {f : FaultKind} (h : f ∈ canRaise i) (hf : f ≠ .illegalCommand) :
    ∃ s : State, s.Raises (sample i) f := by
  cases f with
  | ioError =>
    rcases reads_or_usesWriter_of_canRaise_ioError h with hreads | hwrites
    · exact ⟨_, atEnd_raises .error hreads⟩
    · exact ⟨_, sinkFails_raises hwrites⟩
  | endOfInput => exact ⟨_, atEnd_raises .endOfSource h⟩
  | corruptDictionary => exact ⟨_, deepLeaf_raises h⟩
  | symbolNotInTable => exact ⟨_, bareTables_raises_symbolNotInTable h⟩
  | writerUnusable => exact ⟨_, closed_raises (usesWriter_of_canRaise_writerUnusable h)⟩
  | nodeOverflow => exact ⟨_, bareTables_raises_nodeOverflow h⟩
  | illegalCommand => exact absurd rfl hf

/-- Settles O13: a command's body raises only what its row marks; each marked pair happens in the state of its column, or for
ILLEGAL_COMMAND with the operand 2 of WR_BIT; and a reserved opcode always raises. -/
theorem faultMatrix : Obligations.FaultMatrix := by
  refine ⟨fun i s t h0 h => exec_fault i h0 h, fun i f hf => ?_, fun s h0 => ⟨_, execReserved_illegal h0, rfl⟩⟩
  by_cases hillegal : f = .illegalCommand
  · subst hillegal
    obtain ⟨b, rfl⟩ := wrBit_of_canRaise_illegalCommand hf
    exact ⟨.wrBit 2, State.reset, _, rfl, rfl, exec_wrBit_illegal (by decide) rfl, rfl⟩
  · obtain ⟨s, h0, t, ht, hcode⟩ := sample_raises hf hillegal
    exact ⟨sample i, s, t, sample_opcode i, h0, ht, hcode⟩

/-! ### The order of the checks -/

/-- ENC_SYM of a symbol with no code, on an open writer (R172). -/
theorem exec_encSym_absent {sym : Byte} {s : State} (h0 : s.fault = 0x00#8) (hopen : s.wrClosed = false)
    (habsent : s.codeLen sym = 0x00#8) : exec (.encSym sym) s = .next ((s.setFault 0x04#8).answer [0x04#8]) :=
  (exec_encSym_raise h0 hopen (encodeOne_absent habsent)).trans (congrArg _ (takeFault_fresh h0))

/-- Settles O15: the entry check, the operand check, the writer check and the table check, each where the ones before it
pass. -/
theorem faultPriority : Obligations.FaultPriority :=
  fun _ => ⟨fun _ hi h0 => exec_pending hi h0, fun _ hb h0 => exec_wrBit_illegal hb h0,
    fun _ hi hlegal h0 hclosed => exec_closed hi hlegal h0 hclosed,
    fun _ h0 hopen habsent => exec_encSym_absent h0 hopen habsent⟩

end Sys2Proof.Machine
end

section
/-! PROOFS. The reset and hazard statements: how many port events one command makes (O29), and the reset input at a command
boundary (O20). -/

namespace Sys2Proof.Machine

/-! ### Measures that a helper raises by a bounded amount -/

/-- A helper started in `s` raises the measure `m` by at most `n`, whether it returns or raises a fault. -/
def Res.Adds {α : Type} (r : Res α) (m : State → Nat) (n : Nat) (s : State) : Prop :=
  r.Within (fun t => m t ≤ m s + n) fun _ => True

section Measure

variable {α β : Type} {m : State → Nat} {a b n : Nat} {s : State}

theorem Res.adds_ok (x : α) (n : Nat) (s : State) : (Res.ok x s).Adds m n s := Nat.le_add_right _ n

theorem Res.adds_raise (f : FaultKind) (n : Nat) (s : State) : (Res.raise f s : Res α).Adds m n s :=
  ⟨Nat.le_add_right _ n, trivial⟩

theorem Res.Adds.mono {r : Res α} (h : r.Adds m a s) (hab : a ≤ b) : r.Adds m b s :=
  Res.Within.mono h (fun _ ht => le_trans ht (Nat.add_le_add_left hab _)) fun _ hf => hf

theorem Res.Adds.andThen {r : Res α} {k : α → State → Res β} (h : r.Adds m a s) (hk : ∀ x t, (k x t).Adds m b t) :
    (r.andThen k).Adds m (b + a) s :=
  Res.Within.andThen h (fun _ ht => by omega) fun x t ht =>
    Res.Within.mono (hk x t) (fun _ hu => by omega) fun _ hf => hf

/-- The rest of a helper that leaves the measure as it is. -/
theorem Res.Adds.andThen_free {r : Res α} {k : α → State → Res β} (h : r.Adds m a s) (hk : ∀ x t, (k x t).Adds m 0 t) :
    (r.andThen k).Adds m a s :=
  Nat.zero_add a ▸ h.andThen hk

theorem Res.Adds.payload {r : Res α} {p : α → State → List Byte} (h : r.Adds m n s) :
    (r.andThen fun x t => .ok (p x t) t).Adds m n s :=
  h.andThen_free fun x t => Res.adds_ok (p x t) 0 t

theorem checkWriter_adds {k : Unit → State → Res α} (h : (k () s).Adds m n s) :
    ((checkWriter s).andThen k).Adds m n s := by
  cases hc : s.wrClosed with
  | true => rw [checkWriter_closed hc]; exact Res.adds_raise _ n s
  | false => rw [checkWriter_open hc]; exact h

/-- A command's end leaves the measure as its body left it; with a fault pending there is no body (R253). -/
theorem command_adds (hm : ∀ s t, AnswerFrame s t → m t = m s) {body : State → Res (List Byte)} {t : State}
    (hbody : (body s).Adds m n s) (h : command body s = .next t) : m t ≤ m s + n := by
  rcases command_cases body s with ⟨-, he⟩ | ⟨-, p, u, hu, he⟩ | ⟨-, f, u, hu, he⟩ <;> rw [he] at h <;> cases h
  · rw [hm _ _ (.answer s _)]
    exact Nat.le_add_right _ n
  · rw [hu] at hbody
    rw [hm _ _ (.answer u _)]
    exact hbody
  · rw [hu] at hbody
    rw [hm _ _ (.takeFault f u)]
    exact hbody.1

end Measure

/-! ### Bytes fetched from IN -/

/-- How far the reader is in the bits of IN, with the cached bits counted as not yet read. -/
def State.bitsIn (s : State) : Nat := 8 * s.inPos + (8 - s.rdRem.val)

theorem AnswerFrame.inPos {s t : State} (h : AnswerFrame s t) : t.inPos = s.inPos := by
  unfold AnswerFrame at h
  rw [h]

theorem AnswerFrame.bitsIn {s t : State} (h : AnswerFrame s t) : t.bitsIn = s.bitsIn := by
  unfold AnswerFrame at h
  rw [h]
  rfl

/-- A read of `n` bits fetches at most `n / 8 + 1` bytes. -/
theorem inPos_le_of_bitsIn {s t : State} {n : Nat} (h : t.bitsIn ≤ s.bitsIn + n) : t.inPos ≤ s.inPos + (n + 8) / 8 := by
  simp only [State.bitsIn] at h
  omega

/-- Consumed bits are read bits: a byte fetched leaves IN with eight bits less. -/
theorem bitsIn_le_of_unreadBits {s t : State} {used : List Bool} (hports : PortsGrow s t) (hpar : t.par = s.par)
    (h : s.unreadBits = used ++ t.unreadBits) : t.bitsIn ≤ s.bitsIn + used.length := by
  obtain ⟨-, hwithin, -⟩ := hports
  have hlen := congrArg List.length h
  have hrem := s.rdRem.isLt
  have hrem' := t.rdRem.isLt
  simp only [List.length_append, State.unreadBits_length, State.bitsLeft, State.inLeft, hpar] at hlen
  simp only [State.bitsIn]
  omega

theorem readBit_adds_bitsIn (s : State) : (readBit s).Adds State.bitsIn 1 s := by
  rcases readBit_cases s with ⟨h0, he⟩ | ⟨h0, _, he⟩ | ⟨-, -, he⟩ <;> rw [he]
  · refine Res.within_ok ?_
    simp only [State.bitsIn, State.setReader_inPos, State.setReader_rdRem]
    omega
  · refine Res.within_ok ?_
    simp only [State.bitsIn, State.setReader_inPos, State.setReader_rdRem, State.setInPos_inPos, h0]
    omega
  · exact Res.adds_raise _ 1 s

/-- A walk of TrieInsert reads one bit for each bit of the code's length, or stops early (R143, R145). -/
theorem trieWalk_stream_adds_bitsIn (n j i : Nat) (s : State) :
    (trieWalk nextStreamBit n j i s).Adds State.bitsIn n s := by
  induction n generalizing j i s with
  | zero => exact Res.adds_ok i 0 s
  | succ n ih =>
    refine (readBit_adds_bitsIn s).andThen fun bit t => ?_
    split
    · exact Res.adds_raise _ n t
    · split
      · exact ih _ _ t
      · split
        · exact Res.adds_raise _ n t
        · exact ih _ _ (t.allocChild i bit)

theorem trieInsert_stream_adds_bitsIn (sym : Byte) (len : Nat) (s : State) :
    (trieInsert sym len nextStreamBit s).Adds State.bitsIn len s := by
  unfold trieInsert
  split
  · exact Res.adds_ok () len s
  · refine (trieWalk_stream_adds_bitsIn len 0 0 s).andThen_free fun i t => ?_
    unfold trieMark
    split
    · exact Res.adds_raise _ 0 t
    · exact Res.adds_ok () 0 (t.markLeaf i sym)

theorem readByte_adds_inPos (s : State) : (readByte s).Adds State.inPos 1 s := by
  unfold readByte
  rcases tryReadByte_cases s with ⟨_, -, he⟩ | ⟨_, -, he⟩ | ⟨-, he⟩ <;> rw [he]
  · exact le_refl (s.inPos + 1)
  · exact le_refl (s.inPos + 1)
  · exact Res.adds_raise _ 1 s

theorem readBytes_adds_inPos (n : Nat) (s : State) : (readBytes n s).Adds State.inPos n s := by
  induction n generalizing s with
  | zero => exact Res.adds_ok [] 0 s
  | succ n ih =>
    exact (readByte_adds_inPos s).andThen fun b t => (ih t).andThen_free fun p u => Res.adds_ok (b :: p) 0 u

/-! ### Events sent to OUT -/

/-- The bits that went to the writer: eight for each event, and the cached ones. -/
def State.bitsOut (s : State) : Nat := 8 * s.outEvents.length + s.wrCnt.val

theorem AnswerFrame.bitsOut {s t : State} (h : AnswerFrame s t) : t.bitsOut = s.bitsOut := by
  unfold AnswerFrame at h
  rw [h]
  rfl

/-- At most seven bits are cached before a write of `n` bits, so it makes at most `(n + 7) / 8` events. -/
theorem outEvents_le_of_bitsOut {s t : State} {n : Nat} (h : t.bitsOut ≤ s.bitsOut + n) :
    t.outEvents.length ≤ s.outEvents.length + (n + 7) / 8 := by
  have hcnt := s.wrCnt.isLt
  simp only [State.bitsOut] at h
  omega

theorem bitsOut_setOut_emit (s : State) (bytes : List Byte) (b : Byte) :
    (s.setOut bytes (s.outEvents ++ [.emit b])).bitsOut = s.bitsOut + 8 := by
  simp only [State.bitsOut, State.setOut_outEvents, State.setOut_wrCnt, List.length_append, List.length_singleton]
  omega

/-- An emit is one event, whatever the sink answers (R53). -/
theorem emit_adds_bitsOut (b : Byte) (s : State) : (sinkStep (outEmit b s)).Adds State.bitsOut 8 s := by
  rcases sinkStep_outEmit_cases b s with ⟨-, he⟩ | ⟨-, bytes, -, he⟩ <;> rw [he]
  · exact (bitsOut_setOut_emit s _ b).le
  · exact ⟨(bitsOut_setOut_emit s bytes b).le, trivial⟩

/-- The bit that fills the cache empties it into one event (R120). -/
theorem writeBit_adds_bitsOut (b : Bool) (s : State) : (writeBit b s).Adds State.bitsOut 1 s := by
  unfold writeBit
  split
  · next hfull =>
    refine Res.Within.mono (emit_adds_bitsOut _ (s.setWriter 0x00#8 0)) (fun t ht => ?_) fun _ hf => hf
    simp only [State.bitsOut, State.setWriter_outEvents, State.setWriter_wrCnt, Fin.val_zero] at ht ⊢
    omega
  · refine Res.within_ok ?_
    simp only [State.bitsOut, State.setWriter_outEvents, State.setWriter_wrCnt, Fin.val_ofNat]
    omega

theorem writeBits_adds_bitsOut (bs : List Bool) (s : State) : (writeBits bs s).Adds State.bitsOut bs.length s := by
  induction bs generalizing s with
  | nil => exact Res.adds_ok () 0 s
  | cons b bs ih => exact (writeBit_adds_bitsOut b s).andThen fun _ t => ih t

theorem writeByte_adds_bitsOut (d : Byte) (s : State) : (writeByte d s).Adds State.bitsOut 8 s := by
  unfold writeByte
  split
  · exact emit_adds_bitsOut d s
  · exact writeBits_adds_bitsOut (bitsOfByte d) s

theorem writeBytes_adds_bitsOut (ds : List Byte) (s : State) :
    (writeBytes ds s).Adds State.bitsOut (8 * ds.length) s := by
  induction ds generalizing s with
  | nil => exact Res.adds_ok () 0 s
  | cons d ds ih => exact (writeByte_adds_bitsOut d s).andThen fun _ t => ih t

/-- A code has at most 255 bits, the greatest value of CT_LEN (R9, R30). -/
theorem encodeOne_adds_bitsOut (sym : Byte) (s : State) : (encodeOne sym s).Adds State.bitsOut 255 s := by
  unfold encodeOne
  split
  · exact Res.adds_raise _ 255 s
  · refine (writeBits_adds_bitsOut (s.codeOf sym) s).mono ?_
    rw [s.codeOf_length]
    exact Nat.le_of_lt_succ (s.codeLen sym).isLt

theorem decodeOne_adds_bitsOut (s : State) : (decodeOne s).Adds State.bitsOut 0 s := by
  refine Res.Within.mono (decodeOne_within s) (fun t ht => ?_) fun _ _ => trivial
  obtain ⟨-, -, hcnt, -, -, -, -, -, -, -, -, -, hevents, -⟩ := ht.1.fields
  exact (congrArg₂ (fun events cnt => 8 * List.length events + Fin.val cnt) hevents hcnt).le

theorem decompressLoop_adds_bitsOut (n : Nat) (s : State) : (decompressLoop n s).Adds State.bitsOut (8 * n) s := by
  induction n generalizing s with
  | zero => exact Res.adds_ok () 0 s
  | succ n ih =>
    exact (decodeOne_adds_bitsOut s).andThen fun sym t =>
      (writeByte_adds_bitsOut sym t).andThen fun _ u => ih (u.setDecCount (u.decCount + 1#64))

/-- A writer-using command (R124) whose helper sends at most `n` bits to the writer. -/
theorem command_outEvents_le {k : Unit → State → Res (List Byte)} {s t : State} {n : Nat}
    (hk : (k () s).Adds State.bitsOut n s) (h : command (fun s => (checkWriter s).andThen k) s = .next t) :
    t.outEvents.length ≤ s.outEvents.length + (n + 7) / 8 :=
  outEvents_le_of_bitsOut (command_adds (fun _ _ => AnswerFrame.bitsOut) (checkWriter_adds hk) h)

/-! ### The commands -/

theorem exec_rdBit_inPos_le {s t : State} (h : exec .rdBit s = .next t) : t.inPos ≤ s.inPos + 1 := by
  unfold exec execRdBit at h
  exact inPos_le_of_bitsIn (command_adds (fun _ _ => AnswerFrame.bitsIn) (readBit_adds_bitsIn s).payload h)

theorem exec_rdBytes_inPos_le {n : U32} {s t : State} (h : exec (.rdBytes n) s = .next t) :
    t.inPos ≤ s.inPos + n.toNat := by
  unfold exec execRdBytes at h
  exact command_adds (fun _ _ => AnswerFrame.inPos) (readBytes_adds_inPos n.toNat s) h

theorem exec_wrBytes_outEvents_le {data : List Byte} {s t : State} (h : exec (.wrBytes data) s = .next t) :
    t.outEvents.length ≤ s.outEvents.length + data.length := by
  unfold exec execWrBytes at h
  have hle := command_outEvents_le (writeBytes_adds_bitsOut data s).payload h
  omega

theorem exec_trInsertStream_inPos_le {sym len : Byte} {s t : State} (h : exec (.trInsertStream sym len) s = .next t) :
    t.inPos ≤ s.inPos + 32 := by
  unfold exec execTrInsertStream at h
  have hle := inPos_le_of_bitsIn
    (command_adds (fun _ _ => AnswerFrame.bitsIn) (trieInsert_stream_adds_bitsIn sym len.toNat s).payload h)
  have hlen := len.isLt
  omega

theorem exec_encSym_outEvents_le {sym : Byte} {s t : State} (h : exec (.encSym sym) s = .next t) :
    t.outEvents.length ≤ s.outEvents.length + 32 := by
  unfold exec execEncSym at h
  exact command_outEvents_le (encodeOne_adds_bitsOut sym s).payload h

/-- The bits of a path of the trie (R171), and the byte that a cached bit may be left of. -/
theorem exec_decSym_inPos_le {s t : State} (hshape : TrieShape s.nodes) (hcap : s.nodeCount ≤ s.par.nodeCap)
    (h : exec .decSym s = .next t) : t.inPos ≤ s.inPos + ((s.par.nodeCap - 1 + 7) / 8 + 1) := by
  obtain ⟨u, used, hu, hbits, hlen⟩ := decSymIsBounded s hshape
  cases hu.symm.trans h
  obtain ⟨hpar, -, hports, -⟩ := exec_advances .decSym h
  have hle := inPos_le_of_bitsIn (bitsIn_le_of_unreadBits hports hpar hbits)
  omega

theorem exec_decompress_outEvents_le {size : U64} {s t : State} (h : exec (.decompress size) s = .next t) :
    t.outEvents.length ≤ s.outEvents.length + size.toNat := by
  unfold exec execDecompress at h
  have hle := command_outEvents_le (s := s) (decompressLoop_adds_bitsOut size.toNat (s.setDecCount 0#64)).payload h
  omega

/-- Settles O29, command by command: fetches by the bits or bytes read, events by the bits written. -/
theorem portEventsAreBounded : Obligations.PortEventsAreBounded := fun _ _ =>
  ⟨exec_rdBit_inPos_le, fun _ => exec_rdBytes_inPos_le, fun _ => exec_wrBytes_outEvents_le,
    fun _ _ => exec_trInsertStream_inPos_le, fun _ => exec_encSym_outEvents_le,
    fun h => (exec_advances .compress h).ports.2.1, exec_decSym_inPos_le, fun _ => exec_decompress_outEvents_le⟩

/-! ### Command boundaries and the reset input -/

/-- Fewer bytes than the length rule asks for are no command yet (R75, R82). -/
theorem decode_half {half : List Byte} (h : ∀ n, commandLength half = some n → half.length < n) :
    decode half = .incomplete := by
  obtain ⟨i, front, rest, rfl, hlength, -⟩ | ⟨op, rest, rfl, hop, -⟩ | ⟨hincomplete, -⟩ := decode_finds half
  · have hlt := h _ hlength
    rw [List.length_append] at hlt
    omega
  · have hlt := h _ (commandLength_reserved hop rest)
    rw [List.length_cons] at hlt
    omega
  · exact hincomplete

@[simp] theorem wholeCommands_nil (n : Nat) : wholeCommands n [] = true := by simp [wholeCommands]

theorem wholeCommands_half {half : List Byte} (h : ∀ n, commandLength half = some n → half.length < n) (n : Nat) :
    wholeCommands n half = true ↔ half = [] := by
  cases half with
  | nil => simp
  | cons b bs => cases n <;> simp [wholeCommands, decode_half h]

/-- A command the host can send has a first byte, and the decoder finds it in front of any bytes. -/
theorem hostBytes_cons {c : HostCommand} (hc : sendable c = true) : ∃ b bs, hostBytes c = b :: bs ∧
    ∀ rest, (∃ i, decode (b :: (bs ++ rest)) = .command i rest) ∨ decode (b :: (bs ++ rest)) = .reserved b rest := by
  cases c with
  | known i =>
    have hne : encode i ≠ [] := by cases i <;> exact List.cons_ne_nil _ _
    obtain ⟨b, bs, hi⟩ := List.exists_cons_of_ne_nil hne
    exact ⟨b, bs, hi, fun rest => .inl ⟨i, by rw [← List.cons_append, ← hi]; exact encodeThenDecodeIsIdentity i rest hc⟩⟩
  | reserved op => exact ⟨op, [], rfl, fun rest => .inr (decode_unassigned (Option.isNone_iff_eq_none.1 hc) rest)⟩

/-- Behind the commands that the host sent whole only what follows them counts. -/
theorem wholeCommands_sent {cs : List HostCommand} (hcs : ∀ c ∈ cs, sendable c = true) {half : List Byte}
    (h : ∀ n, commandLength half = some n → half.length < n) {n : Nat} (hn : (cs.flatMap hostBytes ++ half).length ≤ n) :
    wholeCommands n (cs.flatMap hostBytes ++ half) = true ↔ half = [] := by
  induction cs generalizing n with
  | nil => exact wholeCommands_half h n
  | cons c cs ih =>
    obtain ⟨hc, hcs⟩ := List.forall_mem_cons.1 hcs
    obtain ⟨b, bs, hb, hdecode⟩ := hostBytes_cons hc
    rw [List.flatMap_cons, hb, List.append_assoc, List.cons_append] at hn ⊢
    cases n with
    | zero => exact absurd hn (Nat.not_succ_le_zero _)
    | succ n =>
      have hrest : (cs.flatMap hostBytes ++ half).length ≤ n := by
        simp only [List.length_cons, List.length_append] at hn ⊢
        omega
      obtain ⟨i, hd⟩ | hd := hdecode (cs.flatMap hostBytes ++ half) <;> simp only [wholeCommands, hd] <;>
        exact ih hcs hrest

/-- Settles O20: the bytes tell the boundary, and the state after the move is the reset state with the device's NODE_CAP. -/
theorem hostResetStartsANewEpoch : Obligations.HostResetStartsANewEpoch := by
  refine ⟨fun s cs half hcs hcmd h => ?_, fun p _ h => hostReset_half p h, fun p s h => ?_⟩
  · rw [State.atBoundary, hcmd]
    exact wholeCommands_sent hcs h (le_refl _)
  · exact ⟨_, hostReset_boundary p h, rfl, rfl, rfl, rfl, rfl, resetWith_codeLen _, rfl, rfl, rfl, rfl, rfl, rfl, rfl, rfl,
      rfl, fun _ => rfl, rfl, rfl, rfl, rfl, step_incomplete rfl⟩

end Sys2Proof.Machine
end
